-- ==== Sys2Proof/Word.lean ====
section
/-! DEFINITION. The two sizes of value the LCB has (00_scope.md R9): the byte, and the 16-bit word of
the registers, of the lookup table and of the response stream. All values are unsigned. -/

namespace Sys2Proof

/-- A byte (R9): what the command stream and the two buffers hold. -/
abbrev Byte := BitVec 8

/-- A 16-bit word (R9, R8 `CRC_W`, `LUT_W`, `LFSR_W`, `RSP_W`). -/
abbrev Word := BitVec 16

/-- A 32-bit value: the frame-sync marker (R185). -/
abbrev Marker := BitVec 32

end Sys2Proof
end

