-- ==== Sys2Proof/Machine/Bits.lean ====
section
/-! DEFINITION. The pure helpers of 00_scope.md R10 and R11 on bits and bytes. -/

namespace Sys2Proof.Machine

/-- Bit `i` of a value becomes `b`, every other bit as it was: `v[i] <- b`. -/
def setBit {w : Nat} (v : BitVec w) (i : Nat) (b : Bool) : BitVec w :=
  if b then v ||| (1#w <<< i) else v &&& ~~~ (1#w <<< i)

/-- The bits of a value, least significant first, rebuilt from a list of the same order. -/
def ofBitsLE (w : Nat) : List Bool → BitVec w
  | [] => 0
  | b :: t => (ofBitsLE w t <<< 1) ||| (if b then 1#w else 0#w)

/-- `bitrev16(v)` (R11): the value `w` with `w[i] = v[15-i]`. -/
def bitrev16 (v : Word) : Word :=
  ofBitsLE 16 ((List.range 16).map fun i => v.getLsbD (15 - i))

/-- `bitrev8(v)` (R11): the value `w` with `w[i] = v[7-i]`. -/
def bitrev8 (v : Byte) : Byte :=
  ofBitsLE 8 ((List.range 8).map fun i => v.getLsbD (7 - i))

/-- `lsbits(B)` (R11): the bits of a byte, least significant first. -/
def lsbits (b : Byte) : List Bool :=
  [b.getLsbD 0, b.getLsbD 1, b.getLsbD 2, b.getLsbD 3, b.getLsbD 4, b.getLsbD 5, b.getLsbD 6, b.getLsbD 7]

/-- The bit sequence of a byte sequence in the HDLC unit's order (R150). -/
def bitsOf (s : List Byte) : List Bool := s.flatMap lsbits

/-- `packlsb(bits)` (R11): byte `m` has bit `j` equal to `bits[8m + j]`. R11 gives it for lengths that are
multiples of 8; bits after the last whole byte are dropped. -/
def packlsb : List Bool → List Byte
  | b0 :: b1 :: b2 :: b3 :: b4 :: b5 :: b6 :: b7 :: t =>
    ofBitsLE 8 [b0, b1, b2, b3, b4, b5, b6, b7] :: packlsb t
  | _ => []

/-- `ceil8(n)` (R10). -/
def ceil8 (n : Nat) : Nat := (n + 7) / 8

/-- `zext_16(b)` (R12): the byte in bits 7:0, zeros above. -/
def zext16 (b : Byte) : Word := b.setWidth 16

/-- `asm_bytes(V)` (R11): most significant byte first. -/
def asmBytes (v : Marker) : List Byte :=
  [v.extractLsb' 24 8, v.extractLsb' 16 8, v.extractLsb' 8 8, v.extractLsb' 0 8]

end Sys2Proof.Machine
end

