-- ==== Sys2Proof/Config.lean ====
section
/-! DEFINITION. The implementation parameters of 00_scope.md R8, in one record as R8 asks. `BUFSZ` and
`ASM_A` are OPEN in the spec (93_implementation_defined.md U12); the others have the spec's values as
defaults (U9, G1, G2, G4), and `Config.wf` admits no other value of the three that fix a shape. The record
is carried in `State` as a constant that no step writes (log entry 1), so that a claim over every state is
a claim over every admissible parameter value. -/

namespace Sys2Proof

/-- One row of `PRESET_TABLE` (41_crc.md R128): what one named preset fixes. `lsbf` is the row's `order`,
which R122 says "cannot fail", so it is the one bit `order[0]`. -/
structure Preset where
  poly   : Word
  init   : Word
  xorout : Word
  lsbf   : Bool
  deriving DecidableEq, Repr

/-- `PRESET_TABLE` (R128): six rows (R8 `N_PRESET`), under the source's names. -/
structure PresetTable where
  ccittFalse : Preset
  xmodem     : Preset
  hdlc       : Preset
  kermit     : Preset
  maxim      : Preset
  usb        : Preset
  deriving DecidableEq, Repr

/-- The parameters of R8 that are values; the widths of R8 (`CRC_W`, `LUT_W`, `LFSR_W`, `RSP_W`) are the types
of `Word.lean` and `State.lean`, and `N_PRESET` is the number of rows of `PresetTable`. -/
structure Config where
  /-- `BUFSZ`, the capacity in bytes of each of IBUF and OBUF. OPEN, 8 to 65535. -/
  bufsz      : Nat
  /-- `ASM_A`, the marker of a payload that is not inverted. OPEN. -/
  asmA       : Marker
  /-- `ASM_LEN`, the length of the marker in bytes (R185). -/
  asmLen     : Nat
  /-- `LUT_N`, the entries of the lookup table (R63, R120). -/
  lutN       : Nat
  /-- `PRESET_TABLE` (R128). -/
  presets    : PresetTable
  /-- `HDLC_RUN`, the ones after which a zero is stuffed (R151, R152). -/
  hdlcRun    : Nat
  /-- `HDLC_FLAG`, the usual flag byte. The flag is an operand: no command reads this field. -/
  hdlcFlag   : Byte
  /-- `HDLC_PAD`, the bit that fills the stuffer's last byte. -/
  hdlcPad    : Bool
  /-- `SLIP_END` (R170). -/
  slipEnd    : Byte
  /-- `SLIP_ESC` (R170). -/
  slipEsc    : Byte
  /-- `SLIP_ESC_END` (R170). -/
  slipEscEnd : Byte
  /-- `SLIP_ESC_ESC` (R170). -/
  slipEscEsc : Byte
  /-- `LFSR_POLY`, the Galois feedback mask (R187). -/
  lfsrPoly   : Word
  /-- `LFSR_SEED`, the register's value at the start of every descrambling (R192) and at reset (R27). -/
  lfsrSeed   : Word
  deriving DecidableEq, Repr

/-- The six rows of R128, in its order. -/
def PresetTable.standard : PresetTable where
  ccittFalse := ⟨0x1021, 0xFFFF, 0x0000, false⟩
  xmodem     := ⟨0x1021, 0x0000, 0x0000, false⟩
  hdlc       := ⟨0x1021, 0xFFFF, 0xFFFF, true⟩
  kermit     := ⟨0x1021, 0x0000, 0x0000, true⟩
  maxim      := ⟨0x8005, 0x0000, 0xFFFF, true⟩
  usb        := ⟨0x8005, 0xFFFF, 0xFFFF, true⟩

/-- Row `n` of the table (R128 numbers the rows 0 to 5); no row from 6 on. -/
def PresetTable.row (t : PresetTable) (n : Byte) : Option Preset :=
  match n.toNat with
  | 0 => some t.ccittFalse
  | 1 => some t.xmodem
  | 2 => some t.hdlc
  | 3 => some t.kermit
  | 4 => some t.maxim
  | 5 => some t.usb
  | _ => none

/-- R8's values: the suggested `BUFSZ`, the default `ASM_A`, and the spec's values of the rest. -/
def Config.default : Config where
  bufsz      := 4096
  asmA       := 0x1ACFFC1D
  asmLen     := 4
  lutN       := 256
  presets    := PresetTable.standard
  hdlcRun    := 5
  hdlcFlag   := 0x7E
  hdlcPad    := false
  slipEnd    := 0xC0
  slipEsc    := 0xDB
  slipEscEnd := 0xDC
  slipEscEsc := 0xDD
  lfsrPoly   := 0x8016
  lfsrSeed   := 0xACE1

/-- `ASM_B = NOT ASM_A` (R8, R185). -/
def Config.asmB (c : Config) : Marker := ~~~ c.asmA

/-- What R8 asks of the parameters that other rules' shapes rest on: 8 <= BUFSZ <= 65535, and `LUT_N`,
`HDLC_RUN` and `ASM_LEN` at R8's values (an index into `LUT` is 8 bits, R63; a marker is 32 bits, R185). -/
def Config.wf (c : Config) : Bool :=
  decide (8 ≤ c.bufsz) && decide (c.bufsz ≤ 65535) &&
    (c.lutN == 256 && c.hdlcRun == 5 && c.asmLen == 4)

end Sys2Proof
end

