-- ==== Sys2Proof/Machine/State.lean ====
section
/-! DEFINITION. The state of the LCB as plain data (10_state.md R20, 20_memory.md R60), the state right
after reset (R43, R240), and the reasons a step can stop. -/

namespace Sys2Proof.Machine

/-- A byte buffer's contents: (index, byte) pairs in canonical form, indices strictly rising and no byte
equal to what an unlisted index reads as. -/
abbrev Memory := List Host.Cell

/-- What an index nothing has written reads as. The spec leaves it open and makes it unobservable (R43,
93_implementation_defined.md U3: "a model may choose all-zero"); DESIGN CHOICE, log entry 5. -/
def unlistedByte : Byte := 0x00

/-- `STATUS` (R29), field by field: the seven fields fill the 16 bits, none is reserved. DESIGN CHOICE of
representation, log entry 8. -/
structure Status where
  /-- `ERR`, bits 7:0 (R31). -/
  err   : BitVec 8
  /-- `FAULT`, bit 8, also the output `FAULT` (R30). -/
  fault : Bool
  /-- `CFGD`, bit 9 (R32). -/
  cfgd  : Bool
  /-- `RUN`, bit 10 (R33). -/
  run   : Bool
  /-- `INV`, bit 11 (R34). -/
  inv   : Bool
  /-- `EOF`, bit 12 (R35). -/
  eof   : Bool
  /-- `RESID`, bits 15:13 (R36). -/
  resid : BitVec 3
  deriving DecidableEq, Repr

/-- `STATUS <- 0x0000` (R43, R102). -/
def Status.zero : Status :=
  { err := 0, fault := false, cfgd := false, run := false, inv := false, eof := false, resid := 0 }

/-- Everything a step reads or writes. `cfg`, `cmd` and `resetIn` are the block's parameters and its two
inputs, which R44 counts outside the machine; no command reads or writes them (log entries 1, 2, 4). -/
structure State where
  /-- The parameters (R8, R44). Nothing writes them. -/
  cfg       : Config
  /-- The bytes the host has sent and the LCB has not yet decoded, oldest first (R80, R87). -/
  cmd       : List Byte
  /-- The reset input (R240): the host has asserted it. -/
  resetIn   : Bool
  /-- `RSP`, oldest word first (R38). DESIGN CHOICE, log entry 3. -/
  rsp       : List Word
  /-- Register 0 (R29). -/
  status    : Status
  /-- Register 1, the number of valid bytes in IBUF (R37). -/
  ilen      : Word
  /-- Register 2, the number of valid bytes in OBUF (R37). -/
  olen      : Word
  /-- Register 3 (R28). -/
  consumed  : Word
  /-- Register 4 (R21). -/
  crcPoly   : Word
  /-- Register 5 (R22). -/
  crcInit   : Word
  /-- Register 6 (R23). -/
  crcXorout : Word
  /-- `CRC_CTRL.LSBF`, the one implemented bit of register 7 (R24; log entry 8). -/
  lsbf      : Bool
  /-- Register 8 (R25). -/
  crcRem    : Word
  /-- Register 9 (R26). -/
  crcResult : Word
  /-- Register 10 (R27). -/
  lfsr      : Word
  /-- `IBUF` (R61). -/
  ibuf      : Memory
  /-- `OBUF` (R62). -/
  obuf      : Memory
  /-- `LUT` (R63): `LUT_N` = 256 words, each whole, the word of index `i` at place `i`. -/
  lut       : List Word
  deriving DecidableEq, Repr

/-- The state right after hardware reset of a block with parameters `c`, before the host has sent a byte
(R43, R240): every register zero but `LFSR`, no byte listed in either buffer, `LUT` all zero (log entry
5), nothing on `RSP`. -/
def State.resetWith (c : Config) : State where
  cfg       := c
  cmd       := []
  resetIn   := false
  rsp       := []
  status    := Status.zero
  ilen      := 0x0000
  olen      := 0x0000
  consumed  := 0x0000
  crcPoly   := 0x0000
  crcInit   := 0x0000
  crcXorout := 0x0000
  lsbf      := false
  crcRem    := 0x0000
  crcResult := 0x0000
  lfsr      := c.lfsrSeed
  ibuf      := []
  obuf      := []
  lut       := List.replicate c.lutN 0x0000

/-- The machine right after reset, with the parameter values R8 suggests (log entry 1). -/
def State.reset : State := State.resetWith Config.default

/-- Why the machine stops with a fault. -/
inductive Fault where
  /-- `fault(E_ILLOP)`, raised by the step that meets an illegal opcode byte, and by nothing else: "the fault
  is a distinct outcome of the step" (60_exceptions.md R214, 30_encoding.md R84). `s` is the faulted state,
  with `ERR` and `FAULT` written; hardware reset is its only exit. Safe: the stop is the spec's own. That the
  reason carries the state is a DESIGN CHOICE, log entry 6. -/
  | illegalOpcode (s : State)
  /-- Raised by a step, and by nothing else, when `STATUS.FAULT = 1` and the reset input is not asserted:
  "the faulted state has no further step" (60_exceptions.md R214, 40_system_buffer.md R100). Safe: the
  spec says the block executes nothing there. -/
  | stuckUntilReset
  deriving DecidableEq, Repr

/-- Why the model gives an instruction no meaning. -/
inductive Refusal where
  /-- Raised by `exec`'s arm of an instruction that has no meaning yet, with its mnemonic; no arm of this
  model raises it. Safe: nothing is claimed of such an instruction. -/
  | notModelled (mnemonic : String)
  deriving DecidableEq, Repr

end Sys2Proof.Machine
end

