-- ==== Sys2Proof/Machine/Flags.lean ====
section
/-! DEFINITION. The result codes of 60_exceptions.md R211, the word that `GET 0` reads (10_state.md R29),
and the writes commands make to the fields of `STATUS`. -/

namespace Sys2Proof.Machine

/-! ## The codes of `STATUS.ERR` (R211) -/

/-- Success. -/
def eOk : BitVec 8 := 0x00
/-- Input too short. -/
def eTrunc : BitVec 8 := 0x01
/-- The first four bytes are neither marker. -/
def eMarker : BitVec 8 := 0x02
/-- `SLIP_ESC` followed by a byte that is no escape. -/
def eEsc : BitVec 8 := 0x03
/-- The result, or the pushed byte, does not fit in `BUFSZ`. -/
def eOvf : BitVec 8 := 0x04
/-- The CRC unit used while `CFGD = 0`. -/
def eNocfg : BitVec 8 := 0x05
/-- `RUN = 0`: no computation started since the last configuration. -/
def eNostart : BitVec 8 := 0x06
/-- An operand value without meaning. -/
def eRange : BitVec 8 := 0x07
/-- An illegal opcode byte. -/
def eIllop : BitVec 8 := 0x80

/-- Every code R211 lists. "No other value is ever written to the field." -/
def errCodes : List (BitVec 8) :=
  [eOk, eTrunc, eMarker, eEsc, eOvf, eNocfg, eNostart, eRange, eIllop]

/-! ## STATUS as one word -/

/-- One bit as a word of one bit. -/
def bit (b : Bool) : BitVec 1 := BitVec.ofBool b

/-- The 16 bits of `STATUS` (R29): RESID 15:13, EOF 12, INV 11, RUN 10, CFGD 9, FAULT 8, ERR 7:0. -/
def Status.toWord (st : Status) : Word :=
  st.resid ++ (bit st.eof ++ (bit st.inv ++ (bit st.run ++ (bit st.cfgd ++ (bit st.fault ++ st.err)))))

/-! ## Writes to the fields -/

/-- `STATUS.ERR <- e` (R31). -/
def State.withErr (s : State) (e : BitVec 8) : State := { s with status := { s.status with err := e } }

/-- `STATUS.FAULT <- 1` (R30). -/
def State.withFault (s : State) : State := { s with status := { s.status with fault := true } }

/-- `STATUS.CFGD <- 1; STATUS.RUN <- 0`, what a successful configuration writes (R121). -/
def State.withConfigured (s : State) : State :=
  { s with status := { s.status with cfgd := true, run := false } }

/-- `STATUS.RUN <- 1` (R123). -/
def State.withRunning (s : State) : State := { s with status := { s.status with run := true } }

/-- `STATUS.INV <- inv` (R190). -/
def State.withInv (s : State) (inv : Bool) : State := { s with status := { s.status with inv := inv } }

/-- `STATUS.EOF <- eof; STATUS.RESID <- n` (R152). -/
def State.withEnd (s : State) (eof : Bool) (n : Nat) : State :=
  { s with status := { s.status with eof := eof, resid := BitVec.ofNat 3 n } }

end Sys2Proof.Machine
end

