-- ==== Sys2Proof/Machine/Operands.lean ====
section
/-! DEFINITION. The reserved operand values of 30_encoding.md R85, and the register file that `GET`'s
operand names (10_state.md R39). `OUT.RD`'s bound depends on `OLEN` and stands in its meaning. -/

namespace Sys2Proof.Machine

/-- `order >= 2` or `d >= 2`: a bit of 7:1 is set, which is reserved and must be 0 (R85). -/
def reservedSwitch (v : Byte) : Bool := decide (2 ≤ v.toNat)

/-- `order[0]`, `d[0]`: the one bit such an operand means (R121, R190). -/
def switchBit (v : Byte) : Bool := v.getLsbD 0

/-- `CRC_CTRL` as a word: bit 0 `LSBF`, bits 15:1 zero (R24). -/
def ctrlWord (lsbf : Bool) : Word := BitVec.setWidth 16 (bit lsbf)

/-- `REG[r]` (R103): the 16-bit value of register number `r` of R39; none from 11 on. -/
def State.register (s : State) (r : Byte) : Option Word :=
  match r.toNat with
  | 0 => some s.status.toWord
  | 1 => some s.ilen
  | 2 => some s.olen
  | 3 => some s.consumed
  | 4 => some s.crcPoly
  | 5 => some s.crcInit
  | 6 => some s.crcXorout
  | 7 => some (ctrlWord s.lsbf)
  | 8 => some s.crcRem
  | 9 => some s.crcResult
  | 10 => some s.lfsr
  | _ => none

end Sys2Proof.Machine
end

