-- ==== Sys2Proof/Machine/Ops.lean ====
section
/-! DEFINITION. The named operations over memory, registers, `RSP` and the host's inputs, and the three
ways a command ends (60_exceptions.md R210): `ok`, `fail`, and the fault of an illegal opcode, with
hardware reset, its only exit, beside it. -/

namespace Sys2Proof.Machine

/-! ## Memory: one byte at an index -/

/-- The byte at index `a`. -/
def Memory.read : Memory → Nat → Byte
  | [], _ => unlistedByte
  | (k, v) :: t, a => if k = a then v else Memory.read t a

/-- A cell in front of a memory whose indices are all above it, unless it says what an unlisted index
says anyway. -/
def Memory.cons (a : Nat) (b : Byte) (m : Memory) : Memory :=
  if b = unlistedByte then m else (a, b) :: m

/-- The memory with the byte at index `a` replaced by `b`, in canonical form. -/
def Memory.write : Memory → Nat → Byte → Memory
  | [], a, b => Memory.cons a b []
  | (k, v) :: t, a, b =>
    if a < k then Memory.cons a b ((k, v) :: t)
    else if a = k then Memory.cons a b t
    else (k, v) :: Memory.write t a b

/-- `M[a .. a + len(bs)) <- bs`. -/
def Memory.writeBytes (m : Memory) (a : Nat) : List Byte → Memory
  | [] => m
  | b :: t => Memory.writeBytes (Memory.write m a b) (a + 1) t

/-- `M[0 .. n)`. -/
def Memory.bytes (m : Memory) (n : Nat) : List Byte := (List.range n).map m.read

/-- Every listed index is above `a`, they rise strictly, and no byte is the unlisted one. -/
def Memory.wfAbove (a : Nat) : Memory → Bool
  | [] => true
  | (k, v) :: t => decide (a < k) && decide (v ≠ unlistedByte) && Memory.wfAbove k t

/-- The canonical form. -/
def Memory.wf : Memory → Bool
  | [] => true
  | (k, v) :: t => decide (v ≠ unlistedByte) && Memory.wfAbove k t

/-- Every listed index is an index of a buffer of `n` bytes (R60). -/
def Memory.within (n : Nat) (m : Memory) : Bool := m.all fun cell => decide (cell.1 < n)

/-! ## The buffers and the table -/

/-- `IBUF[0..ILEN)`, what every codec and CRC command reads (R61). -/
def State.input (s : State) : List Byte := s.ibuf.bytes s.ilen.toNat

/-- `OBUF[0..OLEN)`, the result of the last successful codec command (R62). -/
def State.output (s : State) : List Byte := s.obuf.bytes s.olen.toNat

/-- `OBUF[0 .. len(out)) <- out; OLEN <- len(out)` (R62). The bytes from `len(out)` on keep their value
(DEDUCED, log entry 10). -/
def State.withOutput (s : State) (out : List Byte) : State :=
  { s with obuf := s.obuf.writeBytes 0 out, olen := BitVec.ofNat 16 out.length }

/-- `IBUF[0 .. len(bs)) <- bs; ILEN <- len(bs)` (R107). The bytes from `len(bs)` on keep their value
(DEDUCED, log entry 10). -/
def State.withInput (s : State) (bs : List Byte) : State :=
  { s with ibuf := s.ibuf.writeBytes 0 bs, ilen := BitVec.ofNat 16 bs.length }

/-- `LUT[i]` (R63). -/
def State.lutAt (s : State) (i : Byte) : Word := s.lut.getD i.toNat 0

/-! ## How a command ends -/

/-- `emit(w)` (R12): `w` is appended to `RSP` (R38). -/
def State.emit (s : State) (w : Word) : State := { s with rsp := s.rsp ++ [w] }

/-- `ok()` (R12): `STATUS.ERR <- E_OK`. -/
def State.ok (s : State) : State := s.withErr eOk

/-- `fail(E_x)` (R212): `STATUS.ERR <- E_x` and nothing else at all. -/
def State.fail (s : State) (e : BitVec 8) : State := s.withErr e

/-- `fault(E_ILLOP)` (R214): `STATUS.ERR <- E_ILLOP`, `STATUS.FAULT <- 1` and nothing else. -/
def State.faultIllop (s : State) : State := (s.withErr eIllop).withFault

/-! ## Reset -/

/-- Every register of R39 at its reset value, `STATUS` zero, the memories' contents forgotten (R43); what
`SRESET` and hardware reset share (R241). `RSP`, the parameters and the inputs are not registers. -/
def State.withResetValues (s : State) : State :=
  { State.resetWith s.cfg with cmd := s.cmd, resetIn := s.resetIn, rsp := s.rsp }

/-- Hardware reset (R240), one whole pulse: the reset values, a partly received command is forgotten, and so
is every other byte that waits in `cmd` (DEDUCED, log entry 4); afterwards the reset input is released. `RSP` words already delivered stay delivered. -/
def State.hardReset (s : State) : State :=
  { s.withResetValues with cmd := [], resetIn := false }

/-! ## What the host does (R7) -/

/-- The host appends bytes to the command stream. -/
def State.send (s : State) (bytes : List Byte) : State := { s with cmd := s.cmd ++ bytes }

/-- The host asserts hardware reset. -/
def State.assertReset (s : State) : State := { s with resetIn := true }

/-- What the host sees of the output `FAULT` (R30). -/
def State.faultOutput (s : State) : Bool := s.status.fault

end Sys2Proof.Machine
end

