-- ==== Sys2Proof/Machine/Buffer.lean ====
section
/-! DEFINITION. The meanings of the buffer commands `IN.CLR`, `IN.PUSH`, `OUT.RD`, `XFER`
(40_system_buffer.md R104 to R107). -/

namespace Sys2Proof.Machine

/-- `IBUF[ILEN] <- b; ILEN <- ILEN + 1` (R105). -/
def State.pushInput (s : State) (b : Byte) : State :=
  { s with ibuf := s.ibuf.write s.ilen.toNat b, ilen := s.ilen + 1 }

/-- `IN.CLR` (R104): `ILEN <- 0`; the bytes of `IBUF` are not erased. -/
def execInClr (s : State) : Host.Outcome State Fault Refusal := .next { s with ilen := 0 }.ok

/-- `IN.PUSH b` (R105): `E_OVF` when the buffer is full. The test is the rule's own equality, also where
`ILEN` is above `BUFSZ`, which no run reaches (DESIGN CHOICE, log entry 9). -/
def execInPush (b : Byte) (s : State) : Host.Outcome State Fault Refusal :=
  if s.ilen.toNat = s.cfg.bufsz then .next (s.fail eOvf) else .next (s.pushInput b).ok

/-- `OUT.RD idx` (R106): one zero-extended byte of `OBUF` on `RSP`. -/
def execOutRd (idx : Word) (s : State) : Host.Outcome State Fault Refusal :=
  if s.olen.toNat ≤ idx.toNat then .next (s.fail eRange)
  else .next (s.emit (zext16 (s.obuf.read idx.toNat))).ok

/-- `XFER` (R107): the last result becomes the next input. -/
def execXfer (s : State) : Host.Outcome State Fault Refusal := .next (s.withInput s.output).ok

end Sys2Proof.Machine
end

