-- ==== Sys2Proof/Machine/Crc.lean ====
section
/-! DEFINITION. The CRC unit (41_crc.md): the table function, the byte step, and the meanings of
`CRC.CFG`, `CRC.PRESET`, `CRC.START`, `CRC.UPDATE`, `CRC.FINAL`, `CRC.CALC`, `CRC.LUTRD`. -/

namespace Sys2Proof.Machine

/-! ## The table and the byte step -/

/-- One of the eight steps of `lut_entry`, MSB-first (R120). -/
def lutShiftMsb (p r : Word) : Word := if r.getLsbD 15 then (r <<< 1) ^^^ p else r <<< 1

/-- One of the eight steps of `lut_entry`, LSB-first, with `q` the reversed polynomial (R120). -/
def lutShiftLsb (q r : Word) : Word := if r.getLsbD 0 then (r >>> 1) ^^^ q else r >>> 1

/-- `lut_entry(P, L, i)` (R120). -/
def lutEntry (p : Word) (lsbf : Bool) (i : Byte) : Word :=
  if lsbf then (lutShiftLsb (bitrev16 p))^[8] (zext16 i)
  else (lutShiftMsb p)^[8] (zext16 i <<< 8)

/-- `lut_build(P, L)` (R120): all `n` entries, `LUT_N` of them. -/
def lutBuild (n : Nat) (p : Word) (lsbf : Bool) : List Word :=
  (List.range n).map fun i => lutEntry p lsbf (BitVec.ofNat 8 i)

/-- `crc_step(rem, b)` (R129), one table read per byte. -/
def crcStep (lsbf : Bool) (lut : Byte → Word) (rem : Word) (b : Byte) : Word :=
  if lsbf then (rem >>> 8) ^^^ lut ((rem ^^^ zext16 b).setWidth 8)
  else (rem <<< 8) ^^^ lut ((rem >>> 8).setWidth 8 ^^^ b)

/-- The initial remainder in the orientation of the bit order (R123). -/
def orient (lsbf : Bool) (init : Word) : Word := if lsbf then bitrev16 init else init

/-! ## What the commands do to the state -/

/-- `configure(poly, init, xorout, order)` (R121): the four registers, all of `LUT`, `CFGD`, `RUN`. -/
def State.configure (s : State) (poly init xorout : Word) (lsbf : Bool) : State :=
  State.withConfigured
    { s with crcPoly := poly, crcInit := init, crcXorout := xorout, lsbf := lsbf,
             lut := lutBuild s.cfg.lutN poly lsbf }

/-- What a successful `CRC.START` writes before it ends (R123). -/
def State.crcBegin (s : State) : State :=
  State.withRunning { s with crcRem := orient s.lsbf s.crcInit }

/-- What a successful `CRC.UPDATE` writes before it ends (R124): the bytes of `IBUF[0..ILEN)` in
ascending order. -/
def State.crcFeed (s : State) : State :=
  { s with crcRem := s.input.foldl (crcStep s.lsbf s.lutAt) s.crcRem }

/-- What a successful `CRC.FINAL` writes before it ends (R125). -/
def State.crcFinish (s : State) : State := { s with crcResult := s.crcRem ^^^ s.crcXorout }

/-! ## The meanings -/

/-- `CRC.CFG poly, init, xorout, order` (R121). -/
def execCrcCfg (poly init xorout : Word) (order : Byte) (s : State) : Host.Outcome State Fault Refusal :=
  if reservedSwitch order then .next (s.fail eRange)
  else .next (s.configure poly init xorout (switchBit order)).ok

/-- `CRC.PRESET n` (R122): as `CRC.CFG` with row `n` of `PRESET_TABLE`. -/
def execCrcPreset (n : Byte) (s : State) : Host.Outcome State Fault Refusal :=
  match s.cfg.presets.row n with
  | none => .next (s.fail eRange)
  | some p => .next (s.configure p.poly p.init p.xorout p.lsbf).ok

/-- `CRC.START` (R123). -/
def execCrcStart (s : State) : Host.Outcome State Fault Refusal :=
  if s.status.cfgd = false then .next (s.fail eNocfg) else .next s.crcBegin.ok

/-- `CRC.UPDATE` (R124): `E_NOCFG`, then `E_NOSTART`. -/
def execCrcUpdate (s : State) : Host.Outcome State Fault Refusal :=
  if s.status.cfgd = false then .next (s.fail eNocfg)
  else if s.status.run = false then .next (s.fail eNostart)
  else .next s.crcFeed.ok

/-- `CRC.FINAL` (R125): `E_NOCFG`, then `E_NOSTART`. -/
def execCrcFinal (s : State) : Host.Outcome State Fault Refusal :=
  if s.status.cfgd = false then .next (s.fail eNocfg)
  else if s.status.run = false then .next (s.fail eNostart)
  else .next s.crcFinish.ok

/-- `CRC.CALC` (R126): start, update, final in one step; `E_NOCFG` only. -/
def execCrcCalc (s : State) : Host.Outcome State Fault Refusal :=
  if s.status.cfgd = false then .next (s.fail eNocfg)
  else .next s.crcBegin.crcFeed.crcFinish.ok

/-- `CRC.LUTRD i` (R127): one table entry on `RSP`. -/
def execCrcLutrd (i : Byte) (s : State) : Host.Outcome State Fault Refusal :=
  if s.status.cfgd = false then .next (s.fail eNocfg) else .next (s.emit (s.lutAt i)).ok

end Sys2Proof.Machine
end

