-- ==== Sys2Proof/Machine/Hdlc.lean ====
section
/-! DEFINITION. The HDLC unit (42_hdlc.md): the stuffer and the destuffer as functions on bit sequences in
the order of R150, and the meanings of `HDLC.STUFF` and `HDLC.UNSTUFF`. -/

namespace Sys2Proof.Machine

/-! ## The stuffer (R151) -/

/-- The frame's bits with a zero after every run of `ones` consecutive ones (`HDLC_RUN`); the second argument
is the count of ones so far. -/
def stuffBits (ones : Nat) : Nat → List Bool → List Bool
  | _, [] => []
  | run, true :: t =>
    if run + 1 = ones then true :: false :: stuffBits ones 0 t else true :: stuffBits ones (run + 1) t
  | _, false :: t => false :: stuffBits ones 0 t

/-- `fc` copies of the flag's bits, not stuffed. -/
def flagBits (fc : Nat) (fb : Byte) : List Bool := (List.replicate fc (lsbits fb)).flatten

/-- The bit sequence up to the next byte boundary (`HDLC_PAD`). -/
def padBits (pad : Bool) (bits : List Bool) : List Bool :=
  bits ++ List.replicate (8 * ceil8 bits.length - bits.length) pad

/-- `stuff(data, flag_count, flag_byte)` (R151). -/
def hdlcStuff (c : Config) (fc : Nat) (fb : Byte) (data : List Byte) : List Byte :=
  packlsb (padBits c.hdlcPad (flagBits fc fb ++ stuffBits c.hdlcRun 0 (bitsOf data) ++ flagBits fc fb))

/-! ## The destuffer (R152) -/

/-- What the destuffer's loop leaves: the decoded bytes, `eof`, `n`, and how many bits it looked at. -/
structure Unstuffed where
  out   : List Byte
  eof   : Bool
  resid : Nat
  used  : Nat
  deriving DecidableEq, Repr

/-- One more input bit looked at. -/
def lookedAt (r : Unstuffed) : Unstuffed := { r with used := r.used + 1 }

/-- One more input bit looked at, which completed the byte `b`. -/
def decodedByte (b : Byte) (r : Unstuffed) : Unstuffed := { lookedAt r with out := b :: r.out }

/-- The loop of R152 over the bits not yet looked at: `run` consecutive ones (saturating at one more than
`ones`, `HDLC_RUN`), `n` bits collected in `acc`. A zero after exactly `ones` ones is dropped; a decoded byte
equal to the flag stops. -/
def unstuffBits (ones : Nat) (fb : Byte) : List Bool → Nat → Nat → Byte → Unstuffed
  | [], _, n, _ => { out := [], eof := false, resid := n, used := 0 }
  | b :: t, run, n, acc =>
    if b = false ∧ run = ones then lookedAt (unstuffBits ones fb t 0 n acc)
    else
      let run' := if b then min (run + 1) (ones + 1) else 0
      let acc' := setBit acc n b
      if n + 1 = 8 then
        if acc' = fb then { out := [], eof := true, resid := 0, used := 1 }
        else decodedByte acc' (unstuffBits ones fb t run' 0 0)
      else lookedAt (unstuffBits ones fb t run' (n + 1) acc')

/-- `unstuff(data, flag_byte)` (R152), with `used` counted from bit 0 of byte 0: the leading flag bytes
are dropped whole, the rest is one bit sequence. -/
def hdlcUnstuff (c : Config) (fb : Byte) (data : List Byte) : Unstuffed :=
  let p := (data.takeWhile (· == fb)).length
  let r := unstuffBits c.hdlcRun fb (bitsOf (data.drop p)) 0 0 0
  { r with used := 8 * p + r.used }

/-! ## The meanings -/

/-- `HDLC.STUFF fc, fb` (R151): `E_OVF` when the result does not fit. -/
def execHdlcStuff (fc fb : Byte) (s : State) : Host.Outcome State Fault Refusal :=
  let out := hdlcStuff s.cfg fc.toNat fb s.input
  if s.cfg.bufsz < out.length then .next (s.fail eOvf) else .next (s.withOutput out).ok

/-- `HDLC.UNSTUFF fb` (R152): never fails; `EOF`, `RESID`, `CONSUMED` report how it stopped. -/
def execHdlcUnstuff (fb : Byte) (s : State) : Host.Outcome State Fault Refusal :=
  let r := hdlcUnstuff s.cfg fb s.input
  .next ({ (s.withOutput r.out) with consumed := BitVec.ofNat 16 (ceil8 r.used) }.withEnd r.eof r.resid).ok

end Sys2Proof.Machine
end

