-- ==== Sys2Proof/Machine/Lfsr.lean ====
section
/-! DEFINITION. The LFSR descrambler and the frame-sync marker detector (44_fsm_lfsr.md), and the meanings
of `FSM.UNPACK` and `LFSR.DESCR`. -/

namespace Sys2Proof.Machine

/-! ## The key stream -/

/-- `lfsr_step(S)` (R187): the bit shifted out and the next state. -/
def lfsrStep (poly : Word) (s : Word) : Bool × Word :=
  (s.getLsbD 0, if s.getLsbD 0 then (s >>> 1) ^^^ poly else s >>> 1)

/-- One turn of the loop of R188: the next output bit becomes bit `j` of the key byte. -/
def lfsrBit (poly : Word) (kS : Byte × Word) (j : Nat) : Byte × Word :=
  (setBit kS.1 j (lfsrStep poly kS.2).1, (lfsrStep poly kS.2).2)

/-- `lfsr_byte(S)` (R188): the key byte, its bit 7 first, and the next state. -/
def lfsrByte (poly : Word) (s : Word) : Byte × Word :=
  [7, 6, 5, 4, 3, 2, 1, 0].foldl (lfsrBit poly) (0, s)

/-- `n` key bytes from the state `s`, and the final state. -/
def lfsrStream (poly : Word) : Nat → Word → List Byte × Word
  | 0, s => ([], s)
  | n + 1, s =>
    let ks := lfsrByte poly s
    let rest := lfsrStream poly n ks.2
    (ks.1 :: rest.1, rest.2)

/-- The key bytes for `n` data bytes, from the seed (R188, R192). -/
def keyStream (c : Config) (n : Nat) : List Byte := (lfsrStream c.lfsrPoly n c.lfsrSeed).1

/-- The register after `n` key bytes from the seed (R188, R192). -/
def keyState (c : Config) (n : Nat) : Word := (lfsrStream c.lfsrPoly n c.lfsrSeed).2

/-- The key stream XORed onto data, the first key byte onto the first data byte (R189, R191). -/
def descramble (c : Config) (data : List Byte) : List Byte :=
  List.zipWith (· ^^^ ·) data (keyStream c data.length)

/-! ## The marker -/

/-- Which marker the first `ASM_LEN` bytes are (R185, R190): 0 for `ASM_A`, 1 for `ASM_B`, none for neither. -/
def markerOf (c : Config) (data : List Byte) : Option Bool :=
  if data.take c.asmLen = asmBytes c.asmA then some false
  else if data.take c.asmLen = asmBytes c.asmB then some true
  else none

/-- Every payload byte complemented if the inverted marker was seen (R186). -/
def uninvert (inv : Bool) (payload : List Byte) : List Byte :=
  payload.map fun b => b ^^^ (if inv then 0xFF else 0x00)

/-! ## The meanings -/

/-- `FSM.UNPACK d` (R190), the receive steps in the order of R189. -/
def execFsmUnpack (d : Byte) (s : State) : Host.Outcome State Fault Refusal :=
  if reservedSwitch d then .next (s.fail eRange)
  else if s.ilen.toNat < s.cfg.asmLen then .next (s.fail eTrunc)
  else
    match markerOf s.cfg s.input with
    | none => .next (s.fail eMarker)
    | some inv =>
      let t := uninvert inv (s.input.drop s.cfg.asmLen)
      let out := if switchBit d then descramble s.cfg t else t
      let lfsr := if switchBit d then keyState s.cfg t.length else s.lfsr
      .next ({ (s.withOutput out) with lfsr := lfsr, consumed := s.ilen }.withInv inv).ok

/-- `LFSR.DESCR` (R191). -/
def execLfsrDescr (s : State) : Host.Outcome State Fault Refusal :=
  .next { (s.withOutput (descramble s.cfg s.input)) with lfsr := keyState s.cfg s.input.length }.ok

end Sys2Proof.Machine
end

