-- ==== Sys2Proof/Machine/Slip.lean ====
section
/-! DEFINITION. The SLIP unit (43_slip.md): encoder and decoder as functions on byte sequences, and the
meanings of `SLIP.ENC` and `SLIP.DEC`. -/

namespace Sys2Proof.Machine

/-- What one data byte becomes inside a frame (R171). -/
def slipEscape (c : Config) (b : Byte) : List Byte :=
  if b = c.slipEnd then [c.slipEsc, c.slipEscEnd]
  else if b = c.slipEsc then [c.slipEsc, c.slipEscEsc]
  else [b]

/-- SLIP pack (R171): an opening END, the escaped data, a closing END. -/
def slipEncode (c : Config) (data : List Byte) : List Byte :=
  c.slipEnd :: data.flatMap (slipEscape c) ++ [c.slipEnd]

/-- What the decoder's loop gives: the frame and the number of bytes it took, or the code it fails with. -/
inductive SlipResult where
  | frame (out : List Byte) (used : Nat)
  | failed (e : BitVec 8)
  deriving DecidableEq, Repr

/-- `k` more input bytes taken, which decoded to `b`. -/
def SlipResult.prepend (b : Byte) (k : Nat) : SlipResult → SlipResult
  | .frame out used => .frame (b :: out) (used + k)
  | .failed e => .failed e

/-- The loop of R172 on the bytes not yet taken. -/
def slipFrame (c : Config) : List Byte → SlipResult
  | [] => .failed eTrunc
  | b :: t =>
    if b = c.slipEnd then .frame [] 1
    else if b = c.slipEsc then
      match t with
      | [] => .failed eTrunc
      | e :: t' =>
        if e = c.slipEscEnd then (slipFrame c t').prepend c.slipEnd 2
        else if e = c.slipEscEsc then (slipFrame c t').prepend c.slipEsc 2
        else .failed eEsc
    else (slipFrame c t).prepend b 1

/-- SLIP unpack (R172): leading ENDs are skipped, nothing but ENDs is `E_TRUNC`, the frame ends at the
first END after it, and `used` is counted from index 0. -/
def slipDecode (c : Config) (data : List Byte) : SlipResult :=
  let p := (data.takeWhile (· == c.slipEnd)).length
  match slipFrame c (data.drop p) with
  | .frame out used => .frame out (p + used)
  | .failed e => .failed e

/-- `SLIP.ENC` (R171): `E_OVF` when the result does not fit. -/
def execSlipEnc (s : State) : Host.Outcome State Fault Refusal :=
  let out := slipEncode s.cfg s.input
  if s.cfg.bufsz < out.length then .next (s.fail eOvf) else .next (s.withOutput out).ok

/-- `SLIP.DEC` (R172). -/
def execSlipDec (s : State) : Host.Outcome State Fault Refusal :=
  match slipDecode s.cfg s.input with
  | .failed e => .next (s.fail e)
  | .frame out used => .next { (s.withOutput out) with consumed := BitVec.ofNat 16 used }.ok

end Sys2Proof.Machine
end

