-- ==== Sys2Proof/Machine/System.lean ====
section
/-! DEFINITION. The meanings of the system commands `NOP`, `SRESET`, `GET` (40_system_buffer.md R101 to
R103), as R100 (3) to (5) frames them: the step has already checked `FAULT` and decoded. -/

namespace Sys2Proof.Machine

/-- `NOP` (R101): nothing; `STATUS.ERR` unchanged. -/
def execNop (s : State) : Host.Outcome State Fault Refusal := .next s

/-- `SRESET` (R102, R241): the state of hardware reset, but that the decoder stays in step. -/
def execSreset (s : State) : Host.Outcome State Fault Refusal := .next s.withResetValues

/-- `GET r` (R103): one word on `RSP`, and `STATUS.ERR` is not written on success. -/
def execGet (r : Byte) (s : State) : Host.Outcome State Fault Refusal :=
  match s.register r with
  | some w => .next (s.emit w)
  | none => .next (s.fail eRange)

end Sys2Proof.Machine
end

