-- ==== Sys2Proof/Syntax.lean ====
section
/-! DEFINITION. The twenty commands of 30_encoding.md R83, one constructor each, with the operands of
R82 as bit vectors of the widths their encoding gives them, and the assembler's pseudo-commands of R89. -/

namespace Sys2Proof

/-- The commands of R83. -/
inductive Instr where
  /-- `NOP` (R101). -/
  | nop
  /-- `SRESET` (R102). -/
  | sreset
  /-- `GET r` (R103): `r` is a register number. -/
  | get (r : Byte)
  /-- `IN.CLR` (R104). -/
  | inClr
  /-- `IN.PUSH b` (R105): `b` is the data byte. -/
  | inPush (b : Byte)
  /-- `OUT.RD idx` (R106): `idx` is a 16-bit index. -/
  | outRd (idx : Word)
  /-- `XFER` (R107). -/
  | xfer
  /-- `CRC.CFG poly, init, xorout, order` (R121). -/
  | crcCfg (poly init xorout : Word) (order : Byte)
  /-- `CRC.PRESET n` (R122): `n` is a preset number. -/
  | crcPreset (n : Byte)
  /-- `CRC.START` (R123). -/
  | crcStart
  /-- `CRC.UPDATE` (R124). -/
  | crcUpdate
  /-- `CRC.FINAL` (R125). -/
  | crcFinal
  /-- `CRC.CALC` (R126). -/
  | crcCalc
  /-- `CRC.LUTRD i` (R127): `i` is a table index. -/
  | crcLutrd (i : Byte)
  /-- `HDLC.STUFF fc, fb` (R151): flag count, flag byte. -/
  | hdlcStuff (fc fb : Byte)
  /-- `HDLC.UNSTUFF fb` (R152): flag byte. -/
  | hdlcUnstuff (fb : Byte)
  /-- `SLIP.ENC` (R171). -/
  | slipEnc
  /-- `SLIP.DEC` (R172). -/
  | slipDec
  /-- `FSM.UNPACK d` (R190): bit 0 of `d` asks for descrambling. -/
  | fsmUnpack (d : Byte)
  /-- `LFSR.DESCR` (R191). -/
  | lfsrDescr
  deriving DecidableEq, Repr

/-- The mnemonic of R83, as the assembler of R88 writes it. -/
def Instr.mnemonic : Instr → String
  | .nop            => "NOP"
  | .sreset         => "SRESET"
  | .get _          => "GET"
  | .inClr          => "IN.CLR"
  | .inPush _       => "IN.PUSH"
  | .outRd _        => "OUT.RD"
  | .xfer           => "XFER"
  | .crcCfg _ _ _ _ => "CRC.CFG"
  | .crcPreset _    => "CRC.PRESET"
  | .crcStart       => "CRC.START"
  | .crcUpdate      => "CRC.UPDATE"
  | .crcFinal       => "CRC.FINAL"
  | .crcCalc        => "CRC.CALC"
  | .crcLutrd _     => "CRC.LUTRD"
  | .hdlcStuff _ _  => "HDLC.STUFF"
  | .hdlcUnstuff _  => "HDLC.UNSTUFF"
  | .slipEnc        => "SLIP.ENC"
  | .slipDec        => "SLIP.DEC"
  | .fsmUnpack _    => "FSM.UNPACK"
  | .lfsrDescr      => "LFSR.DESCR"

/-- The preset names the assembler knows (R89, R128). -/
inductive PresetName where
  | ccittFalse | xmodem | hdlc | kermit | maxim | usb
  deriving DecidableEq, Repr

/-- What an assembler line holds (R88, R89): a command, or a pseudo-command that the LCB never sees. -/
inductive AsmLine where
  | command (i : Instr)
  /-- `IN.LOAD b0, ..., bk`. -/
  | inLoad (bytes : List Byte)
  /-- `CRC.PRESET name`. -/
  | crcPresetNamed (name : PresetName)
  /-- `FSM.DETECT`. -/
  | fsmDetect
  deriving DecidableEq, Repr

end Sys2Proof
end

