-- ==== Sys2Proof/Machine/Dispatch.lean ====
section
/-! DEFINITION. One arm per command of 30_encoding.md R83, each a direct call of its meaning. -/

namespace Sys2Proof.Machine

def exec (i : Instr) (s : State) : Host.Outcome State Fault Refusal :=
  match i with
  -- 40_system_buffer.md
  | .nop => Sys2Proof.Machine.execNop s
  | .sreset => Sys2Proof.Machine.execSreset s
  | .get r => Sys2Proof.Machine.execGet r s
  | .inClr => Sys2Proof.Machine.execInClr s
  | .inPush b => Sys2Proof.Machine.execInPush b s
  | .outRd idx => Sys2Proof.Machine.execOutRd idx s
  | .xfer => Sys2Proof.Machine.execXfer s
  -- 41_crc.md
  | .crcCfg poly init xorout order => Sys2Proof.Machine.execCrcCfg poly init xorout order s
  | .crcPreset n => Sys2Proof.Machine.execCrcPreset n s
  | .crcStart => Sys2Proof.Machine.execCrcStart s
  | .crcUpdate => Sys2Proof.Machine.execCrcUpdate s
  | .crcFinal => Sys2Proof.Machine.execCrcFinal s
  | .crcCalc => Sys2Proof.Machine.execCrcCalc s
  | .crcLutrd idx => Sys2Proof.Machine.execCrcLutrd idx s
  -- 42_hdlc.md
  | .hdlcStuff fc fb => Sys2Proof.Machine.execHdlcStuff fc fb s
  | .hdlcUnstuff fb => Sys2Proof.Machine.execHdlcUnstuff fb s
  -- 43_slip.md
  | .slipEnc => Sys2Proof.Machine.execSlipEnc s
  | .slipDec => Sys2Proof.Machine.execSlipDec s
  -- 44_fsm_lfsr.md
  | .fsmUnpack d => Sys2Proof.Machine.execFsmUnpack d s
  | .lfsrDescr => Sys2Proof.Machine.execLfsrDescr s

end Sys2Proof.Machine
end

