-- ==== Sys2Proof/Decode.lean ====
section
/-! DEFINITION. The decoder of the command stream (30_encoding.md R80 to R87), the encoder written from
the same tables, the assembler's expansion of its pseudo-commands (R89), and the host's view of one
instruction as a number. -/

namespace Sys2Proof

/-! ## Byte order of 16-bit operands (R64, R82) -/

/-- `le16(lo, hi)` (R11): the low byte comes first. -/
def le16 (lo hi : Byte) : Word := hi ++ lo

/-- Bits 7:0 of a word: the byte sent first (R82). -/
def loByte (w : Word) : Byte := w.extractLsb' 0 8

/-- Bits 15:8 of a word: the byte sent second (R82). -/
def hiByte (w : Word) : Byte := w.extractLsb' 8 8

/-! ## The decoder -/

/-- What the decoder says of a byte sequence (R87): a command and what follows it, the illegal-opcode
verdict (R84) on byte 0 and what follows it, or that more bytes are needed. -/
inductive Decoded where
  | command (i : Instr) (rest : List Byte)
  | illegal (op : Byte) (rest : List Byte)
  | needMore
  deriving DecidableEq, Repr

/-- Format F0 (R81): the opcode byte alone. -/
def formatF0 (i : Instr) (t : List Byte) : Decoded := .command i t

/-- Format F1 (R81): one 8-bit operand. -/
def formatF1 (f : Byte → Instr) : List Byte → Decoded
  | a :: t => .command (f a) t
  | [] => .needMore

/-- Format F2 (R81): two operand bytes. -/
def formatF2 (f : Byte → Byte → Instr) : List Byte → Decoded
  | a :: b :: t => .command (f a b) t
  | _ => .needMore

/-- Format F7 (R81): three 16-bit operands, low byte first, and one byte. -/
def formatF7 (f : Word → Word → Word → Byte → Instr) : List Byte → Decoded
  | p0 :: p1 :: i0 :: i1 :: x0 :: x1 :: o :: t =>
    .command (f (le16 p0 p1) (le16 i0 i1) (le16 x0 x1) o) t
  | _ => .needMore

/-- The decoder: the opcode map of R83 on byte 0, then the format of R81. Every other byte 0 is illegal
(R84), whatever follows. -/
def decode : List Byte → Decoded
  | [] => .needMore
  | op :: t =>
    match op.toNat with
    | 0x00 => formatF0 .nop t
    | 0x01 => formatF0 .sreset t
    | 0x02 => formatF1 .get t
    | 0x08 => formatF0 .inClr t
    | 0x09 => formatF1 .inPush t
    | 0x0A => formatF2 (fun a b => .outRd (le16 a b)) t
    | 0x0B => formatF0 .xfer t
    | 0x10 => formatF7 .crcCfg t
    | 0x11 => formatF1 .crcPreset t
    | 0x12 => formatF0 .crcStart t
    | 0x13 => formatF0 .crcUpdate t
    | 0x14 => formatF0 .crcFinal t
    | 0x15 => formatF0 .crcCalc t
    | 0x16 => formatF1 .crcLutrd t
    | 0x20 => formatF2 .hdlcStuff t
    | 0x21 => formatF1 .hdlcUnstuff t
    | 0x30 => formatF0 .slipEnc t
    | 0x31 => formatF0 .slipDec t
    | 0x40 => formatF1 .fsmUnpack t
    | 0x41 => formatF0 .lfsrDescr t
    | _ => .illegal op t

/-- The length of a command in bytes, told from byte 0 alone (R86); none for an illegal byte 0 (R84). -/
def commandLength (op : Byte) : Option Nat :=
  match op.toNat with
  | 0x00 | 0x01 | 0x08 | 0x0B | 0x12 | 0x13 | 0x14 | 0x15 | 0x30 | 0x31 | 0x41 => some 1
  | 0x02 | 0x09 | 0x11 | 0x16 | 0x21 | 0x40 => some 2
  | 0x0A | 0x20 => some 3
  | 0x10 => some 8
  | _ => none

/-! ## The encoder -/

/-- The bytes of a command in stream order (R81 to R83). -/
def encode : Instr → List Byte
  | .nop            => [0x00]
  | .sreset         => [0x01]
  | .get r          => [0x02, r]
  | .inClr          => [0x08]
  | .inPush b       => [0x09, b]
  | .outRd idx      => [0x0A, loByte idx, hiByte idx]
  | .xfer           => [0x0B]
  | .crcCfg p n x o => [0x10, loByte p, hiByte p, loByte n, hiByte n, loByte x, hiByte x, o]
  | .crcPreset n    => [0x11, n]
  | .crcStart       => [0x12]
  | .crcUpdate      => [0x13]
  | .crcFinal       => [0x14]
  | .crcCalc        => [0x15]
  | .crcLutrd i     => [0x16, i]
  | .hdlcStuff c f  => [0x20, c, f]
  | .hdlcUnstuff f  => [0x21, f]
  | .slipEnc        => [0x30]
  | .slipDec        => [0x31]
  | .fsmUnpack d    => [0x40, d]
  | .lfsrDescr      => [0x41]

/-! ## The assembler's pseudo-commands (R89) -/

/-- The number of a named preset (R89, R128). -/
def presetNumber : PresetName → Byte
  | .ccittFalse => 0
  | .xmodem => 1
  | .hdlc => 2
  | .kermit => 3
  | .maxim => 4
  | .usb => 5

/-- R89: the commands an assembler line expands to. -/
def expandLine : AsmLine → List Instr
  | .command i => [i]
  | .inLoad bytes => .inClr :: bytes.map .inPush
  | .crcPresetNamed name => [.crcPreset (presetNumber name)]
  | .fsmDetect => [.fsmUnpack 0]

/-- The command stream of a listing (R80, R88): the bytes of its commands, one after the other. -/
def assemble (lines : List AsmLine) : List Byte := (lines.flatMap expandLine).flatMap encode

/-! ## One instruction as a number -/

/-- The first eight bytes (the longest command) of an instruction whose bits are `w`: byte `k` is bits
`8k+7 .. 8k`; every bit from `nbits` on is 0. -/
def tableBytes (nbits w : Nat) : List Byte :=
  (List.range 8).map fun k => BitVec.ofNat 8 (w % 2 ^ nbits / 2 ^ (8 * k))

/-- The bytes of that one instruction and no more: as many as its byte 0 says (R86), one if byte 0 is
illegal. -/
def tableCommand (nbits w : Nat) : List Byte :=
  match tableBytes nbits w with
  | [] => []
  | op :: t => (op :: t).take ((commandLength op).getD 1)

/-- The instruction the decoder reads from an instruction whose bits are `w`; none where byte 0 is
illegal. -/
def decodeTableWord (nbits w : Nat) : Option Instr :=
  match decode (tableCommand nbits w) with
  | .command i _ => some i
  | .illegal _ _ => none
  | .needMore => none

end Sys2Proof
end

