-- ==== Sys2Proof/Machine/Fetch.lean ====
section
/-! DEFINITION. What happens before a command executes: reset, the fault state, decoding the command
stream (40_system_buffer.md R100 (1) and (2), 30_encoding.md R80 to R87, 70_reset_and_hazards.md R240). -/

namespace Sys2Proof.Machine

/-- What a step finds to do. -/
inductive Action where
  /-- A command, with the state in which its bytes have been taken from the stream. -/
  | run (i : Instr) (s : State)
  /-- No command executes, and this is the next state. -/
  | settled (s : State)
  /-- No command executes, and the block faults into this state (R214). -/
  | faulted (s : State)
  /-- The faulted block takes no step. -/
  | stuck
  deriving DecidableEq, Repr

/-- The reset input first (R240); then the fault state (R100 (1), R214); then the decoder: a whole
command is taken from the stream and runs, an illegal byte 0 is taken and faults (R84, R214), an
incomplete command waits and nothing changes (R87). -/
def State.nextAction (s : State) : Action :=
  if s.resetIn then .settled s.hardReset
  else if s.status.fault then .stuck
  else
    match decode s.cmd with
    | .command i rest => .run i { s with cmd := rest }
    | .illegal _ rest => .faulted { s with cmd := rest }.faultIllop
    | .needMore => .settled s

end Sys2Proof.Machine
end

