-- ==== Sys2Proof/Machine/Step.lean ====
section
/-! DEFINITION. One step of the LCB (00_scope.md R6), and the host's placing of one instruction where the
next step fetches it. -/

namespace Sys2Proof.Machine

/-- One step: what `State.nextAction` finds to do. -/
def step (s : State) : Host.Outcome State Fault Refusal :=
  match s.nextAction with
  | .run i s' => exec i s'
  | .settled s' => .next s'
  | .faulted s' => .fault (.illegalOpcode s')
  | .stuck => .fault .stuckUntilReset

/-- The instruction whose bits are `w` placed at the front of the command stream, where the next step
decodes (R80): its own bytes and no more. It stands for the host sending that command (log entry 7). -/
def State.withFetchWord (s : State) (nbits w : Nat) : State :=
  { s with cmd := tableCommand nbits w ++ s.cmd }

end Sys2Proof.Machine
end

