-- ==== Sys2Proof/Machine/Reference.lean ====
section
/-! DEFINITION. The spec's own pseudocode, statement by statement, for claims to compare the units with:
the loops of 42_hdlc.md R151 and R152 and of 43_slip.md R171 and R172 over indices and positions, the
bit-serial CRC of 41_crc.md R130, and the key stream of 44_fsm_lfsr.md R187 and R188 bit by bit. No
meaning uses anything of this file. -/

namespace Sys2Proof.Machine.Reference

/-! ## CRC (R130) -/

/-- One turn of R130's inner loop, for bit `j` of the byte. -/
def serialBit (poly : Word) (b : Byte) (r : Word) (j : Nat) : Word :=
  if r.getLsbD 15 ^^ b.getLsbD j then (r <<< 1) ^^^ poly else r <<< 1

/-- One turn of R130's outer loop. -/
def serialByte (poly : Word) (lsbf : Bool) (r : Word) (b : Byte) : Word :=
  [7, 6, 5, 4, 3, 2, 1, 0].foldl (serialBit poly (if lsbf then bitrev8 b else b)) r

/-- `crc_serial(m)` (R130). -/
def crcSerial (poly init xorout : Word) (lsbf : Bool) (m : List Byte) : Word :=
  let r := m.foldl (serialByte poly lsbf) init
  (if lsbf then bitrev16 r else r) ^^^ xorout

/-! ## HDLC stuffer (R151) -/

/-- The two variables of R151's loop: the bit sequence so far and the ones in a row. -/
structure StuffLoop where
  bits : List Bool
  run  : Nat

/-- The body of R151's inner loop for the frame bit `b`. -/
def stuffStep (v : StuffLoop) (b : Bool) : StuffLoop :=
  let bits := v.bits ++ [b]
  if b then
    if v.run + 1 = 5 then { bits := bits ++ [false], run := 0 } else { bits := bits, run := v.run + 1 }
  else { bits := bits, run := 0 }

/-- R151's `while len(bits) mod 8 /= 0: bits <- bits ++ [HDLC_PAD]`, with at most `fuel` turns. -/
def padLoop (pad : Bool) : Nat → List Bool → List Bool
  | 0, bits => bits
  | fuel + 1, bits => if bits.length % 8 = 0 then bits else padLoop pad fuel (bits ++ [pad])

/-- Bit `8m + j` of a bit sequence, for bit `j` of byte `m` (R11 `packlsb`). -/
def byteAt (bits : List Bool) (m : Nat) : Byte :=
  ofBitsLE 8 ((List.range 8).map fun j => bits.getD (8 * m + j) false)

/-- R151 up to `out`. Seven turns always reach a byte boundary. -/
def hdlcStuff (pad : Bool) (fc : Nat) (fb : Byte) (data : List Byte) : List Byte :=
  let lead := (List.range fc).foldl (fun bits _ => bits ++ lsbits fb) []
  let frame := data.foldl
    (fun v b => (List.range 8).foldl (fun v j => stuffStep v (b.getLsbD j)) v)
    { bits := lead, run := 0 }
  let flagged := (List.range fc).foldl (fun bits _ => bits ++ lsbits fb) frame.bits
  let bits := padLoop pad 7 flagged
  (List.range (bits.length / 8)).map (byteAt bits)

/-! ## HDLC destuffer (R152) -/

/-- The variables of R152's loop. -/
structure UnstuffLoop where
  pos : Nat
  run : Nat
  acc : Byte
  n   : Nat
  out : List Byte
  eof : Bool

/-- The body of R152's loop. -/
def unstuffStep (fb : Byte) (data : List Byte) (v : UnstuffLoop) : UnstuffLoop :=
  let b := (data.getD (v.pos / 8) 0).getLsbD (v.pos % 8)
  let v := { v with pos := v.pos + 1 }
  if b = false ∧ v.run = 5 then { v with run := 0 }
  else
    let v := { v with run := if b then min (v.run + 1) 6 else 0 }
    let v := { v with acc := setBit v.acc v.n b, n := v.n + 1 }
    if v.n = 8 then
      if v.acc = fb then { v with eof := true, n := 0 }
      else { v with out := v.out ++ [v.acc], acc := 0, n := 0 }
    else v

/-- R152's `while pos < 8 * ILEN and eof = 0`, with at most `fuel` turns. -/
def unstuffLoop (fb : Byte) (data : List Byte) : Nat → UnstuffLoop → UnstuffLoop
  | 0, v => v
  | fuel + 1, v =>
    if v.pos < 8 * data.length ∧ v.eof = false then
      unstuffLoop fb data fuel (unstuffStep fb data v)
    else v

/-- R152's `while p < ILEN and IBUF[p] = fb: p <- p + 1`, and R172's with `SLIP_END`. -/
def skipLoop (x : Byte) (data : List Byte) : Nat → Nat → Nat
  | 0, p => p
  | fuel + 1, p =>
    if p < data.length ∧ data.getD p 0 = x then skipLoop x data fuel (p + 1) else p

/-- R152 up to the writes: every turn takes one bit, so `8 * ILEN` turns are enough. -/
def hdlcUnstuff (fb : Byte) (data : List Byte) : UnstuffLoop :=
  let p := skipLoop fb data data.length 0
  unstuffLoop fb data (8 * data.length)
    { pos := 8 * p, run := 0, acc := 0, n := 0, out := [], eof := false }

/-! ## SLIP (R171, R172) -/

/-- R171 up to `out`. -/
def slipEncode (c : Config) (data : List Byte) : List Byte :=
  data.foldl
    (fun out b =>
      if b = c.slipEnd then out ++ [c.slipEsc, c.slipEscEnd]
      else if b = c.slipEsc then out ++ [c.slipEsc, c.slipEscEsc]
      else out ++ [b])
    [c.slipEnd] ++ [c.slipEnd]

/-- How R172 ends: the code it fails with, or `out` and `p`. -/
inductive SlipEnd where
  | failed (e : BitVec 8)
  | frame (out : List Byte) (p : Nat)
  deriving DecidableEq

/-- R172's `loop`, with at most `fuel` turns (every turn takes at least one byte or ends). -/
def slipLoop (c : Config) (data : List Byte) : Nat → Nat → List Byte → SlipEnd
  | 0, _, _ => .failed 0x01
  | fuel + 1, p, out =>
    if p = data.length then .failed 0x01
    else
      let b := data.getD p 0
      let p := p + 1
      if b = c.slipEnd then .frame out p
      else if b = c.slipEsc then
        if p = data.length then .failed 0x01
        else
          let e := data.getD p 0
          let p := p + 1
          if e = c.slipEscEnd then slipLoop c data fuel p (out ++ [c.slipEnd])
          else if e = c.slipEscEsc then slipLoop c data fuel p (out ++ [c.slipEsc])
          else .failed 0x03
      else slipLoop c data fuel p (out ++ [b])

/-- R172 up to the writes. -/
def slipDecode (c : Config) (data : List Byte) : SlipEnd :=
  let p := skipLoop c.slipEnd data data.length 0
  if p = data.length then .failed 0x01 else slipLoop c data (data.length + 1) p []

/-! ## LFSR (R187, R188) -/

/-- The register after one step of R187. -/
def lfsrNext (poly : Word) (s : Word) : Word := if s.getLsbD 0 then (s >>> 1) ^^^ poly else s >>> 1

/-- The register after `m` steps from the seed. -/
def lfsrAfter (c : Config) (m : Nat) : Word := (lfsrNext c.lfsrPoly)^[m] c.lfsrSeed

/-- Key byte `i` of R188: its bit `j` is the output bit of step `8i + (7 - j)` from the seed. -/
def keyByte (c : Config) (i : Nat) : Byte :=
  ofBitsLE 8 ((List.range 8).map fun j => (lfsrAfter c (8 * i + (7 - j))).getLsbD 0)

end Sys2Proof.Machine.Reference
end

