-- ==== Sys2Proof/Safety.lean ====
section
/-! DEFINITION. What counts as a good state and a good run, in the terms claims use: the invariants of
10_state.md R45, the fault state of 60_exceptions.md R214, runs of commands, and the agreement of two
states on everything a command can observe (R43). -/

namespace Sys2Proof.Machine

/-! ## Good states -/

/-- What holds in every reachable state (R45 (a), (b), (c), (e), (f); (d) holds of every `State` because
only bit 0 of `CRC_CTRL` is held), the codes of R211, the bounds of R8, and the memories' form (R60). -/
structure State.Inv (s : State) : Prop where
  cfg_wf      : s.cfg.wf = true
  ilen_le     : s.ilen.toNat ≤ s.cfg.bufsz
  olen_le     : s.olen.toNat ≤ s.cfg.bufsz
  lut_built   : s.status.cfgd = true → ∀ i : Byte, s.lutAt i = lutEntry s.crcPoly s.lsbf i
  run_cfgd    : s.status.run = true → s.status.cfgd = true
  eof_resid   : s.status.eof = true → s.status.resid = 0
  fault_err   : s.status.fault = true ↔ s.status.err = eIllop
  err_listed  : s.status.err ∈ errCodes
  ibuf_wf     : s.ibuf.wf = true
  obuf_wf     : s.obuf.wf = true
  ibuf_within : s.ibuf.within s.cfg.bufsz = true
  obuf_within : s.obuf.within s.cfg.bufsz = true
  lut_size    : s.lut.length = 256

/-- The block takes commands: no fault, and the reset input is not asserted (R100 (1), R240). -/
def State.ready (s : State) : Prop := s.resetIn = false ∧ s.status.fault = false

/-- The step has no next state (R214). -/
def State.noStep (s : State) : Prop := ∀ t, step s ≠ .next t

/-- The step leaves the block in `t`: as its next state, or as the state of its fault (R214). -/
def State.leaves (s t : State) : Prop := step s = .next t ∨ step s = .fault (.illegalOpcode t)

/-- R84's list of illegal opcode bytes, range by range. -/
def illegalOpcode (op : Byte) : Bool :=
  [(0x03, 0x07), (0x0C, 0x0F), (0x17, 0x1F), (0x22, 0x2F), (0x32, 0x3F), (0x42, 0xFF)].any
    fun r => decide (r.1 ≤ op.toNat) && decide (op.toNat ≤ r.2)

/-- The column "Commands that can report it" of R211's table, row by row, `E_ILLOP` apart: the codes a
command can end with. `NOP` and a successful `GET` write none. -/
def reportable : Instr → List (BitVec 8)
  | .nop => []
  | .sreset => [0x00]
  | .get _ => [0x07]
  | .inClr => [0x00]
  | .inPush _ => [0x00, 0x04]
  | .outRd _ => [0x00, 0x07]
  | .xfer => [0x00]
  | .crcCfg _ _ _ _ => [0x00, 0x07]
  | .crcPreset _ => [0x00, 0x07]
  | .crcStart => [0x00, 0x05]
  | .crcUpdate => [0x00, 0x05, 0x06]
  | .crcFinal => [0x00, 0x05, 0x06]
  | .crcCalc => [0x00, 0x05]
  | .crcLutrd _ => [0x00, 0x05]
  | .hdlcStuff _ _ => [0x00, 0x04]
  | .hdlcUnstuff _ => [0x00]
  | .slipEnc => [0x00, 0x04]
  | .slipDec => [0x00, 0x01, 0x03]
  | .fsmUnpack _ => [0x00, 0x01, 0x02, 0x07]
  | .lfsrDescr => [0x00]

/-! ## Runs -/

/-- The commands one after the other, each on the state the one before left (R71); none if one of them
gives no next state. -/
def runAll : List Instr → State → Option State
  | [], s => some s
  | i :: t, s =>
    match exec i s with
    | .next s' => runAll t s'
    | .fault _ => none
    | .refused _ => none

/-- The commands of an assembler line (R89), run. -/
def runLine (l : AsmLine) (s : State) : Option State := runAll (expandLine l) s

/-! ## What a codec leaves -/

/-- `OBUF[0..OLEN)` is exactly `out` (R62), and no byte from `len(out)` on was written: the frame. R62 calls
those bytes unspecified; that they stay as they were is the model's reading of the pseudocode (log entry
10), and no command can tell (`Obligations.UnspecifiedContentsAreUnobservable`). -/
def WroteOutput (s t : State) (out : List Byte) : Prop :=
  t.olen.toNat = out.length ∧ t.output = out ∧
    ∀ a, out.length ≤ a → t.obuf.read a = s.obuf.read a

/-- `t` is `s` but for `OBUF`, `OLEN` and `STATUS.ERR = E_OK`. -/
def OnlyOutputChanged (s t : State) : Prop :=
  t = { s with obuf := t.obuf, olen := t.olen, status := { s.status with err := eOk } }

/-- `IBUF[0..4) = asm_bytes(v)` (R185, R190). -/
def StartsWithMarker (s : State) (v : Marker) : Prop :=
  s.ibuf.read 0 = v.extractLsb' 24 8 ∧ s.ibuf.read 1 = v.extractLsb' 16 8 ∧
    s.ibuf.read 2 = v.extractLsb' 8 8 ∧ s.ibuf.read 3 = v.extractLsb' 0 8

/-! ## What a command can observe -/

/-- The two states differ at most in what R43 and R61 to R63 call unspecified: bytes of `IBUF` at or above
`ILEN`, bytes of `OBUF` at or above `OLEN`, and `LUT` while `CFGD = 0`. -/
structure SameObserved (s s' : State) : Prop where
  rest   : s' = { s with ibuf := s'.ibuf, obuf := s'.obuf, lut := s'.lut }
  input  : s'.input = s.input
  output : s'.output = s.output
  table  : s.status.cfgd = true → ∀ i : Byte, s'.lutAt i = s.lutAt i

end Sys2Proof.Machine
end

