-- ==== Sys2Proof/Certificates/Slice0/Obligations.lean ====
section
/-! DEFINITION. The statements for the provers: what the rules of spec/ say the commands and the machine
do, of every state and every parameter value. `Memory.read` is the model's read of one byte. -/

open Sys2Proof Sys2Proof.Machine

/-! ## The encoding -/

/-- R82, R83: decoding the bytes of a command gives the command back and leaves what follows them, with
every operand at every value. -/
def Obligations.DecodeAfterEncodeIsIdentity : Prop :=
  ∀ (i : Instr) (rest : List Byte), decode (encode i ++ rest) = .command i rest

/-- R80, R86: the bytes a decoded command took from the stream are exactly its encoding. -/
def Obligations.DecodedBytesAreTheEncoding : Prop :=
  ∀ (bs : List Byte) (i : Instr) (rest : List Byte), decode bs = .command i rest → bs = encode i ++ rest

/-- R88's examples and some bytes of 95_test_vectors.md's programs. -/
def Obligations.ListedBytesDecodeToTheirCommands : Prop :=
  decode [0x10, 0x21, 0x10, 0xFF, 0xFF, 0x00, 0x00, 0x00] = .command (.crcCfg 0x1021 0xFFFF 0x0000 0) [] ∧
  decode [0x0A, 0x02, 0x01] = .command (.outRd 0x0102) [] ∧
  decode [0x20, 0x01, 0x7E] = .command (.hdlcStuff 1 0x7E) [] ∧
  decode [0x09, 0x01] = .command (.inPush 0x01) [] ∧
  decode [0x30, 0x0B] = .command .slipEnc [0x0B] ∧
  decode [0x40, 0x01] = .command (.fsmUnpack 1) [] ∧
  decode [0x17, 0x02, 0x00] = .illegal 0x17 [0x02, 0x00]

/-- R86: the length is told from byte 0 alone; a shorter sequence needs more bytes, a longer one leaves
the bytes after the command, and any other byte 0 is illegal. -/
def Obligations.LengthIsToldFromByteZero : Prop :=
  ∀ (op : Byte) (t : List Byte),
    let ofLength (n : Nat) : Prop :=
      commandLength op = some n ∧
      (t.length + 1 < n → decode (op :: t) = .needMore) ∧
      (n ≤ t.length + 1 → ∃ i, decode (op :: t) = .command i (t.drop (n - 1)))
    if op.toNat ∈ [0x00, 0x01, 0x08, 0x0B, 0x12, 0x13, 0x14, 0x15, 0x30, 0x31, 0x41] then ofLength 1
    else if op.toNat ∈ [0x02, 0x09, 0x11, 0x16, 0x21, 0x40] then ofLength 2
    else if op.toNat ∈ [0x0A, 0x20] then ofLength 3
    else if op.toNat = 0x10 then ofLength 8
    else commandLength op = none ∧ decode (op :: t) = .illegal op t

/-- R84: exactly the bytes of R84's ranges are illegal as byte 0, and there are 236 of them. -/
def Obligations.IllegalOpcodesAreTheListedRanges : Prop :=
  (∀ (op : Byte) (t : List Byte), decode (op :: t) = .illegal op t ↔ illegalOpcode op = true) ∧
  ((List.range 256).filter fun n => illegalOpcode (BitVec.ofNat 8 n)).length = 236

/-! ## The step -/

/-- A step runs the decoded command (R80, R100): on the state in which its bytes have been taken. -/
def Obligations.StepRunsTheDecodedCommand : Prop :=
  ∀ (s : State) (i : Instr) (rest : List Byte), s.ready → decode s.cmd = .command i rest →
    step s = exec i { s with cmd := rest }

/-- R87: an incomplete command is not executed and changes nothing; bytes sent later complete it; hardware
reset discards it. That waiting is a step to the same state is the model's choice (log entry 2), and so is
that one step performs the reset (log entry 4). -/
def Obligations.IncompleteCommandWaits : Prop :=
  ∀ (s : State), s.ready → decode s.cmd = .needMore →
    step s = .next s ∧
    (∀ (i : Instr) (more rest : List Byte), s.cmd ++ more = encode i ++ rest →
      step (s.send more) = exec i { s with cmd := rest }) ∧
    (∃ t, step s.assertReset = .next t ∧ t.cmd = [])

/-- R84, R214: on an illegal opcode byte the step ends in the fault, a distinct outcome: the byte is
consumed, `ERR` and `FAULT` are written and nothing else changes; after it no byte sent has any effect (R214),
and only hardware reset leads on (R240), keeping `RSP` (R38). That the fault carries the state and that later
steps are the fault `stuckUntilReset` are the model's choices (log entry 6); so is that one step performs the
whole reset and releases the input (log entry 4). -/
def Obligations.IllegalOpcodeFaultsUntilReset : Prop :=
  ∀ (s : State) (op : Byte) (rest : List Byte), s.ready → illegalOpcode op = true → s.cmd = op :: rest →
    ∃ t, step s = .fault (.illegalOpcode t) ∧
      t = { s with cmd := rest, status := { s.status with err := 0x80, fault := true } } ∧
      (∀ more, step (t.send more) = .fault .stuckUntilReset ∧ (t.send more).noStep) ∧
      ∃ u, step t.assertReset = .next u ∧ u.ready ∧ u.rsp = s.rsp

/-- R30, R214: no next state of a step is faulted; the fault bit is set by an illegal opcode, always and by
nothing else; while it is 1 the block has no step but hardware reset, which clears it; it is what the host
sees on `FAULT`. The form of the fault is log entry 6, the one-step reset log entry 4. -/
def Obligations.FaultBitSetByIllegalOpcodeOnly : Prop :=
  (∀ (s t : State), step s = .next t → t.status.fault = false) ∧
  (∀ (s t : State), step s = .fault (.illegalOpcode t) →
    s.ready ∧ t.status.fault = true ∧ ∃ op rest, decode s.cmd = .illegal op rest) ∧
  (∀ (s : State), s.ready → (∃ op rest, decode s.cmd = .illegal op rest) →
    ∃ t, step s = .fault (.illegalOpcode t)) ∧
  (∀ (s : State), s.resetIn = false → s.status.fault = true → step s = .fault .stuckUntilReset) ∧
  (∀ (s : State), s.resetIn = true → ∃ t, step s = .next t) ∧
  ∀ (s : State), s.faultOutput = s.status.fault

/-- R84, R210, R214: a run whose stream holds commands and then an illegal byte executes the commands in order
and ends in the fault, however long it is continued; it never ends in a next state after the illegal byte.
That the fault carries the state is log entry 6. -/
def Obligations.RunEndsInFaultAtIllegalOpcode : Prop :=
  ∀ (is : List Instr) (op : Byte) (rest : List Byte) (s : State), s.ready → illegalOpcode op = true →
    s.cmd = is.flatMap encode ++ op :: rest →
    ∃ t, runAll is { s with cmd := op :: rest } = some t ∧
      ∀ k, is.length < k → Host.Core.run Sys2Proof.core k s = .fault (.illegalOpcode
        { t with cmd := rest, status := { t.status with err := 0x80, fault := true } })

/-- R240: hardware reset, from any state, also from the fault state: the registers and `STATUS` at their
reset values, `RSP` kept, a partly received command forgotten, whatever the memories then hold. That the
whole pulse is one step, and that it drops the whole commands still waiting in the stream too, of which R240
says nothing, is the model's (log entry 4, DESIGN CHOICE and DEDUCED). -/
def Obligations.HardwareResetRestoresRegisters : Prop :=
  ∀ (s : State), s.resetIn = true → ∃ (ib ob : Memory) (table : List Word),
    step s = .next
      { cfg := s.cfg, cmd := [], resetIn := false, rsp := s.rsp,
        status := { err := 0, fault := false, cfgd := false, run := false, inv := false, eof := false, resid := 0 },
        ilen := 0, olen := 0, consumed := 0, crcPoly := 0, crcInit := 0, crcXorout := 0, lsbf := false,
        crcRem := 0, crcResult := 0, lfsr := s.cfg.lfsrSeed, ibuf := ib, obuf := ob, lut := table }

/-- R43: the reset values of the registers of R39, of `STATUS`' fields, and no readable byte; and the same
values after `SRESET`. -/
def Obligations.ResetValuesOfEveryRegister : Prop :=
  (∀ (c : Config) (r : Byte), (State.resetWith c).register r =
    if r.toNat < 10 then some 0x0000 else if r.toNat = 10 then some c.lfsrSeed else none) ∧
  (∀ (c : Config), (State.resetWith c).input = [] ∧ (State.resetWith c).output = [] ∧
    (State.resetWith c).status = Status.zero) ∧
  State.reset.register 10 = some 0xACE1 ∧
  (∀ (s : State), ∃ t, exec .sreset s = .next t ∧
    ∀ r, t.register r = (State.resetWith s.cfg).register r)

/-- Commands sent as bytes run one per step, each on the state the one before left, to the end of the
stream (R71, R80). -/
def Obligations.CommandStreamExecutesInOrder : Prop :=
  ∀ (is : List Instr) (s : State), s.ready → s.cmd = is.flatMap encode →
    ∃ t, runAll is { s with cmd := [] } = some t ∧ Host.Core.run Sys2Proof.core is.length s = .next t

/-! ## Invariants -/

/-- R45 and the memories' form: every step keeps the invariant, from every state that has it, in its next
state and in the state of its fault (which hardware reset leads on from). -/
def Obligations.InvariantKeptByEveryStep : Prop :=
  (∀ (s t : State), s.Inv → step s = .next t → t.Inv) ∧
  ∀ (s t : State), s.Inv → step s = .fault (.illegalOpcode t) → t.Inv

/-- The invariant holds right after reset, for every admissible parameter value. -/
def Obligations.InvariantHoldsAtReset : Prop :=
  (∀ c : Config, c.wf = true → (State.resetWith c).Inv) ∧ State.reset.Inv

/-! ## Rules of the whole machine -/

/-- R255: every command ends, in a next state. -/
def Obligations.EveryCommandHasANextState : Prop :=
  ∀ (i : Instr) (s : State), ∃ t, exec i s = .next t

/-- R212: a command that leaves a failure code changed nothing but `STATUS.ERR`, or is a successful `GET`,
which leaves the code of the command before it. -/
def Obligations.FailureChangesOnlyErr : Prop :=
  ∀ (i : Instr) (s t : State), exec i s = .next t → t.status.err ≠ 0x00 →
    t = { s with status := { s.status with err := t.status.err } } ∨
    ∃ r w, i = .get r ∧ s.register r = some w ∧ t = { s with rsp := s.rsp ++ [w] }

/-- R211, R31: the codes each command can write, and that `NOP` and a successful `GET` write none. -/
def Obligations.ErrCodesEachCommandCanReport : Prop :=
  ∀ (i : Instr) (s t : State), exec i s = .next t →
    (i = .nop → t.status.err = s.status.err) ∧
    (∀ r, i = .get r → r.toNat < 11 → t.status.err = s.status.err) ∧
    (i ≠ .nop → (∀ r, i = .get r → 11 ≤ r.toNat) → t.status.err ∈ reportable i)

/-- R213: the commands that cannot fail. -/
def Obligations.CommandsThatCannotFail : Prop :=
  ∀ (s : State),
    (∃ t, exec .nop s = .next t ∧ t.status.err = s.status.err) ∧
    (∃ t, exec .sreset s = .next t ∧ t.status.err = 0x00) ∧
    (∃ t, exec .inClr s = .next t ∧ t.status.err = 0x00) ∧
    (∃ t, exec .xfer s = .next t ∧ t.status.err = 0x00) ∧
    (∀ fb, ∃ t, exec (.hdlcUnstuff fb) s = .next t ∧ t.status.err = 0x00) ∧
    (∃ t, exec .lfsrDescr s = .next t ∧ t.status.err = 0x00)

/-- R38: `GET`, `OUT.RD` and `CRC.LUTRD` append one word when they succeed; nothing else is appended, no
command reads `RSP`, and no step, reset and the fault among them, removes a word. -/
def Obligations.ResponseStreamIsAppendOnly : Prop :=
  (∀ (s t : State), s.leaves t → t.rsp = s.rsp ∨ ∃ w, t.rsp = s.rsp ++ [w]) ∧
  ∀ (i : Instr) (s t : State), exec i s = .next t →
    (∀ earlier, exec i { s with rsp := earlier ++ s.rsp } = .next { t with rsp := earlier ++ t.rsp }) ∧
    match i with
    | .get r =>
      if r.toNat < 11 then ∃ w, s.register r = some w ∧ t.rsp = s.rsp ++ [w] else t.rsp = s.rsp
    | .outRd idx =>
      if idx.toNat < s.olen.toNat then
        ∃ w : Word, w.toNat = (s.obuf.read idx.toNat).toNat ∧ t.rsp = s.rsp ++ [w]
      else t.rsp = s.rsp
    | .crcLutrd j => if s.status.cfgd = true then t.rsp = s.rsp ++ [s.lutAt j] else t.rsp = s.rsp
    | _ => t.rsp = s.rsp

/-- R44: no command changes or reads the command stream, and none changes the parameters or the reset
input (R74: nothing the block writes can become a command); none writes `FAULT` (R30), but that `SRESET`
writes all of `STATUS` (R102). From `FAULT = 1`, where the step runs no command, that clause is about the
meanings alone, which do not look at `FAULT` (log entry 6). -/
def Obligations.CommandsLeaveStreamAndParameters : Prop :=
  ∀ (i : Instr) (s t : State), exec i s = .next t →
    t.cfg = s.cfg ∧ t.cmd = s.cmd ∧ t.resetIn = s.resetIn ∧ t.status.fault = (s.status.fault && i != .sreset) ∧
    ∀ c, exec i { s with cmd := c } = .next { t with cmd := c }

/-- R21 to R28, R32 to R37, R61 to R63: each register, flag and memory changes only under the commands its
rule lists, `SRESET` apart. -/
def Obligations.StateWrittenOnlyByListedCommands : Prop :=
  ∀ (i : Instr) (s t : State), exec i s = .next t → i ≠ .sreset →
    let configures := (∃ p n x o, i = .crcCfg p n x o) ∨ ∃ n, i = .crcPreset n
    let codec := (∃ c f, i = .hdlcStuff c f) ∨ (∃ f, i = .hdlcUnstuff f) ∨ i = .slipEnc ∨ i = .slipDec ∨
      (∃ d, i = .fsmUnpack d) ∨ i = .lfsrDescr
    (t.crcPoly ≠ s.crcPoly ∨ t.crcInit ≠ s.crcInit ∨ t.crcXorout ≠ s.crcXorout ∨ t.lsbf ≠ s.lsbf ∨
      t.lut ≠ s.lut ∨ t.status.cfgd ≠ s.status.cfgd → configures) ∧
    (t.status.run ≠ s.status.run → configures ∨ i = .crcStart ∨ i = .crcCalc) ∧
    (t.crcRem ≠ s.crcRem → i = .crcStart ∨ i = .crcUpdate ∨ i = .crcCalc) ∧
    (t.crcResult ≠ s.crcResult → i = .crcFinal ∨ i = .crcCalc) ∧
    (t.lfsr ≠ s.lfsr → i = .lfsrDescr ∨ ∃ d, i = .fsmUnpack d) ∧
    (t.consumed ≠ s.consumed → (∃ f, i = .hdlcUnstuff f) ∨ i = .slipDec ∨ ∃ d, i = .fsmUnpack d) ∧
    (t.status.inv ≠ s.status.inv → ∃ d, i = .fsmUnpack d) ∧
    (t.status.eof ≠ s.status.eof ∨ t.status.resid ≠ s.status.resid → ∃ f, i = .hdlcUnstuff f) ∧
    (t.ilen ≠ s.ilen → i = .inClr ∨ (∃ b, i = .inPush b) ∨ i = .xfer) ∧
    (t.ibuf ≠ s.ibuf → (∃ b, i = .inPush b) ∨ i = .xfer) ∧
    (t.olen ≠ s.olen ∨ t.obuf ≠ s.obuf → codec)

/-- R43: "No command can observe an unspecified byte". Two states that differ only in bytes at or above
`ILEN` and `OLEN` and in `LUT` while `CFGD = 0` are taken by every command to two such states, with the
same words on `RSP`: what the model lets those bytes hold (log entry 5) shows nowhere. -/
def Obligations.UnspecifiedContentsAreUnobservable : Prop :=
  ∀ (i : Instr) (s s' : State), s.Inv → s'.Inv → SameObserved s s' →
    ∃ t t', exec i s = .next t ∧ exec i s' = .next t' ∧ SameObserved t t'

/-- R27: the value left in `LFSR` never influences a later command; only `GET 10` shows it. -/
def Obligations.LfsrRegisterInfluencesNothing : Prop :=
  ∀ (i : Instr) (s : State) (v : Word), i ≠ .get 10 →
    ∃ t, exec i s = .next t ∧
      (exec i { s with lfsr := v } = .next t ∨ exec i { s with lfsr := v } = .next { t with lfsr := v })

/-! ## System and buffer commands -/

/-- R101. A block with `FAULT = 1` has no step, so that `NOP` is not executed there. -/
def Obligations.NopChangesNothing : Prop :=
  (∀ rest, decode (0x00 :: rest) = .command .nop rest) ∧ (∀ s : State, exec .nop s = .next s) ∧
  ∀ s : State, s.resetIn = false → s.status.fault = true → s.noStep

/-- R102, R241: every register of R39 and all of `STATUS` at its reset value, `RSP` kept, the rest of the
stream kept, whatever the memories then hold; not executed while `FAULT = 1`. -/
def Obligations.SresetRestoresResetState : Prop :=
  (∀ rest, decode (0x01 :: rest) = .command .sreset rest) ∧
  (∀ s : State, s.resetIn = false → s.status.fault = true → s.noStep) ∧
  ∀ s : State, ∃ (ib ob : Memory) (table : List Word),
    exec .sreset s = .next
      { cfg := s.cfg, cmd := s.cmd, resetIn := s.resetIn, rsp := s.rsp,
        status := { err := 0, fault := false, cfgd := false, run := false, inv := false, eof := false, resid := 0 },
        ilen := 0, olen := 0, consumed := 0, crcPoly := 0, crcInit := 0, crcXorout := 0, lsbf := false,
        crcRem := 0, crcResult := 0, lfsr := s.cfg.lfsrSeed, ibuf := ib, obuf := ob, lut := table }

/-- R103, with the register numbers of R39 and the layout of `STATUS` of R29. -/
def Obligations.GetSendsTheNumberedRegister : Prop :=
  ∀ (s : State) (r : Byte),
    (∀ rest, decode (0x02 :: r :: rest) = .command (.get r) rest) ∧
    (11 ≤ r.toNat → exec (.get r) s = .next { s with status := { s.status with err := 0x07 } }) ∧
    (r.toNat < 11 → ∃ w : Word, exec (.get r) s = .next { s with rsp := s.rsp ++ [w] } ∧
      w.toNat =
        [s.status.err.toNat + 256 * s.status.fault.toNat + 512 * s.status.cfgd.toNat +
            1024 * s.status.run.toNat + 2048 * s.status.inv.toNat + 4096 * s.status.eof.toNat +
            8192 * s.status.resid.toNat,
          s.ilen.toNat, s.olen.toNat, s.consumed.toNat, s.crcPoly.toNat, s.crcInit.toNat,
          s.crcXorout.toNat, s.lsbf.toNat, s.crcRem.toNat, s.crcResult.toNat, s.lfsr.toNat].getD r.toNat 0)

/-- R104. -/
def Obligations.InClrEmptiesInput : Prop :=
  (∀ rest, decode (0x08 :: rest) = .command .inClr rest) ∧
  ∀ s : State, ∃ t, exec .inClr s = .next t ∧ t.input = [] ∧
    t = { s with ilen := 0, status := { s.status with err := 0x00 } }

/-- R105. That the bytes above index `ILEN`, which R61 calls unspecified, keep their value is the model's
reading of the pseudocode (log entry 10). -/
def Obligations.InPushAppendsOneByte : Prop :=
  ∀ (s : State) (b : Byte), s.Inv →
    (∀ rest, decode (0x09 :: b :: rest) = .command (.inPush b) rest) ∧
    (s.ilen.toNat = s.cfg.bufsz →
      exec (.inPush b) s = .next { s with status := { s.status with err := 0x04 } }) ∧
    (s.ilen.toNat ≠ s.cfg.bufsz → ∃ t, exec (.inPush b) s = .next t ∧
      t.ilen.toNat = s.ilen.toNat + 1 ∧ t.ibuf.read s.ilen.toNat = b ∧
      (∀ a, a ≠ s.ilen.toNat → t.ibuf.read a = s.ibuf.read a) ∧
      t = { s with ibuf := t.ibuf, ilen := t.ilen, status := { s.status with err := 0x00 } })

/-- R106. -/
def Obligations.OutRdSendsOneByte : Prop :=
  ∀ (s : State) (idx : Word),
    (∀ rest, decode (0x0A :: idx.extractLsb' 0 8 :: idx.extractLsb' 8 8 :: rest) = .command (.outRd idx) rest) ∧
    (s.olen.toNat ≤ idx.toNat →
      exec (.outRd idx) s = .next { s with status := { s.status with err := 0x07 } }) ∧
    (idx.toNat < s.olen.toNat → ∃ w : Word, w.toNat = (s.obuf.read idx.toNat).toNat ∧
      exec (.outRd idx) s =
        .next { s with rsp := s.rsp ++ [w], status := { s.status with err := 0x00 } })

/-- R107. That the bytes of `IBUF` at and above `OLEN`, which R61 calls unspecified, keep their value is the
model's reading of the pseudocode (log entry 10). -/
def Obligations.XferCopiesOutputToInput : Prop :=
  (∀ rest, decode (0x0B :: rest) = .command .xfer rest) ∧
  ∀ s : State, s.Inv → ∃ t, exec .xfer s = .next t ∧
    (∀ a, a < s.olen.toNat → t.ibuf.read a = s.obuf.read a) ∧
    (∀ a, s.olen.toNat ≤ a → t.ibuf.read a = s.ibuf.read a) ∧
    t.input = s.output ∧
    t = { s with ibuf := t.ibuf, ilen := s.olen, status := { s.status with err := 0x00 } }

/-- R89, R105: the pseudo-command `IN.LOAD` leaves exactly its bytes in `IBUF[0..ILEN)`, whatever was
there, and touches nothing else. -/
def Obligations.InLoadFillsInput : Prop :=
  ∀ (s : State) (bs : List Byte), s.Inv → bs.length ≤ s.cfg.bufsz →
    ∃ t, runLine (.inLoad bs) s = some t ∧ t.input = bs ∧
      t = { s with ibuf := t.ibuf, ilen := t.ilen, status := { s.status with err := 0x00 } }

/-! ## The CRC unit -/

/-- R120: the table function is its loop of eight shifts, in either bit order; entry 0 is 0; the rule's
samples. -/
def Obligations.TableFunctionFollowsItsLoop : Prop :=
  (∀ (p : Word) (i : Byte), ∃ r : Nat → Word, (r 0).toNat = 256 * i.toNat ∧
    (∀ k, k < 8 → r (k + 1) = if (r k).getLsbD 15 then (r k <<< 1) ^^^ p else r k <<< 1) ∧
    lutEntry p false i = r 8) ∧
  (∀ (p : Word) (i : Byte), ∃ (q : Word) (r : Nat → Word),
    (∀ j, j < 16 → q.getLsbD j = p.getLsbD (15 - j)) ∧ (r 0).toNat = i.toNat ∧
    (∀ k, k < 8 → r (k + 1) = if (r k).getLsbD 0 then (r k >>> 1) ^^^ q else r k >>> 1) ∧
    lutEntry p true i = r 8) ∧
  (∀ (p : Word) (l : Bool), lutEntry p l 0 = 0) ∧
  (∀ (c : Config) (p : Word) (l : Bool), c.wf = true →
    ∀ i : Byte, (lutBuild c.lutN p l)[i.toNat]? = some (lutEntry p l i)) ∧
  [lutEntry 0x1021 false 1, lutEntry 0x1021 false 2, lutEntry 0x1021 false 0x80, lutEntry 0x1021 false 0xFF,
    lutEntry 0x1021 true 1, lutEntry 0x1021 true 0x80, lutEntry 0x1021 true 0xFF, lutEntry 0x8005 true 1,
    lutEntry 0x8005 true 0x80, lutEntry 0x8005 true 0xFF] =
  [0x1021, 0x2042, 0x9188, 0x1EF0, 0x1189, 0x8408, 0x0F78, 0xC0C1, 0xA001, 0x4040]

/-- R121, with the table of R120, whose `LUT_N` entries are 256 for every admissible parameter value (R8). -/
def Obligations.CrcCfgConfiguresAndRebuildsTable : Prop :=
  ∀ (s : State) (poly init xorout : Word) (order : Byte),
    (∀ rest, decode (0x10 :: poly.extractLsb' 0 8 :: poly.extractLsb' 8 8 :: init.extractLsb' 0 8 ::
      init.extractLsb' 8 8 :: xorout.extractLsb' 0 8 :: xorout.extractLsb' 8 8 :: order :: rest) =
      .command (.crcCfg poly init xorout order) rest) ∧
    (2 ≤ order.toNat → exec (.crcCfg poly init xorout order) s =
      .next { s with status := { s.status with err := 0x07 } }) ∧
    (order.toNat < 2 → ∃ t, exec (.crcCfg poly init xorout order) s = .next t ∧
      (s.cfg.wf = true → t.lut.length = 256 ∧ (∀ i : Byte, t.lutAt i = lutEntry poly (order == 1) i) ∧
        (poly = 0 → ∀ i : Byte, t.lutAt i = 0) ∧ t.lutAt 0 = 0) ∧
      t = { s with crcPoly := poly, crcInit := init, crcXorout := xorout, lsbf := order == 1, lut := t.lut,
                   status := { s.status with err := 0x00, cfgd := true, run := false } })

/-- R122, with the rows of R128 for the standard table: a preset is the `CRC.CFG` with its four values. -/
def Obligations.CrcPresetIsItsConfiguration : Prop :=
  ∀ (s : State) (n : Byte),
    (∀ rest, decode (0x11 :: n :: rest) = .command (.crcPreset n) rest) ∧
    (6 ≤ n.toNat → exec (.crcPreset n) s = .next { s with status := { s.status with err := 0x07 } }) ∧
    (n.toNat < 6 → ∃ p, s.cfg.presets.row n = some p ∧
      exec (.crcPreset n) s = exec (.crcCfg p.poly p.init p.xorout (if p.lsbf then 1 else 0)) s ∧
      (∃ t, exec (.crcPreset n) s = .next t ∧ t.status.cfgd = true ∧ t.status.err = 0x00) ∧
      (s.cfg.presets = PresetTable.standard → some (p.poly, p.init, p.xorout, p.lsbf) =
        [(0x1021, 0xFFFF, 0x0000, false), (0x1021, 0x0000, 0x0000, false), (0x1021, 0xFFFF, 0xFFFF, true),
          (0x1021, 0x0000, 0x0000, true), (0x8005, 0x0000, 0xFFFF, true),
          (0x8005, 0xFFFF, 0xFFFF, true)][n.toNat]?))

/-- R123. -/
def Obligations.CrcStartLoadsOrientedInitial : Prop :=
  (∀ rest, decode (0x12 :: rest) = .command .crcStart rest) ∧
  ∀ s : State,
    (s.status.cfgd = false → exec .crcStart s = .next { s with status := { s.status with err := 0x05 } }) ∧
    (s.status.cfgd = true → ∃ t, exec .crcStart s = .next t ∧
      (∀ k, k < 16 → t.crcRem.getLsbD k = s.crcInit.getLsbD (if s.lsbf then 15 - k else k)) ∧
      t = { s with crcRem := t.crcRem, status := { s.status with err := 0x00, run := true } })

/-- R124, with the byte step of R129. -/
def Obligations.CrcUpdateRunsInputThroughTable : Prop :=
  (∀ rest, decode (0x13 :: rest) = .command .crcUpdate rest) ∧
  ∀ s : State,
    (s.status.cfgd = false → exec .crcUpdate s = .next { s with status := { s.status with err := 0x05 } }) ∧
    (s.status.cfgd = true → s.status.run = false →
      exec .crcUpdate s = .next { s with status := { s.status with err := 0x06 } }) ∧
    (s.status.cfgd = true → s.status.run = true → ∃ rems : Nat → Word,
      rems 0 = s.crcRem ∧
      (∀ k, k < s.ilen.toNat → rems (k + 1) =
        if s.lsbf then (rems k >>> 8) ^^^ s.lutAt (BitVec.ofNat 8 ((rems k).toNat % 256) ^^^ s.ibuf.read k)
        else (rems k <<< 8) ^^^ s.lutAt (BitVec.ofNat 8 ((rems k).toNat / 256) ^^^ s.ibuf.read k)) ∧
      exec .crcUpdate s = .next
        { s with crcRem := rems s.ilen.toNat, status := { s.status with err := 0x00 } })

/-- R125. -/
def Obligations.CrcFinalXorsRemainder : Prop :=
  (∀ rest, decode (0x14 :: rest) = .command .crcFinal rest) ∧
  ∀ s : State,
    (s.status.cfgd = false → exec .crcFinal s = .next { s with status := { s.status with err := 0x05 } }) ∧
    (s.status.cfgd = true → s.status.run = false →
      exec .crcFinal s = .next { s with status := { s.status with err := 0x06 } }) ∧
    (s.status.cfgd = true → s.status.run = true →
      exec .crcFinal s = .next
        { s with crcResult := s.crcRem ^^^ s.crcXorout, status := { s.status with err := 0x00 } })

/-- R126: `CRC.CALC` is start, update, final in one step. -/
def Obligations.CrcCalcIsStartUpdateFinal : Prop :=
  (∀ rest, decode (0x15 :: rest) = .command .crcCalc rest) ∧
  ∀ s : State,
    (s.status.cfgd = false → exec .crcCalc s = .next { s with status := { s.status with err := 0x05 } }) ∧
    (s.status.cfgd = true → ∃ t, exec .crcCalc s = .next t ∧
      runAll [.crcStart, .crcUpdate, .crcFinal] s = some t ∧
      t = { s with crcRem := t.crcRem, crcResult := t.crcRem ^^^ s.crcXorout,
                   status := { s.status with err := 0x00, run := true } })

/-- R127. -/
def Obligations.CrcLutrdSendsTableEntry : Prop :=
  ∀ (s : State) (i : Byte),
    (∀ rest, decode (0x16 :: i :: rest) = .command (.crcLutrd i) rest) ∧
    (s.status.cfgd = false →
      exec (.crcLutrd i) s = .next { s with status := { s.status with err := 0x05 } }) ∧
    (s.status.cfgd = true → exec (.crcLutrd i) s =
      .next { s with rsp := s.rsp ++ [s.lutAt i], status := { s.status with err := 0x00 } })

/-- R130: the table-driven result is the bit-serial one, for every configuration and every input. -/
def Obligations.CrcCalcEqualsBitSerial : Prop :=
  ∀ s : State, s.Inv → s.status.cfgd = true → ∃ t, exec .crcCalc s = .next t ∧
    t.crcResult = Reference.crcSerial s.crcPoly s.crcInit s.crcXorout s.lsbf s.input

/-- R133: a message fed in two pieces gives the result of the whole message. -/
def Obligations.CrcContinuesAcrossBuffers : Prop :=
  ∀ (s : State) (a b : List Byte), s.Inv → s.status.cfgd = true → (a ++ b).length ≤ s.cfg.bufsz →
    ∃ t u,
      runAll ([.crcStart] ++ expandLine (.inLoad a) ++ [.crcUpdate] ++ expandLine (.inLoad b) ++
        [.crcUpdate, .crcFinal]) s = some t ∧
      runAll (expandLine (.inLoad (a ++ b)) ++ [.crcCalc]) s = some u ∧
      t.crcResult = u.crcResult ∧ t.crcRem = u.crcRem

/-- R132: each preset of the standard table gives its test value on "123456789". -/
def Obligations.PresetsGiveKnownAnswers : Prop :=
  ∀ (s : State) (n : Byte), s.Inv → s.cfg.presets = PresetTable.standard → 9 ≤ s.cfg.bufsz → n.toNat < 6 →
    ∃ t, runAll ([.crcPreset n] ++
        expandLine (.inLoad [0x31, 0x32, 0x33, 0x34, 0x35, 0x36, 0x37, 0x38, 0x39]) ++ [.crcCalc]) s = some t ∧
      some t.crcResult = ([0x29B1, 0x31C3, 0x906E, 0x2189, 0x44C2, 0xB4C8] : List Word)[n.toNat]?

/-! ## The HDLC unit -/

/-- R151: `HDLC.STUFF` leaves in `OBUF` what the rule's loops compute, or fails with `E_OVF`. That
the bytes of `OBUF` from the result's length on keep their value is log entry 10. -/
def Obligations.HdlcStuffFollowsItsLoops : Prop :=
  ∀ (s : State) (fc fb : Byte), s.Inv →
    (∀ rest, decode (0x20 :: fc :: fb :: rest) = .command (.hdlcStuff fc fb) rest) ∧
    let out := Reference.hdlcStuff s.cfg.hdlcPad fc.toNat fb s.input
    (s.cfg.bufsz < out.length →
      exec (.hdlcStuff fc fb) s = .next { s with status := { s.status with err := 0x04 } }) ∧
    (out.length ≤ s.cfg.bufsz → ∃ t, exec (.hdlcStuff fc fb) s = .next t ∧
      WroteOutput s t out ∧ OnlyOutputChanged s t)

/-- R152: `HDLC.UNSTUFF` leaves in `OBUF`, `EOF`, `RESID` and `CONSUMED` what the rule's loop computes, and
never fails. That the bytes of `OBUF` from the result's length on keep their value is log entry 10. -/
def Obligations.HdlcUnstuffFollowsItsLoop : Prop :=
  ∀ (s : State) (fb : Byte), s.Inv →
    (∀ rest, decode (0x21 :: fb :: rest) = .command (.hdlcUnstuff fb) rest) ∧
    let v := Reference.hdlcUnstuff fb s.input
    ∃ t, exec (.hdlcUnstuff fb) s = .next t ∧ WroteOutput s t v.out ∧
      t.status.resid.toNat = v.n ∧ t.consumed.toNat = (v.pos + 7) / 8 ∧
      t = { s with obuf := t.obuf, olen := t.olen, consumed := t.consumed,
                   status := { s.status with err := 0x00, eof := v.eof, resid := t.status.resid } }

/-- R153: the length of the stuffer's result, the bound on the stuffed zeros, and when it is reached, for
every admissible parameter value (`HDLC_RUN` is 5, R8). -/
def Obligations.StuffedLength : Prop :=
  ∀ (c : Config) (fc : Nat) (fb : Byte) (data : List Byte), c.wf = true → ∃ zeros,
    (stuffBits c.hdlcRun 0 (bitsOf data)).length = 8 * data.length + zeros ∧
    (hdlcStuff c fc fb data).length = (16 * fc + 8 * data.length + zeros + 7) / 8 ∧
    zeros ≤ 8 * data.length / 5 ∧
    ((∀ b ∈ data, b = 0xFF) → zeros = 8 * data.length / 5)

/-- R155: no six ones in a row in the frame part of the stuffer's bit sequence, for every admissible parameter
value (`HDLC_RUN` is 5, R8). -/
def Obligations.StuffedFrameHasNoSixOnes : Prop :=
  ∀ (c : Config) (data : List Byte) (k : Nat), c.wf = true →
    ¬ ∀ j, j < 6 → (stuffBits c.hdlcRun 0 (bitsOf data))[k + j]? = some true

/-- R154: stuffing, `XFER` and destuffing with the flag 0x7E give the data back up to its first byte equal
to 0x7E, for any number of flags from one up; with no flags, all data without such a byte. -/
def Obligations.HdlcRoundTrip : Prop :=
  ∀ (s : State) (fc : Byte), s.Inv →
    (hdlcStuff s.cfg fc.toNat 0x7E s.input).length ≤ s.cfg.bufsz →
    ∃ t, runAll [.hdlcStuff fc 0x7E, .xfer, .hdlcUnstuff 0x7E] s = some t ∧
      (fc ≠ 0 → t.output = s.input.takeWhile (· != 0x7E) ∧ t.status.eof = (s.input != [])) ∧
      (fc = 0 → 0x7E ∉ s.input → t.output = s.input ∧ t.status.eof = false)

/-- R156: the preserved defect, on the rule's own example. -/
def Obligations.FlagValuedByteTruncatesFrame : Prop :=
  ∀ s : State, s.Inv → s.cfg.hdlcPad = false →
    ∃ t u, runAll (expandLine (.inLoad [0x41, 0x7E, 0x42]) ++ [.hdlcStuff 1 0x7E]) s = some t ∧
      t.output = [0x7E, 0x41, 0xBE, 0x84, 0xFC, 0x00] ∧
      runAll [.xfer, .hdlcUnstuff 0x7E] t = some u ∧ u.output = [0x41] ∧ u.status.eof = true

/-! ## The SLIP unit -/

/-- R171: `SLIP.ENC` leaves in `OBUF` what the rule's loop computes, or fails with `E_OVF`. That the bytes
of `OBUF` from the result's length on keep their value is log entry 10. -/
def Obligations.SlipEncFollowsItsLoop : Prop :=
  (∀ rest, decode (0x30 :: rest) = .command .slipEnc rest) ∧
  ∀ s : State, s.Inv →
    let out := Reference.slipEncode s.cfg s.input
    (s.cfg.bufsz < out.length →
      exec .slipEnc s = .next { s with status := { s.status with err := 0x04 } }) ∧
    (out.length ≤ s.cfg.bufsz → ∃ t, exec .slipEnc s = .next t ∧
      WroteOutput s t out ∧ OnlyOutputChanged s t)

/-- R172: `SLIP.DEC` leaves in `OBUF` and `CONSUMED` what the rule's loop computes, or fails with the code
the loop ends with. That the bytes of `OBUF` from the result's length on keep their value is log entry 10. -/
def Obligations.SlipDecFollowsItsLoop : Prop :=
  (∀ rest, decode (0x31 :: rest) = .command .slipDec rest) ∧
  ∀ s : State, s.Inv →
    match Reference.slipDecode s.cfg s.input with
    | .failed e => (e = 0x01 ∨ e = 0x03) ∧
      exec .slipDec s = .next { s with status := { s.status with err := e } }
    | .frame out p => ∃ t, exec .slipDec s = .next t ∧ WroteOutput s t out ∧ t.consumed.toNat = p ∧
      t = { s with obuf := t.obuf, olen := t.olen, consumed := t.consumed,
                   status := { s.status with err := 0x00 } }

/-- R173: packing and unpacking with the bytes of R170 give every non-empty input back, all of the packed
form consumed; an empty one fails with `E_TRUNC`; END stands only at the two ends. -/
def Obligations.SlipRoundTrip : Prop :=
  ∀ s : State, s.Inv → s.cfg.slipEnd = 0xC0 → s.cfg.slipEsc = 0xDB → s.cfg.slipEscEnd = 0xDC →
    s.cfg.slipEscEsc = 0xDD → (slipEncode s.cfg s.input).length ≤ s.cfg.bufsz →
    ∃ t u, runAll [.slipEnc, .xfer] s = some t ∧ exec .slipDec t = .next u ∧
      (∀ k, (h : k < t.input.length) → (t.input[k] = 0xC0 ↔ k = 0 ∨ k + 1 = t.input.length)) ∧
      (s.input ≠ [] → u.output = s.input ∧ u.consumed = u.ilen ∧ u.status.err = 0x00) ∧
      (s.input = [] → u.status.err = 0x01)

/-! ## The marker detector and the descrambler -/

/-- R190, with the markers of R185, the complement of R186 and the key bytes of R187 and R188. That the bytes
of `OBUF` from index `ILEN - 4` on, which R62 calls unspecified, keep their value is log entry 10. -/
def Obligations.FsmUnpackDetectsAndRecovers : Prop :=
  ∀ (s : State) (d : Byte), s.Inv →
    (∀ rest, decode (0x40 :: d :: rest) = .command (.fsmUnpack d) rest) ∧
    (2 ≤ d.toNat → exec (.fsmUnpack d) s = .next { s with status := { s.status with err := 0x07 } }) ∧
    (d.toNat < 2 → s.ilen.toNat < 4 →
      exec (.fsmUnpack d) s = .next { s with status := { s.status with err := 0x01 } }) ∧
    (d.toNat < 2 → 4 ≤ s.ilen.toNat → ¬ StartsWithMarker s s.cfg.asmA →
      ¬ StartsWithMarker s (~~~ s.cfg.asmA) →
      exec (.fsmUnpack d) s = .next { s with status := { s.status with err := 0x02 } }) ∧
    (∀ inv : Bool, d.toNat < 2 → 4 ≤ s.ilen.toNat →
      StartsWithMarker s (if inv then ~~~ s.cfg.asmA else s.cfg.asmA) →
      ∃ t, exec (.fsmUnpack d) s = .next t ∧ t.olen.toNat = s.ilen.toNat - 4 ∧
        (∀ k, k < s.ilen.toNat - 4 → t.obuf.read k =
          s.ibuf.read (4 + k) ^^^ (if inv then 0xFF else 0x00) ^^^
            (if d = 1 then Reference.keyByte s.cfg k else 0x00)) ∧
        (∀ a, s.ilen.toNat - 4 ≤ a → t.obuf.read a = s.obuf.read a) ∧
        t = { s with obuf := t.obuf, olen := t.olen, consumed := s.ilen,
                     lfsr := if d = 1 then Reference.lfsrAfter s.cfg (8 * (s.ilen.toNat - 4)) else s.lfsr,
                     status := { s.status with err := 0x00, inv := inv } })

/-- R191, with the key bytes of R187, R188 and R192. That the bytes of `OBUF` from index `ILEN` on, which R62
calls unspecified, keep their value is log entry 10. -/
def Obligations.LfsrDescrXorsKeyStream : Prop :=
  (∀ rest, decode (0x41 :: rest) = .command .lfsrDescr rest) ∧
  ∀ s : State, s.Inv → ∃ t, exec .lfsrDescr s = .next t ∧
    (∀ k, k < s.ilen.toNat → t.obuf.read k = s.ibuf.read k ^^^ Reference.keyByte s.cfg k) ∧
    (∀ a, s.ilen.toNat ≤ a → t.obuf.read a = s.obuf.read a) ∧
    t = { s with obuf := t.obuf, olen := s.ilen, lfsr := Reference.lfsrAfter s.cfg (8 * s.ilen.toNat),
                 status := { s.status with err := 0x00 } }

/-- R193: unpacking with descrambling is unpacking without it, then `XFER` and `LFSR.DESCR`. -/
def Obligations.FsmDescrambleIsUnpackThenDescramble : Prop :=
  ∀ s : State, s.Inv → 4 ≤ s.ilen.toNat →
    (StartsWithMarker s s.cfg.asmA ∨ StartsWithMarker s (~~~ s.cfg.asmA)) →
    ∃ t u, exec (.fsmUnpack 1) s = .next t ∧
      runAll [.fsmUnpack 0, .xfer, .lfsrDescr] s = some u ∧ t.output = u.output ∧ t.lfsr = u.lfsr

/-- R196: descrambling twice gives the input back. -/
def Obligations.DescramblingTwiceIsIdentity : Prop :=
  ∀ s : State, s.Inv → ∃ t, runAll [.lfsrDescr, .xfer, .lfsrDescr] s = some t ∧ t.output = s.input

/-- R187: with the document's mask the descrambler's own step returns the register to any non-zero value
after 65535 steps and not before, through all the non-zero values. -/
def Obligations.LfsrPeriodIsMaximal : Prop :=
  let next (v : Word) : Word := (lfsrStep Config.default.lfsrPoly v).2
  Config.default.lfsrPoly = 0x8016 ∧
  ∀ v : Word, v ≠ 0 → next^[65535] v = v ∧ (∀ k, 0 < k → k < 65535 → next^[k] v ≠ v) ∧
    ∀ w : Word, w ≠ 0 → ∃ k, k < 65535 ∧ next^[k] v = w

/-- R185: in a buffer, every byte of the inverted marker is the complement of the marker's byte at the same
place, so that no buffer starts with both. -/
def Obligations.MarkersAreComplementary : Prop :=
  ∀ (c : Config) (s : State),
    (∀ k, k < 4 → ∃ b : Byte, (asmBytes c.asmA)[k]? = some b ∧ (asmBytes c.asmB)[k]? = some (~~~ b)) ∧
    ¬ (StartsWithMarker s c.asmA ∧ StartsWithMarker s c.asmB) ∧
    asmBytes Config.default.asmA = [0x1A, 0xCF, 0xFC, 0x1D] ∧
    asmBytes Config.default.asmB = [0xE5, 0x30, 0x03, 0xE2]
end

