-- ==== Sys2Proof/Laws/Bits.lean ====
section
/-! SUPPORT. What the pure helpers of `Machine/Bits.lean` do, bit by bit. -/

namespace Sys2Proof.Machine

/-- Bit `i` of a value rebuilt from bits is the bit at place `i`. -/
theorem getLsbD_ofBitsLE {w : Nat} (l : List Bool) (i : Nat) (h : i < w) :
    (ofBitsLE w l).getLsbD i = l.getD i false := by
  induction l generalizing i with
  | nil => simp [ofBitsLE]
  | cons b t ih =>
    cases i with
    | zero => cases b <;> simp [ofBitsLE, h]
    | succ n =>
      have hn := ih n (by omega)
      have h1 : (if b = true then 1#w else 0#w).getLsbD (n + 1) = false := by
        cases b <;> simp [BitVec.getLsbD_one]
      rw [ofBitsLE, BitVec.getLsbD_or, BitVec.getLsbD_shiftLeft, List.getD_cons_succ, ← hn, h1]
      simp [h]

/-- `bitrev16(v)[i] = v[15-i]` (R11). -/
theorem getLsbD_bitrev16 (v : Word) (i : Nat) (h : i < 16) :
    (bitrev16 v).getLsbD i = v.getLsbD (15 - i) := by
  rw [bitrev16, getLsbD_ofBitsLE _ _ h]
  simp [List.getD_eq_getElem?_getD, h]

/-- `bitrev8(v)[i] = v[7-i]` (R11). -/
theorem getLsbD_bitrev8 (v : Byte) (i : Nat) (h : i < 8) :
    (bitrev8 v).getLsbD i = v.getLsbD (7 - i) := by
  rw [bitrev8, getLsbD_ofBitsLE _ _ h]
  simp [List.getD_eq_getElem?_getD, h]

/-- What `v[i] <- b` does to every bit. -/
theorem getLsbD_setBit {w : Nat} (v : BitVec w) (i : Nat) (b : Bool) (j : Nat) (h : i < w) :
    (setBit v i b).getLsbD j = if j = i then b else v.getLsbD j := by
  have hm : (1#w <<< i).getLsbD j = decide (j = i) := by
    rw [BitVec.getLsbD_shiftLeft, BitVec.getLsbD_one, Bool.eq_iff_iff]
    simp only [Bool.and_eq_true, Bool.not_eq_true', decide_eq_true_eq, decide_eq_false_iff_not]
    omega
  unfold setBit
  by_cases hj : j = i
  · subst hj; cases b <;> simp [h]
  · cases b <;> simp [hm, hj]
    exact fun hv => BitVec.lt_of_getLsbD hv

@[simp] theorem length_lsbits (b : Byte) : (lsbits b).length = 8 := rfl

@[simp] theorem length_bitsOf (s : List Byte) : (bitsOf s).length = 8 * s.length := by
  induction s with
  | nil => rfl
  | cons b t ih => simp only [bitsOf, List.flatMap_cons, List.length_append, length_lsbits,
      List.length_cons] at ih ⊢; omega

@[simp] theorem bitsOf_nil : bitsOf [] = [] := rfl

theorem bitsOf_cons (b : Byte) (t : List Byte) : bitsOf (b :: t) = lsbits b ++ bitsOf t := rfl

theorem bitsOf_append (s t : List Byte) : bitsOf (s ++ t) = bitsOf s ++ bitsOf t := by
  simp [bitsOf]

/-- A byte rebuilt from its own bits. -/
theorem ofBitsLE_lsbits (b : Byte) : ofBitsLE 8 (lsbits b) = b := by
  apply BitVec.eq_of_getLsbD_eq
  intro i hi
  rw [getLsbD_ofBitsLE _ _ hi]
  match i, hi with
  | 0, _ | 1, _ | 2, _ | 3, _ | 4, _ | 5, _ | 6, _ | 7, _ => rfl

theorem packlsb_lsbits_append (b : Byte) (t : List Bool) : packlsb (lsbits b ++ t) = b :: packlsb t := by
  conv_rhs => rw [← ofBitsLE_lsbits b]
  rfl

/-- `packlsb` undoes `bitsOf` (R11). -/
theorem packlsb_bitsOf_append (s : List Byte) (t : List Bool) :
    packlsb (bitsOf s ++ t) = s ++ packlsb t := by
  induction s with
  | nil => rfl
  | cons b s ih => rw [bitsOf_cons, List.append_assoc, packlsb_lsbits_append, ih, List.cons_append]

theorem packlsb_short {bits : List Bool} (h : bits.length < 8) : packlsb bits = [] := by
  unfold packlsb
  split
  · simp only [List.length_cons] at h; omega
  · rfl

/-- Eight bits make one byte. -/
theorem packlsb_eight (l t : List Bool) (h : l.length = 8) :
    packlsb (l ++ t) = ofBitsLE 8 l :: packlsb t := by
  match l, h with
  | [_, _, _, _, _, _, _, _], _ => rfl

theorem length_packlsb (bits : List Bool) : (packlsb bits).length = bits.length / 8 := by
  induction h : bits.length using Nat.strong_induction_on generalizing bits with
  | _ n ih =>
    rcases Nat.lt_or_ge n 8 with hn | hn
    · rw [packlsb_short (by omega)]; simp; omega
    · have hl : (bits.take 8).length = 8 := by simp; omega
      rw [← List.take_append_drop 8 bits, packlsb_eight _ _ hl, List.length_cons,
        ih (n - 8) (by omega) (bits.drop 8) (by simp; omega)]
      omega

/-- Concatenation as a number: the left part above the right part's width. -/
theorem toNat_append_add {n m : Nat} (x : BitVec n) (y : BitVec m) :
    (x ++ y).toNat = x.toNat * 2 ^ m + y.toNat := by
  rw [BitVec.toNat_append, Nat.shiftLeft_eq, Nat.mul_comm, ← Nat.two_pow_add_eq_or_of_lt y.isLt]

end Sys2Proof.Machine
end

