-- ==== Sys2Proof/Laws/State.lean ====
section
/-! SUPPORT. One lemma per field per update of `State`, true by `rfl`, so that no proof unfolds an update;
the normal form of the ways a command ends is `withErr`. -/

namespace Sys2Proof

/-- What an admissible record of parameters satisfies (R8). -/
structure Config.Admissible (c : Config) : Prop where
  bufsz_ge : 8 ≤ c.bufsz
  bufsz_le : c.bufsz ≤ 65535
  lutN     : c.lutN = 256
  hdlcRun  : c.hdlcRun = 5
  asmLen   : c.asmLen = 4

theorem Config.wf_spec {c : Config} (h : c.wf = true) : c.Admissible := by
  simp only [Config.wf, Bool.and_eq_true, decide_eq_true_eq, beq_iff_eq] at h
  exact ⟨h.1.1, h.1.2, h.2.1.1, h.2.1.2, h.2.2⟩

end Sys2Proof

namespace Sys2Proof.Machine

@[simp] theorem State.ok_eq (s : State) : s.ok = s.withErr eOk := rfl
@[simp] theorem State.fail_eq (s : State) (e : BitVec 8) : s.fail e = s.withErr e := rfl
@[simp] theorem State.faultIllop_eq (s : State) : s.faultIllop = (s.withErr eIllop).withFault := rfl

/-! ### `withErr` -/

@[simp] theorem State.withErr_cfg (s : State) (e : BitVec 8) :
    (s.withErr e).cfg = s.cfg := rfl
@[simp] theorem State.withErr_cmd (s : State) (e : BitVec 8) :
    (s.withErr e).cmd = s.cmd := rfl
@[simp] theorem State.withErr_resetIn (s : State) (e : BitVec 8) :
    (s.withErr e).resetIn = s.resetIn := rfl
@[simp] theorem State.withErr_rsp (s : State) (e : BitVec 8) :
    (s.withErr e).rsp = s.rsp := rfl
@[simp] theorem State.withErr_status (s : State) (e : BitVec 8) :
    (s.withErr e).status = { s.status with err := e } := rfl
@[simp] theorem State.withErr_ilen (s : State) (e : BitVec 8) :
    (s.withErr e).ilen = s.ilen := rfl
@[simp] theorem State.withErr_olen (s : State) (e : BitVec 8) :
    (s.withErr e).olen = s.olen := rfl
@[simp] theorem State.withErr_consumed (s : State) (e : BitVec 8) :
    (s.withErr e).consumed = s.consumed := rfl
@[simp] theorem State.withErr_crcPoly (s : State) (e : BitVec 8) :
    (s.withErr e).crcPoly = s.crcPoly := rfl
@[simp] theorem State.withErr_crcInit (s : State) (e : BitVec 8) :
    (s.withErr e).crcInit = s.crcInit := rfl
@[simp] theorem State.withErr_crcXorout (s : State) (e : BitVec 8) :
    (s.withErr e).crcXorout = s.crcXorout := rfl
@[simp] theorem State.withErr_lsbf (s : State) (e : BitVec 8) :
    (s.withErr e).lsbf = s.lsbf := rfl
@[simp] theorem State.withErr_crcRem (s : State) (e : BitVec 8) :
    (s.withErr e).crcRem = s.crcRem := rfl
@[simp] theorem State.withErr_crcResult (s : State) (e : BitVec 8) :
    (s.withErr e).crcResult = s.crcResult := rfl
@[simp] theorem State.withErr_lfsr (s : State) (e : BitVec 8) :
    (s.withErr e).lfsr = s.lfsr := rfl
@[simp] theorem State.withErr_ibuf (s : State) (e : BitVec 8) :
    (s.withErr e).ibuf = s.ibuf := rfl
@[simp] theorem State.withErr_obuf (s : State) (e : BitVec 8) :
    (s.withErr e).obuf = s.obuf := rfl
@[simp] theorem State.withErr_lut (s : State) (e : BitVec 8) :
    (s.withErr e).lut = s.lut := rfl

/-! ### `withFault` -/

@[simp] theorem State.withFault_cfg (s : State) :
    s.withFault.cfg = s.cfg := rfl
@[simp] theorem State.withFault_cmd (s : State) :
    s.withFault.cmd = s.cmd := rfl
@[simp] theorem State.withFault_resetIn (s : State) :
    s.withFault.resetIn = s.resetIn := rfl
@[simp] theorem State.withFault_rsp (s : State) :
    s.withFault.rsp = s.rsp := rfl
@[simp] theorem State.withFault_status (s : State) :
    s.withFault.status = { s.status with fault := true } := rfl
@[simp] theorem State.withFault_ilen (s : State) :
    s.withFault.ilen = s.ilen := rfl
@[simp] theorem State.withFault_olen (s : State) :
    s.withFault.olen = s.olen := rfl
@[simp] theorem State.withFault_consumed (s : State) :
    s.withFault.consumed = s.consumed := rfl
@[simp] theorem State.withFault_crcPoly (s : State) :
    s.withFault.crcPoly = s.crcPoly := rfl
@[simp] theorem State.withFault_crcInit (s : State) :
    s.withFault.crcInit = s.crcInit := rfl
@[simp] theorem State.withFault_crcXorout (s : State) :
    s.withFault.crcXorout = s.crcXorout := rfl
@[simp] theorem State.withFault_lsbf (s : State) :
    s.withFault.lsbf = s.lsbf := rfl
@[simp] theorem State.withFault_crcRem (s : State) :
    s.withFault.crcRem = s.crcRem := rfl
@[simp] theorem State.withFault_crcResult (s : State) :
    s.withFault.crcResult = s.crcResult := rfl
@[simp] theorem State.withFault_lfsr (s : State) :
    s.withFault.lfsr = s.lfsr := rfl
@[simp] theorem State.withFault_ibuf (s : State) :
    s.withFault.ibuf = s.ibuf := rfl
@[simp] theorem State.withFault_obuf (s : State) :
    s.withFault.obuf = s.obuf := rfl
@[simp] theorem State.withFault_lut (s : State) :
    s.withFault.lut = s.lut := rfl

/-! ### `withConfigured` -/

@[simp] theorem State.withConfigured_cfg (s : State) :
    s.withConfigured.cfg = s.cfg := rfl
@[simp] theorem State.withConfigured_cmd (s : State) :
    s.withConfigured.cmd = s.cmd := rfl
@[simp] theorem State.withConfigured_resetIn (s : State) :
    s.withConfigured.resetIn = s.resetIn := rfl
@[simp] theorem State.withConfigured_rsp (s : State) :
    s.withConfigured.rsp = s.rsp := rfl
@[simp] theorem State.withConfigured_status (s : State) :
    s.withConfigured.status = { s.status with cfgd := true, run := false } := rfl
@[simp] theorem State.withConfigured_ilen (s : State) :
    s.withConfigured.ilen = s.ilen := rfl
@[simp] theorem State.withConfigured_olen (s : State) :
    s.withConfigured.olen = s.olen := rfl
@[simp] theorem State.withConfigured_consumed (s : State) :
    s.withConfigured.consumed = s.consumed := rfl
@[simp] theorem State.withConfigured_crcPoly (s : State) :
    s.withConfigured.crcPoly = s.crcPoly := rfl
@[simp] theorem State.withConfigured_crcInit (s : State) :
    s.withConfigured.crcInit = s.crcInit := rfl
@[simp] theorem State.withConfigured_crcXorout (s : State) :
    s.withConfigured.crcXorout = s.crcXorout := rfl
@[simp] theorem State.withConfigured_lsbf (s : State) :
    s.withConfigured.lsbf = s.lsbf := rfl
@[simp] theorem State.withConfigured_crcRem (s : State) :
    s.withConfigured.crcRem = s.crcRem := rfl
@[simp] theorem State.withConfigured_crcResult (s : State) :
    s.withConfigured.crcResult = s.crcResult := rfl
@[simp] theorem State.withConfigured_lfsr (s : State) :
    s.withConfigured.lfsr = s.lfsr := rfl
@[simp] theorem State.withConfigured_ibuf (s : State) :
    s.withConfigured.ibuf = s.ibuf := rfl
@[simp] theorem State.withConfigured_obuf (s : State) :
    s.withConfigured.obuf = s.obuf := rfl
@[simp] theorem State.withConfigured_lut (s : State) :
    s.withConfigured.lut = s.lut := rfl

/-! ### `withRunning` -/

@[simp] theorem State.withRunning_cfg (s : State) :
    s.withRunning.cfg = s.cfg := rfl
@[simp] theorem State.withRunning_cmd (s : State) :
    s.withRunning.cmd = s.cmd := rfl
@[simp] theorem State.withRunning_resetIn (s : State) :
    s.withRunning.resetIn = s.resetIn := rfl
@[simp] theorem State.withRunning_rsp (s : State) :
    s.withRunning.rsp = s.rsp := rfl
@[simp] theorem State.withRunning_status (s : State) :
    s.withRunning.status = { s.status with run := true } := rfl
@[simp] theorem State.withRunning_ilen (s : State) :
    s.withRunning.ilen = s.ilen := rfl
@[simp] theorem State.withRunning_olen (s : State) :
    s.withRunning.olen = s.olen := rfl
@[simp] theorem State.withRunning_consumed (s : State) :
    s.withRunning.consumed = s.consumed := rfl
@[simp] theorem State.withRunning_crcPoly (s : State) :
    s.withRunning.crcPoly = s.crcPoly := rfl
@[simp] theorem State.withRunning_crcInit (s : State) :
    s.withRunning.crcInit = s.crcInit := rfl
@[simp] theorem State.withRunning_crcXorout (s : State) :
    s.withRunning.crcXorout = s.crcXorout := rfl
@[simp] theorem State.withRunning_lsbf (s : State) :
    s.withRunning.lsbf = s.lsbf := rfl
@[simp] theorem State.withRunning_crcRem (s : State) :
    s.withRunning.crcRem = s.crcRem := rfl
@[simp] theorem State.withRunning_crcResult (s : State) :
    s.withRunning.crcResult = s.crcResult := rfl
@[simp] theorem State.withRunning_lfsr (s : State) :
    s.withRunning.lfsr = s.lfsr := rfl
@[simp] theorem State.withRunning_ibuf (s : State) :
    s.withRunning.ibuf = s.ibuf := rfl
@[simp] theorem State.withRunning_obuf (s : State) :
    s.withRunning.obuf = s.obuf := rfl
@[simp] theorem State.withRunning_lut (s : State) :
    s.withRunning.lut = s.lut := rfl

/-! ### `withInv` -/

@[simp] theorem State.withInv_cfg (s : State) (inv : Bool) :
    (s.withInv inv).cfg = s.cfg := rfl
@[simp] theorem State.withInv_cmd (s : State) (inv : Bool) :
    (s.withInv inv).cmd = s.cmd := rfl
@[simp] theorem State.withInv_resetIn (s : State) (inv : Bool) :
    (s.withInv inv).resetIn = s.resetIn := rfl
@[simp] theorem State.withInv_rsp (s : State) (inv : Bool) :
    (s.withInv inv).rsp = s.rsp := rfl
@[simp] theorem State.withInv_status (s : State) (inv : Bool) :
    (s.withInv inv).status = { s.status with inv := inv } := rfl
@[simp] theorem State.withInv_ilen (s : State) (inv : Bool) :
    (s.withInv inv).ilen = s.ilen := rfl
@[simp] theorem State.withInv_olen (s : State) (inv : Bool) :
    (s.withInv inv).olen = s.olen := rfl
@[simp] theorem State.withInv_consumed (s : State) (inv : Bool) :
    (s.withInv inv).consumed = s.consumed := rfl
@[simp] theorem State.withInv_crcPoly (s : State) (inv : Bool) :
    (s.withInv inv).crcPoly = s.crcPoly := rfl
@[simp] theorem State.withInv_crcInit (s : State) (inv : Bool) :
    (s.withInv inv).crcInit = s.crcInit := rfl
@[simp] theorem State.withInv_crcXorout (s : State) (inv : Bool) :
    (s.withInv inv).crcXorout = s.crcXorout := rfl
@[simp] theorem State.withInv_lsbf (s : State) (inv : Bool) :
    (s.withInv inv).lsbf = s.lsbf := rfl
@[simp] theorem State.withInv_crcRem (s : State) (inv : Bool) :
    (s.withInv inv).crcRem = s.crcRem := rfl
@[simp] theorem State.withInv_crcResult (s : State) (inv : Bool) :
    (s.withInv inv).crcResult = s.crcResult := rfl
@[simp] theorem State.withInv_lfsr (s : State) (inv : Bool) :
    (s.withInv inv).lfsr = s.lfsr := rfl
@[simp] theorem State.withInv_ibuf (s : State) (inv : Bool) :
    (s.withInv inv).ibuf = s.ibuf := rfl
@[simp] theorem State.withInv_obuf (s : State) (inv : Bool) :
    (s.withInv inv).obuf = s.obuf := rfl
@[simp] theorem State.withInv_lut (s : State) (inv : Bool) :
    (s.withInv inv).lut = s.lut := rfl

/-! ### `withEnd` -/

@[simp] theorem State.withEnd_cfg (s : State) (eof : Bool) (n : Nat) :
    (s.withEnd eof n).cfg = s.cfg := rfl
@[simp] theorem State.withEnd_cmd (s : State) (eof : Bool) (n : Nat) :
    (s.withEnd eof n).cmd = s.cmd := rfl
@[simp] theorem State.withEnd_resetIn (s : State) (eof : Bool) (n : Nat) :
    (s.withEnd eof n).resetIn = s.resetIn := rfl
@[simp] theorem State.withEnd_rsp (s : State) (eof : Bool) (n : Nat) :
    (s.withEnd eof n).rsp = s.rsp := rfl
@[simp] theorem State.withEnd_status (s : State) (eof : Bool) (n : Nat) :
    (s.withEnd eof n).status = { s.status with eof := eof, resid := BitVec.ofNat 3 n } := rfl
@[simp] theorem State.withEnd_ilen (s : State) (eof : Bool) (n : Nat) :
    (s.withEnd eof n).ilen = s.ilen := rfl
@[simp] theorem State.withEnd_olen (s : State) (eof : Bool) (n : Nat) :
    (s.withEnd eof n).olen = s.olen := rfl
@[simp] theorem State.withEnd_consumed (s : State) (eof : Bool) (n : Nat) :
    (s.withEnd eof n).consumed = s.consumed := rfl
@[simp] theorem State.withEnd_crcPoly (s : State) (eof : Bool) (n : Nat) :
    (s.withEnd eof n).crcPoly = s.crcPoly := rfl
@[simp] theorem State.withEnd_crcInit (s : State) (eof : Bool) (n : Nat) :
    (s.withEnd eof n).crcInit = s.crcInit := rfl
@[simp] theorem State.withEnd_crcXorout (s : State) (eof : Bool) (n : Nat) :
    (s.withEnd eof n).crcXorout = s.crcXorout := rfl
@[simp] theorem State.withEnd_lsbf (s : State) (eof : Bool) (n : Nat) :
    (s.withEnd eof n).lsbf = s.lsbf := rfl
@[simp] theorem State.withEnd_crcRem (s : State) (eof : Bool) (n : Nat) :
    (s.withEnd eof n).crcRem = s.crcRem := rfl
@[simp] theorem State.withEnd_crcResult (s : State) (eof : Bool) (n : Nat) :
    (s.withEnd eof n).crcResult = s.crcResult := rfl
@[simp] theorem State.withEnd_lfsr (s : State) (eof : Bool) (n : Nat) :
    (s.withEnd eof n).lfsr = s.lfsr := rfl
@[simp] theorem State.withEnd_ibuf (s : State) (eof : Bool) (n : Nat) :
    (s.withEnd eof n).ibuf = s.ibuf := rfl
@[simp] theorem State.withEnd_obuf (s : State) (eof : Bool) (n : Nat) :
    (s.withEnd eof n).obuf = s.obuf := rfl
@[simp] theorem State.withEnd_lut (s : State) (eof : Bool) (n : Nat) :
    (s.withEnd eof n).lut = s.lut := rfl

/-! ### `emit` -/

@[simp] theorem State.emit_cfg (s : State) (w : Word) :
    (s.emit w).cfg = s.cfg := rfl
@[simp] theorem State.emit_cmd (s : State) (w : Word) :
    (s.emit w).cmd = s.cmd := rfl
@[simp] theorem State.emit_resetIn (s : State) (w : Word) :
    (s.emit w).resetIn = s.resetIn := rfl
@[simp] theorem State.emit_rsp (s : State) (w : Word) :
    (s.emit w).rsp = s.rsp ++ [w] := rfl
@[simp] theorem State.emit_status (s : State) (w : Word) :
    (s.emit w).status = s.status := rfl
@[simp] theorem State.emit_ilen (s : State) (w : Word) :
    (s.emit w).ilen = s.ilen := rfl
@[simp] theorem State.emit_olen (s : State) (w : Word) :
    (s.emit w).olen = s.olen := rfl
@[simp] theorem State.emit_consumed (s : State) (w : Word) :
    (s.emit w).consumed = s.consumed := rfl
@[simp] theorem State.emit_crcPoly (s : State) (w : Word) :
    (s.emit w).crcPoly = s.crcPoly := rfl
@[simp] theorem State.emit_crcInit (s : State) (w : Word) :
    (s.emit w).crcInit = s.crcInit := rfl
@[simp] theorem State.emit_crcXorout (s : State) (w : Word) :
    (s.emit w).crcXorout = s.crcXorout := rfl
@[simp] theorem State.emit_lsbf (s : State) (w : Word) :
    (s.emit w).lsbf = s.lsbf := rfl
@[simp] theorem State.emit_crcRem (s : State) (w : Word) :
    (s.emit w).crcRem = s.crcRem := rfl
@[simp] theorem State.emit_crcResult (s : State) (w : Word) :
    (s.emit w).crcResult = s.crcResult := rfl
@[simp] theorem State.emit_lfsr (s : State) (w : Word) :
    (s.emit w).lfsr = s.lfsr := rfl
@[simp] theorem State.emit_ibuf (s : State) (w : Word) :
    (s.emit w).ibuf = s.ibuf := rfl
@[simp] theorem State.emit_obuf (s : State) (w : Word) :
    (s.emit w).obuf = s.obuf := rfl
@[simp] theorem State.emit_lut (s : State) (w : Word) :
    (s.emit w).lut = s.lut := rfl

/-! ### `withOutput` -/

@[simp] theorem State.withOutput_cfg (s : State) (out : List Byte) :
    (s.withOutput out).cfg = s.cfg := rfl
@[simp] theorem State.withOutput_cmd (s : State) (out : List Byte) :
    (s.withOutput out).cmd = s.cmd := rfl
@[simp] theorem State.withOutput_resetIn (s : State) (out : List Byte) :
    (s.withOutput out).resetIn = s.resetIn := rfl
@[simp] theorem State.withOutput_rsp (s : State) (out : List Byte) :
    (s.withOutput out).rsp = s.rsp := rfl
@[simp] theorem State.withOutput_status (s : State) (out : List Byte) :
    (s.withOutput out).status = s.status := rfl
@[simp] theorem State.withOutput_ilen (s : State) (out : List Byte) :
    (s.withOutput out).ilen = s.ilen := rfl
@[simp] theorem State.withOutput_olen (s : State) (out : List Byte) :
    (s.withOutput out).olen = BitVec.ofNat 16 out.length := rfl
@[simp] theorem State.withOutput_consumed (s : State) (out : List Byte) :
    (s.withOutput out).consumed = s.consumed := rfl
@[simp] theorem State.withOutput_crcPoly (s : State) (out : List Byte) :
    (s.withOutput out).crcPoly = s.crcPoly := rfl
@[simp] theorem State.withOutput_crcInit (s : State) (out : List Byte) :
    (s.withOutput out).crcInit = s.crcInit := rfl
@[simp] theorem State.withOutput_crcXorout (s : State) (out : List Byte) :
    (s.withOutput out).crcXorout = s.crcXorout := rfl
@[simp] theorem State.withOutput_lsbf (s : State) (out : List Byte) :
    (s.withOutput out).lsbf = s.lsbf := rfl
@[simp] theorem State.withOutput_crcRem (s : State) (out : List Byte) :
    (s.withOutput out).crcRem = s.crcRem := rfl
@[simp] theorem State.withOutput_crcResult (s : State) (out : List Byte) :
    (s.withOutput out).crcResult = s.crcResult := rfl
@[simp] theorem State.withOutput_lfsr (s : State) (out : List Byte) :
    (s.withOutput out).lfsr = s.lfsr := rfl
@[simp] theorem State.withOutput_ibuf (s : State) (out : List Byte) :
    (s.withOutput out).ibuf = s.ibuf := rfl
@[simp] theorem State.withOutput_obuf (s : State) (out : List Byte) :
    (s.withOutput out).obuf = s.obuf.writeBytes 0 out := rfl
@[simp] theorem State.withOutput_lut (s : State) (out : List Byte) :
    (s.withOutput out).lut = s.lut := rfl

/-! ### `withInput` -/

@[simp] theorem State.withInput_cfg (s : State) (bs : List Byte) :
    (s.withInput bs).cfg = s.cfg := rfl
@[simp] theorem State.withInput_cmd (s : State) (bs : List Byte) :
    (s.withInput bs).cmd = s.cmd := rfl
@[simp] theorem State.withInput_resetIn (s : State) (bs : List Byte) :
    (s.withInput bs).resetIn = s.resetIn := rfl
@[simp] theorem State.withInput_rsp (s : State) (bs : List Byte) :
    (s.withInput bs).rsp = s.rsp := rfl
@[simp] theorem State.withInput_status (s : State) (bs : List Byte) :
    (s.withInput bs).status = s.status := rfl
@[simp] theorem State.withInput_ilen (s : State) (bs : List Byte) :
    (s.withInput bs).ilen = BitVec.ofNat 16 bs.length := rfl
@[simp] theorem State.withInput_olen (s : State) (bs : List Byte) :
    (s.withInput bs).olen = s.olen := rfl
@[simp] theorem State.withInput_consumed (s : State) (bs : List Byte) :
    (s.withInput bs).consumed = s.consumed := rfl
@[simp] theorem State.withInput_crcPoly (s : State) (bs : List Byte) :
    (s.withInput bs).crcPoly = s.crcPoly := rfl
@[simp] theorem State.withInput_crcInit (s : State) (bs : List Byte) :
    (s.withInput bs).crcInit = s.crcInit := rfl
@[simp] theorem State.withInput_crcXorout (s : State) (bs : List Byte) :
    (s.withInput bs).crcXorout = s.crcXorout := rfl
@[simp] theorem State.withInput_lsbf (s : State) (bs : List Byte) :
    (s.withInput bs).lsbf = s.lsbf := rfl
@[simp] theorem State.withInput_crcRem (s : State) (bs : List Byte) :
    (s.withInput bs).crcRem = s.crcRem := rfl
@[simp] theorem State.withInput_crcResult (s : State) (bs : List Byte) :
    (s.withInput bs).crcResult = s.crcResult := rfl
@[simp] theorem State.withInput_lfsr (s : State) (bs : List Byte) :
    (s.withInput bs).lfsr = s.lfsr := rfl
@[simp] theorem State.withInput_ibuf (s : State) (bs : List Byte) :
    (s.withInput bs).ibuf = s.ibuf.writeBytes 0 bs := rfl
@[simp] theorem State.withInput_obuf (s : State) (bs : List Byte) :
    (s.withInput bs).obuf = s.obuf := rfl
@[simp] theorem State.withInput_lut (s : State) (bs : List Byte) :
    (s.withInput bs).lut = s.lut := rfl

/-! ### `pushInput` -/

@[simp] theorem State.pushInput_cfg (s : State) (b : Byte) :
    (s.pushInput b).cfg = s.cfg := rfl
@[simp] theorem State.pushInput_cmd (s : State) (b : Byte) :
    (s.pushInput b).cmd = s.cmd := rfl
@[simp] theorem State.pushInput_resetIn (s : State) (b : Byte) :
    (s.pushInput b).resetIn = s.resetIn := rfl
@[simp] theorem State.pushInput_rsp (s : State) (b : Byte) :
    (s.pushInput b).rsp = s.rsp := rfl
@[simp] theorem State.pushInput_status (s : State) (b : Byte) :
    (s.pushInput b).status = s.status := rfl
@[simp] theorem State.pushInput_ilen (s : State) (b : Byte) :
    (s.pushInput b).ilen = s.ilen + 1 := rfl
@[simp] theorem State.pushInput_olen (s : State) (b : Byte) :
    (s.pushInput b).olen = s.olen := rfl
@[simp] theorem State.pushInput_consumed (s : State) (b : Byte) :
    (s.pushInput b).consumed = s.consumed := rfl
@[simp] theorem State.pushInput_crcPoly (s : State) (b : Byte) :
    (s.pushInput b).crcPoly = s.crcPoly := rfl
@[simp] theorem State.pushInput_crcInit (s : State) (b : Byte) :
    (s.pushInput b).crcInit = s.crcInit := rfl
@[simp] theorem State.pushInput_crcXorout (s : State) (b : Byte) :
    (s.pushInput b).crcXorout = s.crcXorout := rfl
@[simp] theorem State.pushInput_lsbf (s : State) (b : Byte) :
    (s.pushInput b).lsbf = s.lsbf := rfl
@[simp] theorem State.pushInput_crcRem (s : State) (b : Byte) :
    (s.pushInput b).crcRem = s.crcRem := rfl
@[simp] theorem State.pushInput_crcResult (s : State) (b : Byte) :
    (s.pushInput b).crcResult = s.crcResult := rfl
@[simp] theorem State.pushInput_lfsr (s : State) (b : Byte) :
    (s.pushInput b).lfsr = s.lfsr := rfl
@[simp] theorem State.pushInput_ibuf (s : State) (b : Byte) :
    (s.pushInput b).ibuf = s.ibuf.write s.ilen.toNat b := rfl
@[simp] theorem State.pushInput_obuf (s : State) (b : Byte) :
    (s.pushInput b).obuf = s.obuf := rfl
@[simp] theorem State.pushInput_lut (s : State) (b : Byte) :
    (s.pushInput b).lut = s.lut := rfl

/-! ### `withResetValues` -/

@[simp] theorem State.withResetValues_cfg (s : State) :
    s.withResetValues.cfg = s.cfg := rfl
@[simp] theorem State.withResetValues_cmd (s : State) :
    s.withResetValues.cmd = s.cmd := rfl
@[simp] theorem State.withResetValues_resetIn (s : State) :
    s.withResetValues.resetIn = s.resetIn := rfl
@[simp] theorem State.withResetValues_rsp (s : State) :
    s.withResetValues.rsp = s.rsp := rfl
@[simp] theorem State.withResetValues_status (s : State) :
    s.withResetValues.status = Status.zero := rfl
@[simp] theorem State.withResetValues_ilen (s : State) :
    s.withResetValues.ilen = 0 := rfl
@[simp] theorem State.withResetValues_olen (s : State) :
    s.withResetValues.olen = 0 := rfl
@[simp] theorem State.withResetValues_consumed (s : State) :
    s.withResetValues.consumed = 0 := rfl
@[simp] theorem State.withResetValues_crcPoly (s : State) :
    s.withResetValues.crcPoly = 0 := rfl
@[simp] theorem State.withResetValues_crcInit (s : State) :
    s.withResetValues.crcInit = 0 := rfl
@[simp] theorem State.withResetValues_crcXorout (s : State) :
    s.withResetValues.crcXorout = 0 := rfl
@[simp] theorem State.withResetValues_lsbf (s : State) :
    s.withResetValues.lsbf = false := rfl
@[simp] theorem State.withResetValues_crcRem (s : State) :
    s.withResetValues.crcRem = 0 := rfl
@[simp] theorem State.withResetValues_crcResult (s : State) :
    s.withResetValues.crcResult = 0 := rfl
@[simp] theorem State.withResetValues_lfsr (s : State) :
    s.withResetValues.lfsr = s.cfg.lfsrSeed := rfl
@[simp] theorem State.withResetValues_ibuf (s : State) :
    s.withResetValues.ibuf = [] := rfl
@[simp] theorem State.withResetValues_obuf (s : State) :
    s.withResetValues.obuf = [] := rfl
@[simp] theorem State.withResetValues_lut (s : State) :
    s.withResetValues.lut = List.replicate s.cfg.lutN 0 := rfl

/-! ### `hardReset` -/

@[simp] theorem State.hardReset_cfg (s : State) :
    s.hardReset.cfg = s.cfg := rfl
@[simp] theorem State.hardReset_cmd (s : State) :
    s.hardReset.cmd = [] := rfl
@[simp] theorem State.hardReset_resetIn (s : State) :
    s.hardReset.resetIn = false := rfl
@[simp] theorem State.hardReset_rsp (s : State) :
    s.hardReset.rsp = s.rsp := rfl
@[simp] theorem State.hardReset_status (s : State) :
    s.hardReset.status = Status.zero := rfl
@[simp] theorem State.hardReset_ilen (s : State) :
    s.hardReset.ilen = 0 := rfl
@[simp] theorem State.hardReset_olen (s : State) :
    s.hardReset.olen = 0 := rfl
@[simp] theorem State.hardReset_consumed (s : State) :
    s.hardReset.consumed = 0 := rfl
@[simp] theorem State.hardReset_crcPoly (s : State) :
    s.hardReset.crcPoly = 0 := rfl
@[simp] theorem State.hardReset_crcInit (s : State) :
    s.hardReset.crcInit = 0 := rfl
@[simp] theorem State.hardReset_crcXorout (s : State) :
    s.hardReset.crcXorout = 0 := rfl
@[simp] theorem State.hardReset_lsbf (s : State) :
    s.hardReset.lsbf = false := rfl
@[simp] theorem State.hardReset_crcRem (s : State) :
    s.hardReset.crcRem = 0 := rfl
@[simp] theorem State.hardReset_crcResult (s : State) :
    s.hardReset.crcResult = 0 := rfl
@[simp] theorem State.hardReset_lfsr (s : State) :
    s.hardReset.lfsr = s.cfg.lfsrSeed := rfl
@[simp] theorem State.hardReset_ibuf (s : State) :
    s.hardReset.ibuf = [] := rfl
@[simp] theorem State.hardReset_obuf (s : State) :
    s.hardReset.obuf = [] := rfl
@[simp] theorem State.hardReset_lut (s : State) :
    s.hardReset.lut = List.replicate s.cfg.lutN 0 := rfl

/-! ### `configure` -/

@[simp] theorem State.configure_cfg (s : State) (poly init xorout : Word) (lsbf : Bool) :
    (s.configure poly init xorout lsbf).cfg = s.cfg := rfl
@[simp] theorem State.configure_cmd (s : State) (poly init xorout : Word) (lsbf : Bool) :
    (s.configure poly init xorout lsbf).cmd = s.cmd := rfl
@[simp] theorem State.configure_resetIn (s : State) (poly init xorout : Word) (lsbf : Bool) :
    (s.configure poly init xorout lsbf).resetIn = s.resetIn := rfl
@[simp] theorem State.configure_rsp (s : State) (poly init xorout : Word) (lsbf : Bool) :
    (s.configure poly init xorout lsbf).rsp = s.rsp := rfl
@[simp] theorem State.configure_status (s : State) (poly init xorout : Word) (lsbf : Bool) :
    (s.configure poly init xorout lsbf).status = { s.status with cfgd := true, run := false } := rfl
@[simp] theorem State.configure_ilen (s : State) (poly init xorout : Word) (lsbf : Bool) :
    (s.configure poly init xorout lsbf).ilen = s.ilen := rfl
@[simp] theorem State.configure_olen (s : State) (poly init xorout : Word) (lsbf : Bool) :
    (s.configure poly init xorout lsbf).olen = s.olen := rfl
@[simp] theorem State.configure_consumed (s : State) (poly init xorout : Word) (lsbf : Bool) :
    (s.configure poly init xorout lsbf).consumed = s.consumed := rfl
@[simp] theorem State.configure_crcPoly (s : State) (poly init xorout : Word) (lsbf : Bool) :
    (s.configure poly init xorout lsbf).crcPoly = poly := rfl
@[simp] theorem State.configure_crcInit (s : State) (poly init xorout : Word) (lsbf : Bool) :
    (s.configure poly init xorout lsbf).crcInit = init := rfl
@[simp] theorem State.configure_crcXorout (s : State) (poly init xorout : Word) (lsbf : Bool) :
    (s.configure poly init xorout lsbf).crcXorout = xorout := rfl
@[simp] theorem State.configure_lsbf (s : State) (poly init xorout : Word) (lsbf : Bool) :
    (s.configure poly init xorout lsbf).lsbf = lsbf := rfl
@[simp] theorem State.configure_crcRem (s : State) (poly init xorout : Word) (lsbf : Bool) :
    (s.configure poly init xorout lsbf).crcRem = s.crcRem := rfl
@[simp] theorem State.configure_crcResult (s : State) (poly init xorout : Word) (lsbf : Bool) :
    (s.configure poly init xorout lsbf).crcResult = s.crcResult := rfl
@[simp] theorem State.configure_lfsr (s : State) (poly init xorout : Word) (lsbf : Bool) :
    (s.configure poly init xorout lsbf).lfsr = s.lfsr := rfl
@[simp] theorem State.configure_ibuf (s : State) (poly init xorout : Word) (lsbf : Bool) :
    (s.configure poly init xorout lsbf).ibuf = s.ibuf := rfl
@[simp] theorem State.configure_obuf (s : State) (poly init xorout : Word) (lsbf : Bool) :
    (s.configure poly init xorout lsbf).obuf = s.obuf := rfl
@[simp] theorem State.configure_lut (s : State) (poly init xorout : Word) (lsbf : Bool) :
    (s.configure poly init xorout lsbf).lut = lutBuild s.cfg.lutN poly lsbf := rfl

/-! ### `crcBegin` -/

@[simp] theorem State.crcBegin_cfg (s : State) :
    s.crcBegin.cfg = s.cfg := rfl
@[simp] theorem State.crcBegin_cmd (s : State) :
    s.crcBegin.cmd = s.cmd := rfl
@[simp] theorem State.crcBegin_resetIn (s : State) :
    s.crcBegin.resetIn = s.resetIn := rfl
@[simp] theorem State.crcBegin_rsp (s : State) :
    s.crcBegin.rsp = s.rsp := rfl
@[simp] theorem State.crcBegin_status (s : State) :
    s.crcBegin.status = { s.status with run := true } := rfl
@[simp] theorem State.crcBegin_ilen (s : State) :
    s.crcBegin.ilen = s.ilen := rfl
@[simp] theorem State.crcBegin_olen (s : State) :
    s.crcBegin.olen = s.olen := rfl
@[simp] theorem State.crcBegin_consumed (s : State) :
    s.crcBegin.consumed = s.consumed := rfl
@[simp] theorem State.crcBegin_crcPoly (s : State) :
    s.crcBegin.crcPoly = s.crcPoly := rfl
@[simp] theorem State.crcBegin_crcInit (s : State) :
    s.crcBegin.crcInit = s.crcInit := rfl
@[simp] theorem State.crcBegin_crcXorout (s : State) :
    s.crcBegin.crcXorout = s.crcXorout := rfl
@[simp] theorem State.crcBegin_lsbf (s : State) :
    s.crcBegin.lsbf = s.lsbf := rfl
@[simp] theorem State.crcBegin_crcRem (s : State) :
    s.crcBegin.crcRem = orient s.lsbf s.crcInit := rfl
@[simp] theorem State.crcBegin_crcResult (s : State) :
    s.crcBegin.crcResult = s.crcResult := rfl
@[simp] theorem State.crcBegin_lfsr (s : State) :
    s.crcBegin.lfsr = s.lfsr := rfl
@[simp] theorem State.crcBegin_ibuf (s : State) :
    s.crcBegin.ibuf = s.ibuf := rfl
@[simp] theorem State.crcBegin_obuf (s : State) :
    s.crcBegin.obuf = s.obuf := rfl
@[simp] theorem State.crcBegin_lut (s : State) :
    s.crcBegin.lut = s.lut := rfl

/-! ### `crcFeed` -/

@[simp] theorem State.crcFeed_cfg (s : State) :
    s.crcFeed.cfg = s.cfg := rfl
@[simp] theorem State.crcFeed_cmd (s : State) :
    s.crcFeed.cmd = s.cmd := rfl
@[simp] theorem State.crcFeed_resetIn (s : State) :
    s.crcFeed.resetIn = s.resetIn := rfl
@[simp] theorem State.crcFeed_rsp (s : State) :
    s.crcFeed.rsp = s.rsp := rfl
@[simp] theorem State.crcFeed_status (s : State) :
    s.crcFeed.status = s.status := rfl
@[simp] theorem State.crcFeed_ilen (s : State) :
    s.crcFeed.ilen = s.ilen := rfl
@[simp] theorem State.crcFeed_olen (s : State) :
    s.crcFeed.olen = s.olen := rfl
@[simp] theorem State.crcFeed_consumed (s : State) :
    s.crcFeed.consumed = s.consumed := rfl
@[simp] theorem State.crcFeed_crcPoly (s : State) :
    s.crcFeed.crcPoly = s.crcPoly := rfl
@[simp] theorem State.crcFeed_crcInit (s : State) :
    s.crcFeed.crcInit = s.crcInit := rfl
@[simp] theorem State.crcFeed_crcXorout (s : State) :
    s.crcFeed.crcXorout = s.crcXorout := rfl
@[simp] theorem State.crcFeed_lsbf (s : State) :
    s.crcFeed.lsbf = s.lsbf := rfl
@[simp] theorem State.crcFeed_crcRem (s : State) :
    s.crcFeed.crcRem = s.input.foldl (crcStep s.lsbf s.lutAt) s.crcRem := rfl
@[simp] theorem State.crcFeed_crcResult (s : State) :
    s.crcFeed.crcResult = s.crcResult := rfl
@[simp] theorem State.crcFeed_lfsr (s : State) :
    s.crcFeed.lfsr = s.lfsr := rfl
@[simp] theorem State.crcFeed_ibuf (s : State) :
    s.crcFeed.ibuf = s.ibuf := rfl
@[simp] theorem State.crcFeed_obuf (s : State) :
    s.crcFeed.obuf = s.obuf := rfl
@[simp] theorem State.crcFeed_lut (s : State) :
    s.crcFeed.lut = s.lut := rfl

/-! ### `crcFinish` -/

@[simp] theorem State.crcFinish_cfg (s : State) :
    s.crcFinish.cfg = s.cfg := rfl
@[simp] theorem State.crcFinish_cmd (s : State) :
    s.crcFinish.cmd = s.cmd := rfl
@[simp] theorem State.crcFinish_resetIn (s : State) :
    s.crcFinish.resetIn = s.resetIn := rfl
@[simp] theorem State.crcFinish_rsp (s : State) :
    s.crcFinish.rsp = s.rsp := rfl
@[simp] theorem State.crcFinish_status (s : State) :
    s.crcFinish.status = s.status := rfl
@[simp] theorem State.crcFinish_ilen (s : State) :
    s.crcFinish.ilen = s.ilen := rfl
@[simp] theorem State.crcFinish_olen (s : State) :
    s.crcFinish.olen = s.olen := rfl
@[simp] theorem State.crcFinish_consumed (s : State) :
    s.crcFinish.consumed = s.consumed := rfl
@[simp] theorem State.crcFinish_crcPoly (s : State) :
    s.crcFinish.crcPoly = s.crcPoly := rfl
@[simp] theorem State.crcFinish_crcInit (s : State) :
    s.crcFinish.crcInit = s.crcInit := rfl
@[simp] theorem State.crcFinish_crcXorout (s : State) :
    s.crcFinish.crcXorout = s.crcXorout := rfl
@[simp] theorem State.crcFinish_lsbf (s : State) :
    s.crcFinish.lsbf = s.lsbf := rfl
@[simp] theorem State.crcFinish_crcRem (s : State) :
    s.crcFinish.crcRem = s.crcRem := rfl
@[simp] theorem State.crcFinish_crcResult (s : State) :
    s.crcFinish.crcResult = s.crcRem ^^^ s.crcXorout := rfl
@[simp] theorem State.crcFinish_lfsr (s : State) :
    s.crcFinish.lfsr = s.lfsr := rfl
@[simp] theorem State.crcFinish_ibuf (s : State) :
    s.crcFinish.ibuf = s.ibuf := rfl
@[simp] theorem State.crcFinish_obuf (s : State) :
    s.crcFinish.obuf = s.obuf := rfl
@[simp] theorem State.crcFinish_lut (s : State) :
    s.crcFinish.lut = s.lut := rfl

/-! ### `send` -/

@[simp] theorem State.send_cfg (s : State) (bytes : List Byte) :
    (s.send bytes).cfg = s.cfg := rfl
@[simp] theorem State.send_cmd (s : State) (bytes : List Byte) :
    (s.send bytes).cmd = s.cmd ++ bytes := rfl
@[simp] theorem State.send_resetIn (s : State) (bytes : List Byte) :
    (s.send bytes).resetIn = s.resetIn := rfl
@[simp] theorem State.send_rsp (s : State) (bytes : List Byte) :
    (s.send bytes).rsp = s.rsp := rfl
@[simp] theorem State.send_status (s : State) (bytes : List Byte) :
    (s.send bytes).status = s.status := rfl
@[simp] theorem State.send_ilen (s : State) (bytes : List Byte) :
    (s.send bytes).ilen = s.ilen := rfl
@[simp] theorem State.send_olen (s : State) (bytes : List Byte) :
    (s.send bytes).olen = s.olen := rfl
@[simp] theorem State.send_consumed (s : State) (bytes : List Byte) :
    (s.send bytes).consumed = s.consumed := rfl
@[simp] theorem State.send_crcPoly (s : State) (bytes : List Byte) :
    (s.send bytes).crcPoly = s.crcPoly := rfl
@[simp] theorem State.send_crcInit (s : State) (bytes : List Byte) :
    (s.send bytes).crcInit = s.crcInit := rfl
@[simp] theorem State.send_crcXorout (s : State) (bytes : List Byte) :
    (s.send bytes).crcXorout = s.crcXorout := rfl
@[simp] theorem State.send_lsbf (s : State) (bytes : List Byte) :
    (s.send bytes).lsbf = s.lsbf := rfl
@[simp] theorem State.send_crcRem (s : State) (bytes : List Byte) :
    (s.send bytes).crcRem = s.crcRem := rfl
@[simp] theorem State.send_crcResult (s : State) (bytes : List Byte) :
    (s.send bytes).crcResult = s.crcResult := rfl
@[simp] theorem State.send_lfsr (s : State) (bytes : List Byte) :
    (s.send bytes).lfsr = s.lfsr := rfl
@[simp] theorem State.send_ibuf (s : State) (bytes : List Byte) :
    (s.send bytes).ibuf = s.ibuf := rfl
@[simp] theorem State.send_obuf (s : State) (bytes : List Byte) :
    (s.send bytes).obuf = s.obuf := rfl
@[simp] theorem State.send_lut (s : State) (bytes : List Byte) :
    (s.send bytes).lut = s.lut := rfl

/-! ### `assertReset` -/

@[simp] theorem State.assertReset_cfg (s : State) :
    s.assertReset.cfg = s.cfg := rfl
@[simp] theorem State.assertReset_cmd (s : State) :
    s.assertReset.cmd = s.cmd := rfl
@[simp] theorem State.assertReset_resetIn (s : State) :
    s.assertReset.resetIn = true := rfl
@[simp] theorem State.assertReset_rsp (s : State) :
    s.assertReset.rsp = s.rsp := rfl
@[simp] theorem State.assertReset_status (s : State) :
    s.assertReset.status = s.status := rfl
@[simp] theorem State.assertReset_ilen (s : State) :
    s.assertReset.ilen = s.ilen := rfl
@[simp] theorem State.assertReset_olen (s : State) :
    s.assertReset.olen = s.olen := rfl
@[simp] theorem State.assertReset_consumed (s : State) :
    s.assertReset.consumed = s.consumed := rfl
@[simp] theorem State.assertReset_crcPoly (s : State) :
    s.assertReset.crcPoly = s.crcPoly := rfl
@[simp] theorem State.assertReset_crcInit (s : State) :
    s.assertReset.crcInit = s.crcInit := rfl
@[simp] theorem State.assertReset_crcXorout (s : State) :
    s.assertReset.crcXorout = s.crcXorout := rfl
@[simp] theorem State.assertReset_lsbf (s : State) :
    s.assertReset.lsbf = s.lsbf := rfl
@[simp] theorem State.assertReset_crcRem (s : State) :
    s.assertReset.crcRem = s.crcRem := rfl
@[simp] theorem State.assertReset_crcResult (s : State) :
    s.assertReset.crcResult = s.crcResult := rfl
@[simp] theorem State.assertReset_lfsr (s : State) :
    s.assertReset.lfsr = s.lfsr := rfl
@[simp] theorem State.assertReset_ibuf (s : State) :
    s.assertReset.ibuf = s.ibuf := rfl
@[simp] theorem State.assertReset_obuf (s : State) :
    s.assertReset.obuf = s.obuf := rfl
@[simp] theorem State.assertReset_lut (s : State) :
    s.assertReset.lut = s.lut := rfl

/-! ### `withFetchWord` -/

@[simp] theorem State.withFetchWord_cfg (s : State) (nbits w : Nat) :
    (s.withFetchWord nbits w).cfg = s.cfg := rfl
@[simp] theorem State.withFetchWord_cmd (s : State) (nbits w : Nat) :
    (s.withFetchWord nbits w).cmd = tableCommand nbits w ++ s.cmd := rfl
@[simp] theorem State.withFetchWord_resetIn (s : State) (nbits w : Nat) :
    (s.withFetchWord nbits w).resetIn = s.resetIn := rfl
@[simp] theorem State.withFetchWord_rsp (s : State) (nbits w : Nat) :
    (s.withFetchWord nbits w).rsp = s.rsp := rfl
@[simp] theorem State.withFetchWord_status (s : State) (nbits w : Nat) :
    (s.withFetchWord nbits w).status = s.status := rfl
@[simp] theorem State.withFetchWord_ilen (s : State) (nbits w : Nat) :
    (s.withFetchWord nbits w).ilen = s.ilen := rfl
@[simp] theorem State.withFetchWord_olen (s : State) (nbits w : Nat) :
    (s.withFetchWord nbits w).olen = s.olen := rfl
@[simp] theorem State.withFetchWord_consumed (s : State) (nbits w : Nat) :
    (s.withFetchWord nbits w).consumed = s.consumed := rfl
@[simp] theorem State.withFetchWord_crcPoly (s : State) (nbits w : Nat) :
    (s.withFetchWord nbits w).crcPoly = s.crcPoly := rfl
@[simp] theorem State.withFetchWord_crcInit (s : State) (nbits w : Nat) :
    (s.withFetchWord nbits w).crcInit = s.crcInit := rfl
@[simp] theorem State.withFetchWord_crcXorout (s : State) (nbits w : Nat) :
    (s.withFetchWord nbits w).crcXorout = s.crcXorout := rfl
@[simp] theorem State.withFetchWord_lsbf (s : State) (nbits w : Nat) :
    (s.withFetchWord nbits w).lsbf = s.lsbf := rfl
@[simp] theorem State.withFetchWord_crcRem (s : State) (nbits w : Nat) :
    (s.withFetchWord nbits w).crcRem = s.crcRem := rfl
@[simp] theorem State.withFetchWord_crcResult (s : State) (nbits w : Nat) :
    (s.withFetchWord nbits w).crcResult = s.crcResult := rfl
@[simp] theorem State.withFetchWord_lfsr (s : State) (nbits w : Nat) :
    (s.withFetchWord nbits w).lfsr = s.lfsr := rfl
@[simp] theorem State.withFetchWord_ibuf (s : State) (nbits w : Nat) :
    (s.withFetchWord nbits w).ibuf = s.ibuf := rfl
@[simp] theorem State.withFetchWord_obuf (s : State) (nbits w : Nat) :
    (s.withFetchWord nbits w).obuf = s.obuf := rfl
@[simp] theorem State.withFetchWord_lut (s : State) (nbits w : Nat) :
    (s.withFetchWord nbits w).lut = s.lut := rfl

end Sys2Proof.Machine
end

