-- ==== Sys2Proof/Laws/Crc.lean ====
section
/-! SUPPORT. The CRC unit: what the table holds, and that one table step is eight shifts of the register
with the data byte added in, in both orientations (41_crc.md R120, R129, R130). -/

namespace Sys2Proof.Machine

/-! ## The table -/

@[simp] theorem length_lutBuild (n : Nat) (p : Word) (l : Bool) : (lutBuild n p l).length = n := by
  simp [lutBuild]

/-- Entry `i` of a built table is `lut_entry(P, L, i)` (R120). -/
theorem getD_lutBuild (p : Word) (l : Bool) (i : Byte) :
    (lutBuild 256 p l).getD i.toNat 0 = lutEntry p l i := by
  have hi : i.toNat < 256 := i.isLt
  simp [lutBuild, List.getD_eq_getElem?_getD, hi]

theorem State.lutAt_configure (s : State) (h : s.cfg.wf = true) (p n x : Word) (l : Bool) (i : Byte) :
    (s.configure p n x l).lutAt i = lutEntry p l i := by
  rw [State.lutAt, State.configure_lut, (Config.wf_spec h).lutN, getD_lutBuild]

theorem State.lutAt_congr {s t : State} (h : t.lut = s.lut) (i : Byte) : t.lutAt i = s.lutAt i := by
  rw [State.lutAt, State.lutAt, h]

/-! ## One shift, MSB-first -/

/-- A shift of a sum: the first part with the second part's top bit added to its own, then the second part
shifted. -/
theorem lutShiftMsb_xor (p r x : Word) :
    lutShiftMsb p (r ^^^ x) =
      (if r.getLsbD 15 ^^ x.getLsbD 15 then (r <<< 1) ^^^ p else r <<< 1) ^^^ (x <<< 1) := by
  simp only [lutShiftMsb, BitVec.getLsbD_xor, BitVec.shiftLeft_xor_distrib]
  split
  · ac_rfl
  · rfl

/-- Adding a value whose top eight bits are zero commutes with eight shifts. -/
theorem lutShiftMsb_iterate_low (p r x : Word) (n : Nat) (h : ∀ j, 16 - n ≤ j → x.getLsbD j = false) :
    (lutShiftMsb p)^[n] (r ^^^ x) = (lutShiftMsb p)^[n] r ^^^ (x <<< n) := by
  induction n generalizing r x with
  | zero => simp
  | succ n ih =>
    have h15 : x.getLsbD 15 = false := h 15 (by omega)
    rw [Function.iterate_succ_apply, lutShiftMsb_xor, h15, Bool.xor_false,
      show (if r.getLsbD 15 = true then r <<< 1 ^^^ p else r <<< 1) = lutShiftMsb p r from rfl,
      ih (lutShiftMsb p r) (x <<< 1) ?_, ← BitVec.shiftLeft_add, Nat.add_comm 1 n]
    · rfl
    · intro j hj
      rw [BitVec.getLsbD_shiftLeft]
      rcases Nat.lt_or_ge j 16 with h' | h'
      · rw [h (j - 1) (by omega)]; simp
      · simp [show ¬ j < 16 by omega]

/-- The table step, MSB-first, is eight shifts of the register with the byte added at the top (R129). -/
theorem crcStep_msb (p r : Word) (b : Byte) :
    crcStep false (lutEntry p false) r b = (lutShiftMsb p)^[8] (r ^^^ (zext16 b <<< 8)) := by
  have hsplit : r ^^^ (zext16 b <<< 8) =
      (zext16 (BitVec.setWidth 8 (r >>> 8) ^^^ b) <<< 8) ^^^ zext16 (BitVec.setWidth 8 r) := by
    apply BitVec.eq_of_getLsbD_eq
    intro i hi
    rcases Nat.lt_or_ge i 8 with h | h
    · simp [zext16, h, hi]
    · obtain ⟨j, rfl⟩ : ∃ j, i = 8 + j := ⟨i - 8, by omega⟩
      simp [zext16, hi, show j < 8 by omega]
  have hlow : ∀ j, 16 - 8 ≤ j → (zext16 (BitVec.setWidth 8 r)).getLsbD j = false := by
    intro j hj
    simp [zext16]; omega
  have hshift : zext16 (BitVec.setWidth 8 r) <<< 8 = r <<< 8 := by
    apply BitVec.eq_of_getLsbD_eq
    intro i hi
    rcases Nat.lt_or_ge i 8 with h | h
    · simp [h]
    · simp [zext16, show ¬ i < 8 by omega, show i - 8 < 8 by omega, show i - 8 < 16 by omega]
  rw [hsplit, lutShiftMsb_iterate_low _ _ _ 8 hlow, hshift, BitVec.xor_comm]
  rfl

/-! ## One shift, LSB-first -/

theorem lutShiftLsb_xor (q r x : Word) :
    lutShiftLsb q (r ^^^ x) =
      (if r.getLsbD 0 ^^ x.getLsbD 0 then (r >>> 1) ^^^ q else r >>> 1) ^^^ (x >>> 1) := by
  simp only [lutShiftLsb, BitVec.getLsbD_xor, BitVec.ushiftRight_xor_distrib]
  split
  · ac_rfl
  · rfl

/-- Adding a value whose low bits are zero commutes with as many shifts. -/
theorem lutShiftLsb_iterate_high (q r x : Word) (n : Nat) (h : ∀ j, j < n → x.getLsbD j = false) :
    (lutShiftLsb q)^[n] (r ^^^ x) = (lutShiftLsb q)^[n] r ^^^ (x >>> n) := by
  induction n generalizing r x with
  | zero => simp
  | succ n ih =>
    have h0 : x.getLsbD 0 = false := h 0 (by omega)
    rw [Function.iterate_succ_apply, lutShiftLsb_xor, h0, Bool.xor_false,
      show (if r.getLsbD 0 = true then r >>> 1 ^^^ q else r >>> 1) = lutShiftLsb q r from rfl,
      ih (lutShiftLsb q r) (x >>> 1) ?_, ← BitVec.shiftRight_add, Nat.add_comm 1 n]
    · rfl
    · intro j hj
      rw [BitVec.getLsbD_ushiftRight, h (1 + j) (by omega)]

/-- The table step, LSB-first, is eight shifts of the register with the byte added at the bottom (R129). -/
theorem crcStep_lsb (p r : Word) (b : Byte) :
    crcStep true (lutEntry p true) r b = (lutShiftLsb (bitrev16 p))^[8] (r ^^^ zext16 b) := by
  have hsplit : r ^^^ zext16 b =
      zext16 (BitVec.setWidth 8 (r ^^^ zext16 b)) ^^^ ((r >>> 8) <<< 8) := by
    apply BitVec.eq_of_getLsbD_eq
    intro i hi
    rcases Nat.lt_or_ge i 8 with h | h
    · simp [zext16, h, hi]
    · simp [zext16, hi, BitVec.getLsbD_of_ge b i h, show ¬ i < 8 by omega, show 8 + (i - 8) = i by omega]
  have hlow : ∀ j, j < 8 → (((r >>> 8) <<< 8 : Word)).getLsbD j = false := by
    intro j hj
    simp [hj]
  have hshift : ((r >>> 8) <<< 8 : Word) >>> 8 = r >>> 8 := by
    apply BitVec.eq_of_getLsbD_eq
    intro i hi
    rw [BitVec.getLsbD_ushiftRight, BitVec.getLsbD_ushiftRight, BitVec.getLsbD_shiftLeft,
      BitVec.getLsbD_ushiftRight]
    rcases Nat.lt_or_ge (8 + i) 16 with h | h
    · simp [h]
    · simp [BitVec.getLsbD_of_ge r (8 + i) h]
  conv_rhs => rw [hsplit, lutShiftLsb_iterate_high _ _ _ 8 hlow, hshift, BitVec.xor_comm]
  rfl

/-! ## The bit-serial definition -/

/-- The bit-serial byte step, MSB-first, is the same eight shifts (R130). -/
theorem serialFold_eq_shifts (p r : Word) (b : Byte) :
    [7, 6, 5, 4, 3, 2, 1, 0].foldl (Reference.serialBit p b) r =
      (lutShiftMsb p)^[8] (r ^^^ (zext16 b <<< 8)) := by
  have hstep : ∀ (r : Word) (k : Nat), k < 8 →
      lutShiftMsb p (r ^^^ (zext16 b <<< (8 + k))) =
        Reference.serialBit p b r (7 - k) ^^^ (zext16 b <<< (8 + (k + 1))) := by
    intro r k hk
    rw [lutShiftMsb_xor, ← BitVec.shiftLeft_add, Reference.serialBit]
    have hb : (zext16 b <<< (8 + k)).getLsbD 15 = b.getLsbD (7 - k) := by
      simp [zext16, show ¬ 15 < 8 + k by omega, show 15 - (8 + k) = 7 - k by omega]
    rw [hb, show 8 + k + 1 = 8 + (k + 1) from rfl]
  have hend : zext16 b <<< (8 + 8) = 0#16 := by
    simp
  have h0 := hstep r 0 (by omega)
  simp only [Nat.add_zero, Nat.sub_zero] at h0
  simp only [List.foldl_cons, List.foldl_nil, Function.iterate_succ_apply, Function.iterate_zero, id_eq]
  rw [h0, hstep _ 1 (by omega), hstep _ 2 (by omega), hstep _ 3 (by omega), hstep _ 4 (by omega),
    hstep _ 5 (by omega), hstep _ 6 (by omega), hstep _ 7 (by omega), hend, BitVec.xor_zero]

/-- Bit reversal turns the MSB-first shift into the LSB-first one. -/
theorem bitrev16_lutShiftMsb (p r : Word) :
    bitrev16 (lutShiftMsb p r) = lutShiftLsb (bitrev16 p) (bitrev16 r) := by
  apply BitVec.eq_of_getLsbD_eq
  intro i hi
  have hr : (bitrev16 r).getLsbD 0 = r.getLsbD 15 := getLsbD_bitrev16 r 0 (by omega)
  have hsh : ((bitrev16 r) >>> 1).getLsbD i = (r <<< 1).getLsbD (15 - i) := by
    rw [BitVec.getLsbD_ushiftRight, BitVec.getLsbD_shiftLeft]
    rcases Nat.lt_or_ge (1 + i) 16 with h | h
    · rw [getLsbD_bitrev16 _ _ h]
      simp [show 15 - (1 + i) = 15 - i - 1 by omega, show ¬ (15 - i < 1) by omega,
        show 15 - i < 16 by omega]
    · rw [BitVec.getLsbD_of_ge _ _ h]
      simp [show i = 15 by omega]
  rw [getLsbD_bitrev16 _ _ hi]
  simp only [lutShiftMsb, lutShiftLsb, hr]
  split
  · rw [BitVec.getLsbD_xor, BitVec.getLsbD_xor, hsh, getLsbD_bitrev16 _ _ hi]
  · exact hsh.symm

/-- Bit reversal of the MSB-first input position is the LSB-first one. -/
theorem bitrev16_xor_top (r : Word) (b : Byte) :
    bitrev16 (r ^^^ (zext16 (bitrev8 b) <<< 8)) = bitrev16 r ^^^ zext16 b := by
  apply BitVec.eq_of_getLsbD_eq
  intro i hi
  rw [getLsbD_bitrev16 _ _ hi, BitVec.getLsbD_xor, BitVec.getLsbD_xor, getLsbD_bitrev16 _ _ hi]
  congr 1
  rw [BitVec.getLsbD_shiftLeft, zext16, zext16, BitVec.getLsbD_setWidth, BitVec.getLsbD_setWidth]
  rcases Nat.lt_or_ge i 8 with h | h
  · rw [getLsbD_bitrev8 _ _ (by omega), show 7 - (15 - i - 8) = i by omega]
    simp [hi, show 15 - i < 16 by omega, show ¬ (15 - i < 8) by omega, show 15 - i - 8 < 16 by omega]
  · rw [BitVec.getLsbD_of_ge b i h]
    simp [show 15 - i < 8 by omega]

end Sys2Proof.Machine
end

