-- ==== Sys2Proof/Laws/Decode.lean ====
section
/-! SUPPORT. Byte order of operands, and that an encoding is as long as its byte 0 says. -/

namespace Sys2Proof

theorem getLsbD_le16 (lo hi : Byte) (i : Nat) :
    (le16 lo hi).getLsbD i = if i < 8 then lo.getLsbD i else hi.getLsbD (i - 8) :=
  BitVec.getLsbD_append ..

/-- A word is its two bytes, low byte first (R82). -/
@[simp] theorem le16_loByte_hiByte (w : Word) : le16 (loByte w) (hiByte w) = w := by
  apply BitVec.eq_of_getLsbD_eq
  intro i hi
  rw [getLsbD_le16]
  rcases Nat.lt_or_ge i 8 with h | h
  · simp [loByte, h]
  · simp [hiByte, show ¬ i < 8 by omega, show i - 8 < 8 by omega, show 8 + (i - 8) = i by omega]

@[simp] theorem loByte_le16 (lo hi : Byte) : loByte (le16 lo hi) = lo := by
  apply BitVec.eq_of_getLsbD_eq
  intro i h
  rw [loByte, BitVec.getLsbD_extractLsb', getLsbD_le16]
  simp [h]

@[simp] theorem hiByte_le16 (lo hi : Byte) : hiByte (le16 lo hi) = hi := by
  apply BitVec.eq_of_getLsbD_eq
  intro i h
  rw [hiByte, BitVec.getLsbD_extractLsb', getLsbD_le16]
  simp [h]

/-! ## What the decoder answers, told by the length of byte 0 -/

/-- Everything `decode` can answer on a non-empty stream (R84, R86, R87). -/
theorem decode_cons (op : Byte) (t : List Byte) :
    match commandLength op with
    | none => decode (op :: t) = .illegal op t
    | some n =>
      (t.length + 1 < n → decode (op :: t) = .needMore) ∧
      (n ≤ t.length + 1 → ∃ i, decode (op :: t) = .command i (t.drop (n - 1))) := by
  have h1 (f : Byte → Instr) : (t.length + 1 < 2 → formatF1 f t = .needMore) ∧
      (2 ≤ t.length + 1 → ∃ i, formatF1 f t = .command i (t.drop 1)) := by
    rcases t with _ | ⟨a, t⟩ <;> simp [formatF1]
  have h2 (f : Byte → Byte → Instr) : (t.length + 1 < 3 → formatF2 f t = .needMore) ∧
      (3 ≤ t.length + 1 → ∃ i, formatF2 f t = .command i (t.drop 2)) := by
    rcases t with _ | ⟨a, _ | ⟨b, t⟩⟩ <;> simp [formatF2]
  have h7 (f : Word → Word → Word → Byte → Instr) : (t.length + 1 < 8 → formatF7 f t = .needMore) ∧
      (8 ≤ t.length + 1 → ∃ i, formatF7 f t = .command i (t.drop 7)) := by
    rcases t with _ | ⟨a, _ | ⟨b, _ | ⟨c, _ | ⟨d, _ | ⟨e, _ | ⟨g, _ | ⟨k, t⟩⟩⟩⟩⟩⟩⟩ <;> simp [formatF7]
  generalize hd : decode (op :: t) = r
  simp only [decode] at hd
  split at hd <;> rename_i hop
  all_goals subst hd
  all_goals first
    | (simp only [commandLength, hop]; first
        | exact ⟨fun h => absurd h (by omega), fun _ => ⟨_, rfl⟩⟩
        | exact h1 _
        | exact h2 _
        | exact h7 _)
    | simp_all [commandLength]

end Sys2Proof
end

