-- ==== Sys2Proof/Laws/Memory.lean ====
section
/-! SUPPORT. The laws of the byte memories: a read after a write, the canonical form kept by every
operation, equal reads make equal memories, and what `writeBytes` and `bytes` do. -/

namespace Sys2Proof.Machine

@[simp] theorem Memory.read_nil (a : Nat) : Memory.read [] a = unlistedByte := rfl

theorem Memory.read_cell (k : Nat) (v : Byte) (t : Memory) (a : Nat) :
    Memory.read ((k, v) :: t) a = if k = a then v else Memory.read t a := rfl

/-! ## The canonical form -/

theorem Memory.wfAbove_cell (a k : Nat) (v : Byte) (t : Memory) :
    Memory.wfAbove a ((k, v) :: t) = true ↔ a < k ∧ v ≠ unlistedByte ∧ Memory.wfAbove k t = true := by
  simp [Memory.wfAbove, and_assoc]

theorem Memory.wf_cell (k : Nat) (v : Byte) (t : Memory) :
    Memory.wf ((k, v) :: t) = true ↔ v ≠ unlistedByte ∧ Memory.wfAbove k t = true := by
  simp [Memory.wf]

theorem Memory.wfAbove_mono {a b : Nat} (h : a ≤ b) {m : Memory} (hm : Memory.wfAbove b m = true) :
    Memory.wfAbove a m = true := by
  cases m with
  | nil => rfl
  | cons c t =>
    obtain ⟨k, v⟩ := c
    rw [Memory.wfAbove_cell] at hm ⊢
    exact ⟨by omega, hm.2⟩

theorem Memory.wf_of_wfAbove {a : Nat} {m : Memory} (hm : Memory.wfAbove a m = true) : m.wf = true := by
  cases m with
  | nil => rfl
  | cons c t =>
    obtain ⟨k, v⟩ := c
    rw [Memory.wfAbove_cell] at hm
    exact (Memory.wf_cell k v t).2 hm.2

/-- Below and at a bound that every listed index exceeds, nothing is listed. -/
theorem Memory.read_of_wfAbove {m : Memory} {k a : Nat} (hm : Memory.wfAbove k m = true) (ha : a ≤ k) :
    m.read a = unlistedByte := by
  induction m generalizing k with
  | nil => rfl
  | cons c t ih =>
    obtain ⟨i, v⟩ := c
    rw [Memory.wfAbove_cell] at hm
    rw [Memory.read_cell, if_neg (by omega)]
    exact ih hm.2.2 (by omega)

/-! ## `cons` -/

theorem Memory.read_cons {m : Memory} {k : Nat} (hm : Memory.wfAbove k m = true) (b : Byte) (a : Nat) :
    (Memory.cons k b m).read a = if k = a then b else m.read a := by
  unfold Memory.cons
  split
  · subst_vars
    split
    · subst_vars; exact Memory.read_of_wfAbove hm (Nat.le_refl _)
    · rfl
  · rfl

theorem Memory.wfAbove_cons {m : Memory} {j k : Nat} (h : j < k) (hm : Memory.wfAbove k m = true) (b : Byte) :
    Memory.wfAbove j (Memory.cons k b m) = true := by
  unfold Memory.cons
  split
  · exact Memory.wfAbove_mono (Nat.le_of_lt h) hm
  · exact (Memory.wfAbove_cell ..).2 ⟨h, ‹_›, hm⟩

/-! ## `write` -/

theorem Memory.write_spec_above (m : Memory) (a : Nat) (b : Byte) (j : Nat)
    (hm : Memory.wfAbove j m = true) (hj : j < a) :
    Memory.wfAbove j (m.write a b) = true ∧ ∀ x, (m.write a b).read x = if a = x then b else m.read x := by
  induction m generalizing j with
  | nil =>
    exact ⟨Memory.wfAbove_cons hj rfl b, fun x => Memory.read_cons (m := []) rfl b x⟩
  | cons c t ih =>
    obtain ⟨k, v⟩ := c
    rw [Memory.wfAbove_cell] at hm
    simp only [Memory.write]
    split
    · have hk : Memory.wfAbove a ((k, v) :: t) = true := (Memory.wfAbove_cell ..).2 ⟨‹_›, hm.2⟩
      exact ⟨Memory.wfAbove_cons hj hk b, fun x => Memory.read_cons hk b x⟩
    · split
      · subst_vars
        refine ⟨Memory.wfAbove_cons hj hm.2.2 b, fun x => ?_⟩
        rw [Memory.read_cons hm.2.2, Memory.read_cell]
        split <;> rfl
      · obtain ⟨h1, h2⟩ := ih k hm.2.2 (by omega)
        refine ⟨(Memory.wfAbove_cell ..).2 ⟨hm.1, hm.2.1, h1⟩, fun x => ?_⟩
        rw [Memory.read_cell, Memory.read_cell, h2]
        split <;> split <;> first | rfl | omega

theorem Memory.write_spec (m : Memory) (a : Nat) (b : Byte) (hm : m.wf = true) :
    (m.write a b).wf = true ∧ ∀ x, (m.write a b).read x = if a = x then b else m.read x := by
  cases m with
  | nil =>
    refine ⟨?_, fun x => Memory.read_cons (m := []) rfl b x⟩
    simp only [Memory.write, Memory.cons]
    split <;> simp_all [Memory.wf, Memory.wfAbove]
  | cons c t =>
    obtain ⟨k, v⟩ := c
    rw [Memory.wf_cell] at hm
    simp only [Memory.write]
    split
    · have hk : Memory.wfAbove a ((k, v) :: t) = true := (Memory.wfAbove_cell ..).2 ⟨‹_›, hm⟩
      refine ⟨?_, fun x => Memory.read_cons hk b x⟩
      unfold Memory.cons
      split
      · exact (Memory.wf_cell ..).2 hm
      · exact (Memory.wf_cell ..).2 ⟨‹_›, hk⟩
    · split
      · subst_vars
        refine ⟨?_, fun x => ?_⟩
        · unfold Memory.cons
          split
          · exact Memory.wf_of_wfAbove hm.2
          · exact (Memory.wf_cell ..).2 ⟨‹_›, hm.2⟩
        · rw [Memory.read_cons hm.2, Memory.read_cell]
          split <;> rfl
      · obtain ⟨h1, h2⟩ := Memory.write_spec_above t a b k hm.2 (by omega)
        refine ⟨(Memory.wf_cell ..).2 ⟨hm.1, h1⟩, fun x => ?_⟩
        rw [Memory.read_cell, Memory.read_cell, h2]
        split <;> split <;> first | rfl | omega

/-- A write keeps the canonical form. -/
theorem Memory.wf_write {m : Memory} (hm : m.wf = true) (a : Nat) (b : Byte) : (m.write a b).wf = true :=
  (Memory.write_spec m a b hm).1

/-- A read after a write to the same index gives the byte written, canonical form or not. -/
theorem Memory.read_write (m : Memory) (a : Nat) (b : Byte) (hm : m.wf = true) (x : Nat) :
    (m.write a b).read x = if a = x then b else m.read x := (Memory.write_spec m a b hm).2 x

/-! ## `writeBytes` -/

/-- Everything a run of writes does: the canonical form is kept, the bytes stand from `a` on, every other
index reads as before. -/
theorem Memory.writeBytes_spec (bs : List Byte) (m : Memory) (a : Nat) (hm : m.wf = true) :
    (m.writeBytes a bs).wf = true ∧
    ∀ x, (m.writeBytes a bs).read x =
      if a ≤ x ∧ x < a + bs.length then bs.getD (x - a) 0 else m.read x := by
  induction bs generalizing m a with
  | nil => exact ⟨hm, fun x => by simp [Memory.writeBytes]⟩
  | cons b t ih =>
    obtain ⟨h1, h2⟩ := ih (m.write a b) (a + 1) (Memory.wf_write hm a b)
    refine ⟨h1, fun x => ?_⟩
    rw [Memory.writeBytes, h2, Memory.read_write m a b hm]
    rcases Nat.lt_trichotomy x a with h | h | h
    · simp [show ¬ (a + 1 ≤ x) by omega, show ¬ (a ≤ x) by omega, show a ≠ x by omega]
    · subst h; simp
    · obtain ⟨d, rfl⟩ : ∃ d, x = a + 1 + d := ⟨x - (a + 1), by omega⟩
      simp only [List.length_cons, show a ≠ a + 1 + d by omega, if_false,
        show a + 1 + d - a = d + 1 by omega, show a + 1 + d - (a + 1) = d by omega, List.getD_cons_succ]
      by_cases hd : d < t.length
      · rw [if_pos ⟨by omega, by omega⟩, if_pos ⟨by omega, by omega⟩]
      · rw [if_neg (by omega), if_neg (by omega)]

theorem Memory.wf_writeBytes {m : Memory} (hm : m.wf = true) (a : Nat) (bs : List Byte) :
    (m.writeBytes a bs).wf = true := (Memory.writeBytes_spec bs m a hm).1

/-! ## Bounds -/

theorem Memory.within_cell (n k : Nat) (v : Byte) (t : Memory) :
    Memory.within n ((k, v) :: t) = true ↔ k < n ∧ Memory.within n t = true := by
  simp only [Memory.within, List.all_cons, Bool.and_eq_true, decide_eq_true_eq]

theorem Memory.within_cons {m : Memory} {n a : Nat} (hm : m.within n = true) (ha : a < n) (b : Byte) :
    (Memory.cons a b m).within n = true := by
  unfold Memory.cons
  split
  · exact hm
  · exact (Memory.within_cell ..).2 ⟨ha, hm⟩

/-- A write inside a buffer lists no index outside it. -/
theorem Memory.within_write {m : Memory} {n a : Nat} (hm : m.within n = true) (ha : a < n) (b : Byte) :
    (m.write a b).within n = true := by
  induction m with
  | nil => exact Memory.within_cons hm ha b
  | cons c t ih =>
    obtain ⟨k, v⟩ := c
    obtain ⟨hk, ht⟩ := (Memory.within_cell ..).1 hm
    simp only [Memory.write]
    split
    · exact Memory.within_cons hm ha b
    · split
      · exact Memory.within_cons ht ha b
      · exact (Memory.within_cell ..).2 ⟨hk, ih ht⟩

theorem Memory.within_writeBytes {m : Memory} {n : Nat} (hm : m.within n = true) (bs : List Byte) (a : Nat)
    (h : a + bs.length ≤ n) : (m.writeBytes a bs).within n = true := by
  induction bs generalizing m a with
  | nil => exact hm
  | cons b t ih =>
    simp only [List.length_cons] at h
    exact ih (Memory.within_write hm (by omega) b) (a + 1) (by omega)

/-! ## Equal reads -/

theorem Memory.eq_of_read_above (m : Memory) : ∀ (m' : Memory) (j : Nat), Memory.wfAbove j m = true →
    Memory.wfAbove j m' = true → (∀ x, m.read x = m'.read x) → m = m' := by
  induction m with
  | nil =>
    intro m' j _ h' hr
    cases m' with
    | nil => rfl
    | cons c t =>
      obtain ⟨k, v⟩ := c
      rw [Memory.wfAbove_cell] at h'
      have := hr k
      simp [Memory.read_cell] at this
      exact absurd this.symm h'.2.1
  | cons c t ih =>
    obtain ⟨k, v⟩ := c
    intro m' j h h' hr
    rw [Memory.wfAbove_cell] at h
    cases m' with
    | nil =>
      have := hr k
      simp [Memory.read_cell] at this
      exact absurd this h.2.1
    | cons c' t' =>
      obtain ⟨k', v'⟩ := c'
      rw [Memory.wfAbove_cell] at h'
      have hk : k = k' := by
        rcases Nat.lt_trichotomy k k' with hlt | heq | hgt
        · have := hr k
          rw [Memory.read_cell, if_pos rfl, Memory.read_cell, if_neg (by omega),
            Memory.read_of_wfAbove h'.2.2 (by omega)] at this
          exact absurd this h.2.1
        · exact heq
        · have := hr k'
          rw [Memory.read_cell, if_neg (by omega), Memory.read_of_wfAbove h.2.2 (by omega),
            Memory.read_cell, if_pos rfl] at this
          exact absurd this.symm h'.2.1
      subst hk
      have hv : v = v' := by simpa [Memory.read_cell] using hr k
      subst hv
      rw [ih t' k h.2.2 h'.2.2 fun x => ?_]
      by_cases hx : k = x
      · subst hx
        rw [Memory.read_of_wfAbove h.2.2 (Nat.le_refl _), Memory.read_of_wfAbove h'.2.2 (Nat.le_refl _)]
      · simpa [Memory.read_cell, hx] using hr x

/-- Canonical memories that read the same at every index are the same data. -/
theorem Memory.eq_of_read {m m' : Memory} (h : m.wf = true) (h' : m'.wf = true)
    (hr : ∀ x, m.read x = m'.read x) : m = m' := by
  cases m with
  | nil =>
    cases m' with
    | nil => rfl
    | cons c t =>
      obtain ⟨k, v⟩ := c
      have := hr k
      simp [Memory.read_cell] at this
      exact absurd this.symm ((Memory.wf_cell ..).1 h').1
  | cons c t =>
    obtain ⟨k, v⟩ := c
    rw [Memory.wf_cell] at h
    cases m' with
    | nil =>
      have := hr k
      simp [Memory.read_cell] at this
      exact absurd this h.1
    | cons c' t' =>
      obtain ⟨k', v'⟩ := c'
      rw [Memory.wf_cell] at h'
      have hk : k = k' := by
        rcases Nat.lt_trichotomy k k' with hlt | heq | hgt
        · have := hr k
          rw [Memory.read_cell, if_pos rfl, Memory.read_cell, if_neg (by omega),
            Memory.read_of_wfAbove h'.2 (by omega)] at this
          exact absurd this h.1
        · exact heq
        · have := hr k'
          rw [Memory.read_cell, if_neg (by omega), Memory.read_of_wfAbove h.2 (by omega),
            Memory.read_cell, if_pos rfl] at this
          exact absurd this.symm h'.1
      subst hk
      have hv : v = v' := by simpa [Memory.read_cell] using hr k
      subst hv
      rw [Memory.eq_of_read_above t t' k h.2 h'.2 fun x => ?_]
      by_cases hx : k = x
      · subst hx
        rw [Memory.read_of_wfAbove h.2 (Nat.le_refl _), Memory.read_of_wfAbove h'.2 (Nat.le_refl _)]
      · simpa [Memory.read_cell, hx] using hr x

/-! ## `bytes` -/

@[simp] theorem Memory.length_bytes (m : Memory) (n : Nat) : (m.bytes n).length = n := by
  simp [Memory.bytes]

theorem Memory.getElem_bytes (m : Memory) (n i : Nat) (h : i < (m.bytes n).length) :
    (m.bytes n)[i] = m.read i := by
  simp [Memory.bytes]

/-- Two runs of bytes are the same when every index reads the same. -/
theorem Memory.bytes_congr {m m' : Memory} {n : Nat} (h : ∀ i, i < n → m.read i = m'.read i) :
    m.bytes n = m'.bytes n := by
  simp only [Memory.bytes]
  exact List.map_congr_left fun i hi => h i (List.mem_range.1 hi)

/-- `M[0 .. len(bs))` after `M[0 .. len(bs)) <- bs`. -/
theorem Memory.bytes_writeBytes {m : Memory} (hm : m.wf = true) (bs : List Byte) :
    (m.writeBytes 0 bs).bytes bs.length = bs := by
  apply List.ext_getElem (by simp)
  intro i h1 h2
  rw [Memory.getElem_bytes, (Memory.writeBytes_spec bs m 0 hm).2, if_pos ⟨by omega, by omega⟩]
  simp [h2]

/-- One byte more. -/
theorem Memory.bytes_succ (m : Memory) (n : Nat) : m.bytes (n + 1) = m.bytes n ++ [m.read n] := by
  simp [Memory.bytes, List.range_succ]

end Sys2Proof.Machine
end

