-- ==== Sys2Proof/Laws/Ops.lean ====
section
/-! SUPPORT. Once for each shared operation, everything it can do to the buffers, the registers and the
command stream. -/

namespace Sys2Proof.Machine

/-! ## Buffers -/

@[simp] theorem State.length_input (s : State) : s.input.length = s.ilen.toNat := Memory.length_bytes ..

@[simp] theorem State.length_output (s : State) : s.output.length = s.olen.toNat := Memory.length_bytes ..

/-- A codec result is at most as long as its input, so its length is below 2^16. -/
theorem State.length_input_lt (s : State) : s.input.length < 65536 := by
  rw [State.length_input]; exact s.ilen.isLt

theorem State.input_congr {s t : State} (h : t.ibuf = s.ibuf) (h' : t.ilen = s.ilen) : t.input = s.input := by
  simp [State.input, h, h']

theorem State.output_congr {s t : State} (h : t.obuf = s.obuf) (h' : t.olen = s.olen) :
    t.output = s.output := by
  simp [State.output, h, h']

/-- `State.withOutput` in full: `OBUF[0..OLEN)` is what was put there, no byte after it changed. -/
theorem State.withOutput_wrote (s : State) (out : List Byte) (hw : s.obuf.wf = true)
    (hl : out.length < 65536) : WroteOutput s (s.withOutput out) out := by
  have hn : (BitVec.ofNat 16 out.length).toNat = out.length := by
    rw [BitVec.toNat_ofNat]; omega
  refine ⟨hn, ?_, fun a ha => ?_⟩
  · rw [State.output, State.withOutput_olen, State.withOutput_obuf, hn, Memory.bytes_writeBytes hw]
  · rw [State.withOutput_obuf, (Memory.writeBytes_spec out s.obuf 0 hw).2, if_neg (by omega)]

/-- `State.withInput` in full. -/
theorem State.withInput_spec (s : State) (bs : List Byte) (hw : s.ibuf.wf = true) (hl : bs.length < 65536) :
    (s.withInput bs).input = bs ∧ (s.withInput bs).ilen.toNat = bs.length ∧
    ∀ a, bs.length ≤ a → (s.withInput bs).ibuf.read a = s.ibuf.read a := by
  have hn : (BitVec.ofNat 16 bs.length).toNat = bs.length := by
    rw [BitVec.toNat_ofNat]; omega
  refine ⟨?_, hn, fun a ha => ?_⟩
  · rw [State.input, State.withInput_ilen, State.withInput_ibuf, hn, Memory.bytes_writeBytes hw]
  · rw [State.withInput_ibuf, (Memory.writeBytes_spec bs s.ibuf 0 hw).2, if_neg (by omega)]

/-- `State.pushInput` in full. -/
theorem State.pushInput_spec (s : State) (b : Byte) (hw : s.ibuf.wf = true) (hl : s.ilen.toNat < 65535) :
    (s.pushInput b).ilen.toNat = s.ilen.toNat + 1 ∧ (s.pushInput b).input = s.input ++ [b] ∧
    ∀ a, (s.pushInput b).ibuf.read a = if s.ilen.toNat = a then b else s.ibuf.read a := by
  have hn : (s.ilen + 1).toNat = s.ilen.toNat + 1 := by
    rw [BitVec.toNat_add, show (1 : Word).toNat = 1 from rfl]; omega
  have hr := Memory.read_write s.ibuf s.ilen.toNat b hw
  refine ⟨hn, ?_, hr⟩
  rw [State.input, State.pushInput_ilen, hn, State.pushInput_ibuf, Memory.bytes_succ, hr, if_pos rfl]
  congr 1
  exact Memory.bytes_congr fun i hi => by rw [hr, if_neg (by omega)]

/-! ## The register file -/

/-- `GET` knows exactly the numbers 0 to 10 (R39). -/
theorem State.register_eq_none (s : State) (r : Byte) : s.register r = none ↔ 11 ≤ r.toNat := by
  unfold State.register
  split
  all_goals simp_all
  omega

/-- The layout of R29 as a sum of weighted fields. -/
theorem Status.toNat_toWord (st : Status) : st.toWord.toNat =
    st.err.toNat + 256 * st.fault.toNat + 512 * st.cfgd.toNat + 1024 * st.run.toNat + 2048 * st.inv.toNat +
      4096 * st.eof.toNat + 8192 * st.resid.toNat := by
  simp only [Status.toWord, bit, toNat_append_add, BitVec.toNat_ofBool]
  omega

/-! ## The step -/

/-- What a step that has a next state did: one of reset, a command, waiting. -/
theorem step_cases {s t : State} (h : step s = .next t) :
    (s.resetIn = true ∧ t = s.hardReset) ∨
    (s.ready ∧ ∃ i rest, decode s.cmd = .command i rest ∧ exec i { s with cmd := rest } = .next t) ∨
    (s.ready ∧ decode s.cmd = .needMore ∧ t = s) := by
  unfold step State.nextAction at h
  by_cases hr : s.resetIn = true
  · left; simp_all
  · by_cases hf : s.status.fault = true
    · simp_all
    · right
      have hready : s.ready := ⟨by simpa using hr, by simpa using hf⟩
      cases hd : decode s.cmd with
      | command i rest => simp_all
      | illegal op rest => simp_all
      | needMore => simp_all

/-- A block that takes commands faults on an illegal opcode byte. -/
theorem step_illegal {s : State} (h : s.ready) {op : Byte} {rest : List Byte}
    (hd : decode s.cmd = .illegal op rest) :
    step s = .fault (.illegalOpcode (({ s with cmd := rest } : State).withErr eIllop).withFault) := by
  simp [step, State.nextAction, h.1, h.2, hd]

/-- A block that takes commands runs the decoded one. -/
theorem step_command {s : State} (h : s.ready) {i : Instr} {rest : List Byte}
    (hd : decode s.cmd = .command i rest) : step s = exec i { s with cmd := rest } := by
  simp [step, State.nextAction, h.1, h.2, hd]

/-! ## The host's run -/

/-- A run goes on from the next state. -/
theorem run_next {s t : State} (h : step s = .next t) (k : Nat) :
    Host.Core.run Sys2Proof.core (k + 1) s = Host.Core.run Sys2Proof.core k t := by
  have h' : Sys2Proof.core.step s = Host.Outcome.next t := h
  exact (Host.Core.run.eq_2 Sys2Proof.core s k).trans (by rw [h'])

/-- A run ends at the first fault, with that fault. -/
theorem run_fault {s : State} {r : Fault} (h : step s = .fault r) (k : Nat) :
    Host.Core.run Sys2Proof.core (k + 1) s = .fault r := by
  have h' : Sys2Proof.core.step s = Host.Outcome.fault r := h
  exact (Host.Core.run.eq_2 Sys2Proof.core s k).trans (by rw [h'])

end Sys2Proof.Machine
end

