-- ==== Sys2Proof/Laws/Exec.lean ====
section
/-! SUPPORT. One lemma per command with more than one way to end: the next states it can have and when.
The commands of one way are equations by `rfl`. -/

namespace Sys2Proof.Machine

-- One declaration at a time: fewer threads, so that the module builds within the memory limit.
set_option Elab.async false

theorem exec_nop (s : State) : exec .nop s = .next s := rfl

theorem exec_sreset (s : State) : exec .sreset s = .next s.withResetValues := rfl

theorem exec_get (r : Byte) (s : State) :
    (∃ w, s.register r = some w ∧ exec (.get r) s = .next (s.emit w)) ∨
    (s.register r = none ∧ exec (.get r) s = .next (s.withErr eRange)) := by
  simp only [exec, execGet]
  cases h : s.register r <;> simp

theorem exec_inClr (s : State) :
    exec .inClr s = .next (({ s with ilen := 0 } : State).withErr eOk) := rfl

theorem exec_inPush (b : Byte) (s : State) :
    (s.ilen.toNat = s.cfg.bufsz ∧ exec (.inPush b) s = .next (s.withErr eOvf)) ∨
    (s.ilen.toNat ≠ s.cfg.bufsz ∧ exec (.inPush b) s = .next ((s.pushInput b).withErr eOk)) := by
  simp only [exec, execInPush]
  split <;> simp_all

theorem exec_outRd (idx : Word) (s : State) :
    (s.olen.toNat ≤ idx.toNat ∧ exec (.outRd idx) s = .next (s.withErr eRange)) ∨
    (idx.toNat < s.olen.toNat ∧
      exec (.outRd idx) s = .next ((s.emit (zext16 (s.obuf.read idx.toNat))).withErr eOk)) := by
  simp only [exec, execOutRd]
  split <;> simp_all

theorem exec_xfer (s : State) : exec .xfer s = .next ((s.withInput s.output).withErr eOk) := rfl

theorem exec_crcCfg (poly init xorout : Word) (order : Byte) (s : State) :
    (2 ≤ order.toNat ∧ exec (.crcCfg poly init xorout order) s = .next (s.withErr eRange)) ∨
    (order.toNat < 2 ∧ exec (.crcCfg poly init xorout order) s =
      .next ((s.configure poly init xorout (switchBit order)).withErr eOk)) := by
  by_cases h : 2 ≤ order.toNat
  · exact .inl ⟨h, by simp [exec, execCrcCfg, reservedSwitch, h]⟩
  · exact .inr ⟨by omega, by simp [exec, execCrcCfg, reservedSwitch, h]⟩

theorem exec_crcPreset (n : Byte) (s : State) :
    (s.cfg.presets.row n = none ∧ exec (.crcPreset n) s = .next (s.withErr eRange)) ∨
    (∃ p, s.cfg.presets.row n = some p ∧
      exec (.crcPreset n) s = .next ((s.configure p.poly p.init p.xorout p.lsbf).withErr eOk)) := by
  simp only [exec, execCrcPreset]
  cases h : s.cfg.presets.row n <;> simp

theorem exec_crcStart (s : State) :
    (s.status.cfgd = false ∧ exec .crcStart s = .next (s.withErr eNocfg)) ∨
    (s.status.cfgd = true ∧ exec .crcStart s = .next (s.crcBegin.withErr eOk)) := by
  simp only [exec, execCrcStart]
  split <;> simp_all

theorem exec_crcUpdate (s : State) :
    (s.status.cfgd = false ∧ exec .crcUpdate s = .next (s.withErr eNocfg)) ∨
    (s.status.cfgd = true ∧ s.status.run = false ∧ exec .crcUpdate s = .next (s.withErr eNostart)) ∨
    (s.status.cfgd = true ∧ s.status.run = true ∧ exec .crcUpdate s = .next (s.crcFeed.withErr eOk)) := by
  simp only [exec, execCrcUpdate]
  split
  · simp_all
  · split <;> simp_all

theorem exec_crcFinal (s : State) :
    (s.status.cfgd = false ∧ exec .crcFinal s = .next (s.withErr eNocfg)) ∨
    (s.status.cfgd = true ∧ s.status.run = false ∧ exec .crcFinal s = .next (s.withErr eNostart)) ∨
    (s.status.cfgd = true ∧ s.status.run = true ∧ exec .crcFinal s = .next (s.crcFinish.withErr eOk)) := by
  simp only [exec, execCrcFinal]
  split
  · simp_all
  · split <;> simp_all

theorem exec_crcCalc (s : State) :
    (s.status.cfgd = false ∧ exec .crcCalc s = .next (s.withErr eNocfg)) ∨
    (s.status.cfgd = true ∧ exec .crcCalc s = .next (s.crcBegin.crcFeed.crcFinish.withErr eOk)) := by
  simp only [exec, execCrcCalc]
  split <;> simp_all

theorem exec_crcLutrd (i : Byte) (s : State) :
    (s.status.cfgd = false ∧ exec (.crcLutrd i) s = .next (s.withErr eNocfg)) ∨
    (s.status.cfgd = true ∧ exec (.crcLutrd i) s = .next ((s.emit (s.lutAt i)).withErr eOk)) := by
  simp only [exec, execCrcLutrd]
  split <;> simp_all

theorem exec_hdlcStuff (fc fb : Byte) (s : State) :
    (s.cfg.bufsz < (hdlcStuff s.cfg fc.toNat fb s.input).length ∧
      exec (.hdlcStuff fc fb) s = .next (s.withErr eOvf)) ∨
    ((hdlcStuff s.cfg fc.toNat fb s.input).length ≤ s.cfg.bufsz ∧
      exec (.hdlcStuff fc fb) s =
        .next ((s.withOutput (hdlcStuff s.cfg fc.toNat fb s.input)).withErr eOk)) := by
  simp only [exec, execHdlcStuff]
  split <;> simp_all

theorem exec_hdlcUnstuff (fb : Byte) (s : State) :
    exec (.hdlcUnstuff fb) s =
      .next ((({ (s.withOutput (hdlcUnstuff s.cfg fb s.input).out) with
        consumed := BitVec.ofNat 16 (ceil8 (hdlcUnstuff s.cfg fb s.input).used) } : State).withEnd
        (hdlcUnstuff s.cfg fb s.input).eof (hdlcUnstuff s.cfg fb s.input).resid).withErr eOk) := rfl

theorem exec_slipEnc (s : State) :
    (s.cfg.bufsz < (slipEncode s.cfg s.input).length ∧ exec .slipEnc s = .next (s.withErr eOvf)) ∨
    ((slipEncode s.cfg s.input).length ≤ s.cfg.bufsz ∧
      exec .slipEnc s = .next ((s.withOutput (slipEncode s.cfg s.input)).withErr eOk)) := by
  simp only [exec, execSlipEnc]
  split <;> simp_all

theorem exec_slipDec (s : State) :
    (∃ e, slipDecode s.cfg s.input = .failed e ∧ exec .slipDec s = .next (s.withErr e)) ∨
    (∃ out used, slipDecode s.cfg s.input = .frame out used ∧ exec .slipDec s =
      .next (({ (s.withOutput out) with consumed := BitVec.ofNat 16 used } : State).withErr eOk)) := by
  simp only [exec, execSlipDec]
  cases h : slipDecode s.cfg s.input <;> simp

/-- What `FSM.UNPACK` recovers once the marker is known (R189). -/
theorem exec_fsmUnpack (d : Byte) (s : State) :
    (2 ≤ d.toNat ∧ exec (.fsmUnpack d) s = .next (s.withErr eRange)) ∨
    (d.toNat < 2 ∧ s.ilen.toNat < s.cfg.asmLen ∧ exec (.fsmUnpack d) s = .next (s.withErr eTrunc)) ∨
    (d.toNat < 2 ∧ s.cfg.asmLen ≤ s.ilen.toNat ∧ markerOf s.cfg s.input = none ∧
      exec (.fsmUnpack d) s = .next (s.withErr eMarker)) ∨
    (d.toNat < 2 ∧ s.cfg.asmLen ≤ s.ilen.toNat ∧ ∃ inv, markerOf s.cfg s.input = some inv ∧
      exec (.fsmUnpack d) s =
        .next ((({ (s.withOutput (if switchBit d then descramble s.cfg (uninvert inv (s.input.drop s.cfg.asmLen))
              else uninvert inv (s.input.drop s.cfg.asmLen))) with
            lfsr := if switchBit d then keyState s.cfg (uninvert inv (s.input.drop s.cfg.asmLen)).length else s.lfsr,
            consumed := s.ilen } : State).withInv inv).withErr eOk)) := by
  simp only [exec, execFsmUnpack, reservedSwitch]
  by_cases h : 2 ≤ d.toNat
  · simp [h]
  · by_cases h4 : s.ilen.toNat < s.cfg.asmLen
    · simp [h, h4]; omega
    · cases hm : markerOf s.cfg s.input <;> simp [h, h4] <;> omega

theorem exec_lfsrDescr (s : State) :
    exec .lfsrDescr s =
      .next (({ (s.withOutput (descramble s.cfg s.input)) with
        lfsr := keyState s.cfg s.input.length } : State).withErr eOk) := rfl

/-! ## All commands at once -/

/-- Every way a command can end, from the state `s`: the command and the next state. -/
inductive Did (s : State) : Instr → State → Prop where
  | nop : Did s .nop s
  | sreset : Did s .sreset s.withResetValues
  | get (r : Byte) (w : Word) (h : s.register r = some w) : Did s (.get r) (s.emit w)
  | getRange (r : Byte) (h : s.register r = none) : Did s (.get r) (s.withErr eRange)
  | inClr : Did s .inClr (({ s with ilen := 0 } : State).withErr eOk)
  | inPush (b : Byte) (h : s.ilen.toNat ≠ s.cfg.bufsz) : Did s (.inPush b) ((s.pushInput b).withErr eOk)
  | inPushFull (b : Byte) (h : s.ilen.toNat = s.cfg.bufsz) : Did s (.inPush b) (s.withErr eOvf)
  | outRd (idx : Word) (h : idx.toNat < s.olen.toNat) :
    Did s (.outRd idx) ((s.emit (zext16 (s.obuf.read idx.toNat))).withErr eOk)
  | outRdRange (idx : Word) (h : s.olen.toNat ≤ idx.toNat) : Did s (.outRd idx) (s.withErr eRange)
  | xfer : Did s .xfer ((s.withInput s.output).withErr eOk)
  | crcCfg (p n x : Word) (o : Byte) (h : o.toNat < 2) :
    Did s (.crcCfg p n x o) ((s.configure p n x (switchBit o)).withErr eOk)
  | crcCfgRange (p n x : Word) (o : Byte) (h : 2 ≤ o.toNat) : Did s (.crcCfg p n x o) (s.withErr eRange)
  | crcPreset (n : Byte) (p : Preset) (h : s.cfg.presets.row n = some p) :
    Did s (.crcPreset n) ((s.configure p.poly p.init p.xorout p.lsbf).withErr eOk)
  | crcPresetRange (n : Byte) (h : s.cfg.presets.row n = none) : Did s (.crcPreset n) (s.withErr eRange)
  | crcStart (h : s.status.cfgd = true) : Did s .crcStart (s.crcBegin.withErr eOk)
  | crcStartNocfg (h : s.status.cfgd = false) : Did s .crcStart (s.withErr eNocfg)
  | crcUpdate (h : s.status.cfgd = true) (h' : s.status.run = true) : Did s .crcUpdate (s.crcFeed.withErr eOk)
  | crcUpdateNocfg (h : s.status.cfgd = false) : Did s .crcUpdate (s.withErr eNocfg)
  | crcUpdateNostart (h : s.status.cfgd = true) (h' : s.status.run = false) :
    Did s .crcUpdate (s.withErr eNostart)
  | crcFinal (h : s.status.cfgd = true) (h' : s.status.run = true) : Did s .crcFinal (s.crcFinish.withErr eOk)
  | crcFinalNocfg (h : s.status.cfgd = false) : Did s .crcFinal (s.withErr eNocfg)
  | crcFinalNostart (h : s.status.cfgd = true) (h' : s.status.run = false) :
    Did s .crcFinal (s.withErr eNostart)
  | crcCalc (h : s.status.cfgd = true) : Did s .crcCalc (s.crcBegin.crcFeed.crcFinish.withErr eOk)
  | crcCalcNocfg (h : s.status.cfgd = false) : Did s .crcCalc (s.withErr eNocfg)
  | crcLutrd (i : Byte) (h : s.status.cfgd = true) : Did s (.crcLutrd i) ((s.emit (s.lutAt i)).withErr eOk)
  | crcLutrdNocfg (i : Byte) (h : s.status.cfgd = false) : Did s (.crcLutrd i) (s.withErr eNocfg)
  | hdlcStuff (fc fb : Byte) (h : (hdlcStuff s.cfg fc.toNat fb s.input).length ≤ s.cfg.bufsz) :
    Did s (.hdlcStuff fc fb) ((s.withOutput (hdlcStuff s.cfg fc.toNat fb s.input)).withErr eOk)
  | hdlcStuffOvf (fc fb : Byte) (h : s.cfg.bufsz < (hdlcStuff s.cfg fc.toNat fb s.input).length) :
    Did s (.hdlcStuff fc fb) (s.withErr eOvf)
  | hdlcUnstuff (fb : Byte) :
    Did s (.hdlcUnstuff fb) ((({ (s.withOutput (hdlcUnstuff s.cfg fb s.input).out) with
      consumed := BitVec.ofNat 16 (ceil8 (hdlcUnstuff s.cfg fb s.input).used) } : State).withEnd
      (hdlcUnstuff s.cfg fb s.input).eof (hdlcUnstuff s.cfg fb s.input).resid).withErr eOk)
  | slipEnc (h : (slipEncode s.cfg s.input).length ≤ s.cfg.bufsz) :
    Did s .slipEnc ((s.withOutput (slipEncode s.cfg s.input)).withErr eOk)
  | slipEncOvf (h : s.cfg.bufsz < (slipEncode s.cfg s.input).length) : Did s .slipEnc (s.withErr eOvf)
  | slipDec (out : List Byte) (used : Nat) (h : slipDecode s.cfg s.input = .frame out used) :
    Did s .slipDec (({ (s.withOutput out) with consumed := BitVec.ofNat 16 used } : State).withErr eOk)
  | slipDecFailed (e : BitVec 8) (h : slipDecode s.cfg s.input = .failed e) : Did s .slipDec (s.withErr e)
  | fsmUnpackRange (d : Byte) (h : 2 ≤ d.toNat) : Did s (.fsmUnpack d) (s.withErr eRange)
  | fsmUnpackTrunc (d : Byte) (h : s.ilen.toNat < s.cfg.asmLen) : Did s (.fsmUnpack d) (s.withErr eTrunc)
  | fsmUnpackMarker (d : Byte) (h : markerOf s.cfg s.input = none) : Did s (.fsmUnpack d) (s.withErr eMarker)
  | fsmUnpack (d : Byte) (inv : Bool) (h : d.toNat < 2) (h' : s.cfg.asmLen ≤ s.ilen.toNat)
      (hm : markerOf s.cfg s.input = some inv) :
    Did s (.fsmUnpack d) ((({ (s.withOutput (if switchBit d then
          descramble s.cfg (uninvert inv (s.input.drop s.cfg.asmLen)) else uninvert inv (s.input.drop s.cfg.asmLen))) with
        lfsr := if switchBit d then keyState s.cfg (uninvert inv (s.input.drop s.cfg.asmLen)).length else s.lfsr,
        consumed := s.ilen } : State).withInv inv).withErr eOk)
  | lfsrDescr : Did s .lfsrDescr (({ (s.withOutput (descramble s.cfg s.input)) with
      lfsr := keyState s.cfg s.input.length } : State).withErr eOk)

/-- Every command ends in a next state, in one of the ways of `Did`. -/
theorem exec_spec (i : Instr) (s : State) : ∃ t, exec i s = .next t ∧ Did s i t := by
  cases i with
  | nop => exact ⟨_, rfl, .nop⟩
  | sreset => exact ⟨_, rfl, .sreset⟩
  | get r =>
    obtain ⟨w, h, e⟩ | ⟨h, e⟩ := exec_get r s
    exacts [⟨_, e, .get r w h⟩, ⟨_, e, .getRange r h⟩]
  | inClr => exact ⟨_, rfl, .inClr⟩
  | inPush b =>
    obtain ⟨h, e⟩ | ⟨h, e⟩ := exec_inPush b s
    exacts [⟨_, e, .inPushFull b h⟩, ⟨_, e, .inPush b h⟩]
  | outRd idx =>
    obtain ⟨h, e⟩ | ⟨h, e⟩ := exec_outRd idx s
    exacts [⟨_, e, .outRdRange idx h⟩, ⟨_, e, .outRd idx h⟩]
  | xfer => exact ⟨_, rfl, .xfer⟩
  | crcCfg p n x o =>
    obtain ⟨h, e⟩ | ⟨h, e⟩ := exec_crcCfg p n x o s
    exacts [⟨_, e, .crcCfgRange p n x o h⟩, ⟨_, e, .crcCfg p n x o h⟩]
  | crcPreset n =>
    obtain ⟨h, e⟩ | ⟨p, h, e⟩ := exec_crcPreset n s
    exacts [⟨_, e, .crcPresetRange n h⟩, ⟨_, e, .crcPreset n p h⟩]
  | crcStart =>
    obtain ⟨h, e⟩ | ⟨h, e⟩ := exec_crcStart s
    exacts [⟨_, e, .crcStartNocfg h⟩, ⟨_, e, .crcStart h⟩]
  | crcUpdate =>
    obtain ⟨h, e⟩ | ⟨h, h', e⟩ | ⟨h, h', e⟩ := exec_crcUpdate s
    exacts [⟨_, e, .crcUpdateNocfg h⟩, ⟨_, e, .crcUpdateNostart h h'⟩, ⟨_, e, .crcUpdate h h'⟩]
  | crcFinal =>
    obtain ⟨h, e⟩ | ⟨h, h', e⟩ | ⟨h, h', e⟩ := exec_crcFinal s
    exacts [⟨_, e, .crcFinalNocfg h⟩, ⟨_, e, .crcFinalNostart h h'⟩, ⟨_, e, .crcFinal h h'⟩]
  | crcCalc =>
    obtain ⟨h, e⟩ | ⟨h, e⟩ := exec_crcCalc s
    exacts [⟨_, e, .crcCalcNocfg h⟩, ⟨_, e, .crcCalc h⟩]
  | crcLutrd i =>
    obtain ⟨h, e⟩ | ⟨h, e⟩ := exec_crcLutrd i s
    exacts [⟨_, e, .crcLutrdNocfg i h⟩, ⟨_, e, .crcLutrd i h⟩]
  | hdlcStuff fc fb =>
    obtain ⟨h, e⟩ | ⟨h, e⟩ := exec_hdlcStuff fc fb s
    exacts [⟨_, e, .hdlcStuffOvf fc fb h⟩, ⟨_, e, .hdlcStuff fc fb h⟩]
  | hdlcUnstuff fb => exact ⟨_, rfl, .hdlcUnstuff fb⟩
  | slipEnc =>
    obtain ⟨h, e⟩ | ⟨h, e⟩ := exec_slipEnc s
    exacts [⟨_, e, .slipEncOvf h⟩, ⟨_, e, .slipEnc h⟩]
  | slipDec =>
    obtain ⟨x, h, e⟩ | ⟨out, used, h, e⟩ := exec_slipDec s
    exacts [⟨_, e, .slipDecFailed x h⟩, ⟨_, e, .slipDec out used h⟩]
  | fsmUnpack d =>
    obtain ⟨h, e⟩ | ⟨_, h, e⟩ | ⟨_, _, h, e⟩ | ⟨h, h', inv, hm, e⟩ := exec_fsmUnpack d s
    exacts [⟨_, e, .fsmUnpackRange d h⟩, ⟨_, e, .fsmUnpackTrunc d h⟩, ⟨_, e, .fsmUnpackMarker d h⟩,
      ⟨_, e, .fsmUnpack d inv h h' hm⟩]
  | lfsrDescr => exact ⟨_, rfl, .lfsrDescr⟩

/-- What a command that ended in `t` did. -/
theorem did_of_exec {i : Instr} {s t : State} (h : exec i s = .next t) : Did s i t := by
  obtain ⟨u, e, d⟩ := exec_spec i s
  rw [h] at e
  cases e
  exact d

/-! ## The step -/

/-- A meaning never faults, so a step faults with an illegal opcode only where the decoder met one. -/
theorem step_fault_cases {s t : State} (h : step s = .fault (.illegalOpcode t)) :
    s.ready ∧ ∃ op rest, decode s.cmd = .illegal op rest ∧
      t = (({ s with cmd := rest } : State).withErr eIllop).withFault := by
  unfold step State.nextAction at h
  by_cases hr : s.resetIn = true
  · simp_all
  · by_cases hf : s.status.fault = true
    · simp_all
    · have hready : s.ready := ⟨by simpa using hr, by simpa using hf⟩
      cases hd : decode s.cmd with
      | command i rest =>
        obtain ⟨u, hu, -⟩ := exec_spec i { s with cmd := rest }
        simp_all
      | illegal op rest => simp_all
      | needMore => simp_all

/-- Everything a step can leave the block in: reset, what a command did, waiting, the faulted state. -/
theorem leaves_cases {s t : State} (h : s.leaves t) :
    (s.resetIn = true ∧ t = s.hardReset) ∨
    (s.ready ∧ ∃ i rest, decode s.cmd = .command i rest ∧ Did { s with cmd := rest } i t) ∨
    (s.ready ∧ decode s.cmd = .needMore ∧ t = s) ∨
    (s.ready ∧ ∃ op rest, decode s.cmd = .illegal op rest ∧
      t = (({ s with cmd := rest } : State).withErr eIllop).withFault) := by
  rcases h with h | h
  · rcases step_cases h with h | ⟨hr, i, rest, hd, he⟩ | h
    · exact .inl h
    · exact .inr (.inl ⟨hr, i, rest, hd, did_of_exec he⟩)
    · exact .inr (.inr (.inl h))
  · exact .inr (.inr (.inr (step_fault_cases h)))

end Sys2Proof.Machine
end

