-- ==== Sys2Proof/Laws/Hdlc.lean ====
section
/-! SUPPORT. The HDLC unit: the bounds on what the destuffer gives, the length of the stuffer's result, and
how the destuffer follows the stuffer bit by bit and byte by byte (42_hdlc.md R151 to R155). -/

namespace Sys2Proof.Machine

/-! ## The destuffer's bounds -/

/-- What the destuffer's loop can answer on `len` bits with `n` bits already collected. -/
structure Unstuffed.Bounded (r : Unstuffed) (len n : Nat) : Prop where
  resid_lt  : r.resid < 8
  used_le   : r.used ≤ len
  out_le    : 8 * r.out.length ≤ n + r.used
  eof_resid : r.eof = true → r.resid = 0

theorem Unstuffed.Bounded.lookedAt {r : Unstuffed} {len n n' : Nat} (h : r.Bounded len n) (hn : n ≤ n' + 1) :
    (lookedAt r).Bounded (len + 1) n' :=
  ⟨h.resid_lt, Nat.succ_le_succ h.used_le, by
    have := h.out_le
    simp only [Sys2Proof.Machine.lookedAt]; omega, h.eof_resid⟩

theorem unstuffBits_bounded (ones : Nat) (fb : Byte) (bits : List Bool) (run n : Nat) (acc : Byte) (hn : n < 8) :
    (unstuffBits ones fb bits run n acc).Bounded bits.length n := by
  induction bits generalizing run n acc with
  | nil => exact ⟨hn, Nat.le_refl _, by simp [unstuffBits], by simp [unstuffBits]⟩
  | cons b t ih =>
    rw [unstuffBits]
    split
    · exact (ih 0 n acc hn).lookedAt (by omega)
    · simp only
      split
      · split
        · exact ⟨by simp, by simp, by simp, by simp⟩
        · have h := ih (if b = true then min (run + 1) (ones + 1) else 0) 0 0 (by omega)
          refine ⟨h.resid_lt, Nat.succ_le_succ h.used_le, ?_, h.eof_resid⟩
          have := h.out_le
          simp only [decodedByte, Sys2Proof.Machine.lookedAt, List.length_cons]
          omega
      · exact (ih _ (n + 1) _ (by omega)).lookedAt (by omega)

/-- What `unstuff` can answer: never more bytes than it was given, fewer than eight bits left over, and none
left over when it stopped at a flag (R152, R45 (e)). -/
theorem hdlcUnstuff_bounded (c : Config) (fb : Byte) (data : List Byte) :
    (hdlcUnstuff c fb data).out.length ≤ data.length ∧ (hdlcUnstuff c fb data).used ≤ 8 * data.length ∧
    (hdlcUnstuff c fb data).resid < 8 ∧
    ((hdlcUnstuff c fb data).eof = true → (hdlcUnstuff c fb data).resid = 0) := by
  have hp : (data.takeWhile (· == fb)).length ≤ data.length := (List.takeWhile_sublist _).length_le
  have h := unstuffBits_bounded c.hdlcRun fb (bitsOf (data.drop (data.takeWhile (· == fb)).length)) 0 0 0 (by omega)
  have h1 := h.used_le
  have h2 := h.out_le
  rw [length_bitsOf, List.length_drop] at h1
  refine ⟨?_, ?_, h.resid_lt, h.eof_resid⟩
  · simp only [hdlcUnstuff]; omega
  · simp only [hdlcUnstuff]; omega

/-! ## The stuffer's length -/

theorem length_padBits (pad : Bool) (bits : List Bool) :
    (padBits pad bits).length = 8 * ceil8 bits.length := by
  have : bits.length ≤ 8 * ceil8 bits.length := by unfold ceil8; omega
  simp [padBits]; omega

@[simp] theorem length_flagBits (fc : Nat) (fb : Byte) : (flagBits fc fb).length = 8 * fc := by
  induction fc with
  | zero => rfl
  | succ n ih =>
    simp only [flagBits, List.replicate_succ, List.flatten_cons, List.length_append, length_lsbits] at ih ⊢
    omega

/-- The stuffer's result is as long as R153 says, in terms of the stuffed frame's bits. -/
theorem length_hdlcStuff (c : Config) (fc : Nat) (fb : Byte) (data : List Byte) :
    (hdlcStuff c fc fb data).length =
      ceil8 (16 * fc + (stuffBits c.hdlcRun 0 (bitsOf data)).length) := by
  rw [hdlcStuff, length_packlsb, length_padBits]
  simp only [List.length_append, length_flagBits]
  rw [Nat.mul_div_cancel_left _ (by omega)]
  congr 1; omega

/-! ## The destuffer follows the stuffer -/

/-- The ones in a row after a frame bit, as the stuffer counts them. -/
def runAfter (ones run : Nat) (b : Bool) : Nat := if b then (if run + 1 = ones then 0 else run + 1) else 0

theorem runAfter_lt {ones run : Nat} (h : run < ones) (b : Bool) : runAfter ones run b < ones := by
  unfold runAfter at *
  split <;> [split; skip] <;> omega

/-- What the destuffer reports, less the count of bits it looked at. -/
def Unstuffed.report (r : Unstuffed) : List Byte × Bool × Nat := (r.out, r.eof, r.resid)

/-- The destuffer on frame bits that were never stuffed, going on with `k` when they end. -/
def collect (ones : Nat) (fb : Byte) (k : Nat → Nat → Byte → Unstuffed) : List Bool → Nat → Nat → Byte → Unstuffed
  | [], run, n, acc => k run n acc
  | b :: t, run, n, acc =>
    if n + 1 = 8 then
      if setBit acc n b = fb then { out := [], eof := true, resid := 0, used := 1 }
      else decodedByte (setBit acc n b) (collect ones fb k t (runAfter ones run b) 0 0)
    else lookedAt (collect ones fb k t (runAfter ones run b) (n + 1) (setBit acc n b))

/-- The destuffer takes the stuffed zeros out: on stuffed bits it reports what it would report on the frame
bits themselves. -/
theorem unstuffBits_stuffBits (ones : Nat) (fb : Byte) (tail bits : List Bool) (run n : Nat) (acc : Byte)
    (hr : run < ones) :
    (unstuffBits ones fb (stuffBits ones run bits ++ tail) run n acc).report =
      (collect ones fb (fun run n acc => unstuffBits ones fb tail run n acc) bits run n acc).report := by
  induction bits generalizing run n acc with
  | nil => rfl
  | cons b t ih =>
    have hlook : ∀ r r' : Unstuffed, r.report = r'.report → (lookedAt r).report = (lookedAt r').report := by
      intro r r' h; simpa [Unstuffed.report, lookedAt] using h
    have hdec : ∀ (x : Byte) (r r' : Unstuffed), r.report = r'.report →
        (decodedByte x r).report = (decodedByte x r').report := by
      intro x r r' h
      simp only [Unstuffed.report, decodedByte, lookedAt, Prod.mk.injEq] at h ⊢
      simp [h.1, h.2.1, h.2.2]
    have hdrop : ∀ r : Unstuffed, (lookedAt r).report = r.report := fun _ => rfl
    cases b with
    | false =>
      have hne : ¬ (run = ones) := by omega
      simp only [stuffBits, List.cons_append, unstuffBits, collect, runAfter, hne, and_false, if_false,
        Bool.false_eq_true]
      split
      · split
        · rfl
        · exact hdec _ _ _ (ih 0 0 0 (by omega))
      · exact hlook _ _ (ih 0 (n + 1) _ (by omega))
    | true =>
      by_cases h5 : run + 1 = ones
      · have hmin : min (run + 1) (ones + 1) = ones := by omega
        have hzero : ∀ n acc, (unstuffBits ones fb (false :: (stuffBits ones 0 t ++ tail)) ones n acc).report =
            (collect ones fb (fun run n acc => unstuffBits ones fb tail run n acc) t 0 n acc).report := by
          intro n acc
          rw [unstuffBits, if_pos ⟨rfl, rfl⟩, hdrop]
          exact ih 0 n acc (by omega)
        simp only [stuffBits, h5, if_true, List.cons_append, collect, runAfter]
        rw [unstuffBits]
        simp only [Bool.true_eq_false, false_and, if_false, if_true, hmin]
        split
        · split
          · rfl
          · exact hdec _ _ _ (hzero 0 0)
        · exact hlook _ _ (hzero (n + 1) _)
      · have hmin : min (run + 1) (ones + 1) = run + 1 := by omega
        simp only [stuffBits, h5, if_false, List.cons_append, collect, runAfter]
        rw [unstuffBits]
        simp only [Bool.true_eq_false, false_and, if_false, if_true, hmin]
        split
        · split
          · rfl
          · exact hdec _ _ _ (ih (run + 1) 0 0 (by omega))
        · exact hlook _ _ (ih (run + 1) (n + 1) _ (by omega))

/-- Eight frame bits are one byte: it stops the decoding if it is the flag, and is put out otherwise. -/
theorem collect_byte (ones : Nat) (fb : Byte) (k : Nat → Nat → Byte → Unstuffed) (b : Byte) (t : List Bool) (run : Nat)
    (hr : run < ones) : ∃ run', run' < ones ∧
    (collect ones fb k (lsbits b ++ t) run 0 0).report =
      if b = fb then ([], true, 0)
      else (b :: (collect ones fb k t run' 0 0).out, (collect ones fb k t run' 0 0).eof,
        (collect ones fb k t run' 0 0).resid) := by
  have hacc : setBit (setBit (setBit (setBit (setBit (setBit (setBit (setBit (0 : Byte) 0 (b.getLsbD 0)) 1
      (b.getLsbD 1)) 2 (b.getLsbD 2)) 3 (b.getLsbD 3)) 4 (b.getLsbD 4)) 5 (b.getLsbD 5)) 6 (b.getLsbD 6)) 7
      (b.getLsbD 7) = b := by
    apply BitVec.eq_of_getLsbD_eq
    intro i hi
    match i, hi with
    | 0, _ | 1, _ | 2, _ | 3, _ | 4, _ | 5, _ | 6, _ | 7, _ =>
      simp only [getLsbD_setBit, Nat.reduceLT, Nat.reduceEqDiff, if_true, if_false,
        OfNat.ofNat_ne_zero, OfNat.zero_ne_ofNat, OfNat.ofNat_ne_one, OfNat.one_ne_ofNat, one_ne_zero,
        zero_ne_one]
  refine ⟨[b.getLsbD 0, b.getLsbD 1, b.getLsbD 2, b.getLsbD 3, b.getLsbD 4, b.getLsbD 5, b.getLsbD 6,
    b.getLsbD 7].foldl (runAfter ones) run,
    ?_, ?_⟩
  · exact runAfter_lt (runAfter_lt (runAfter_lt (runAfter_lt (runAfter_lt (runAfter_lt (runAfter_lt
      (runAfter_lt hr _) _) _) _) _) _) _) _
  · simp only [lsbits, List.cons_append, List.nil_append, collect, Nat.reduceAdd, Nat.reduceEqDiff, if_false,
      if_true, hacc]
    split
    · rfl
    · rfl

end Sys2Proof.Machine
end

