-- ==== Sys2Proof/Laws/Lfsr.lean ====
section
/-! SUPPORT. The key stream bit by bit, and what descrambling, un-inverting and marker matching do to each
byte (44_fsm_lfsr.md R185 to R192). -/

namespace Sys2Proof.Machine

open Reference (lfsrNext)

/-! ## The key stream -/

theorem lfsrStep_eq (p s : Word) : lfsrStep p s = (s.getLsbD 0, lfsrNext p s) := rfl

/-- A key byte's bits are eight output bits, the first on bit 7, and the state is eight steps on (R188). -/
theorem lfsrByte_spec (p s : Word) :
    (lfsrByte p s).2 = (lfsrNext p)^[8] s ∧
    ∀ j, j < 8 → (lfsrByte p s).1.getLsbD j = ((lfsrNext p)^[7 - j] s).getLsbD 0 := by
  refine ⟨rfl, fun j hj => ?_⟩
  simp only [lfsrByte, List.foldl_cons, List.foldl_nil, lfsrBit, lfsrStep_eq]
  match j, hj with
  | 0, _ | 1, _ | 2, _ | 3, _ | 4, _ | 5, _ | 6, _ | 7, _ =>
    simp only [getLsbD_setBit, Function.iterate_succ_apply, Function.iterate_zero, id_eq, Nat.reduceSub,
      Nat.reduceEqDiff, Nat.reduceLT, if_true, if_false, OfNat.ofNat_ne_zero, OfNat.zero_ne_ofNat,
      OfNat.ofNat_ne_one, OfNat.one_ne_ofNat, one_ne_zero, zero_ne_one]

@[simp] theorem length_lfsrStream (p : Word) (n : Nat) (s : Word) : (lfsrStream p n s).1.length = n := by
  induction n generalizing s with
  | zero => rfl
  | succ n ih => simp [lfsrStream, ih]

theorem lfsrStream_state (p : Word) (n : Nat) (s : Word) :
    (lfsrStream p n s).2 = (lfsrNext p)^[8 * n] s := by
  induction n generalizing s with
  | zero => rfl
  | succ n ih =>
    rw [lfsrStream]
    simp only
    rw [ih, (lfsrByte_spec p s).1, ← Function.iterate_add_apply, show 8 * n + 8 = 8 * (n + 1) by omega]

theorem lfsrStream_getElem (p : Word) (n : Nat) (s : Word) (k : Nat) (h : k < (lfsrStream p n s).1.length) :
    (lfsrStream p n s).1[k] = (lfsrByte p ((lfsrNext p)^[8 * k] s)).1 := by
  induction n generalizing s k with
  | zero => simp [lfsrStream] at h
  | succ n ih =>
    cases k with
    | zero => rfl
    | succ k =>
      simp only [lfsrStream, List.getElem_cons_succ]
      rw [ih _ k (by simpa [lfsrStream] using h), (lfsrByte_spec p s).1, ← Function.iterate_add_apply,
        show 8 * k + 8 = 8 * (k + 1) by omega]

@[simp] theorem length_keyStream (c : Config) (n : Nat) : (keyStream c n).length = n :=
  length_lfsrStream ..

/-- Key byte `k` is the reference's (R188, R192). -/
theorem keyStream_getElem (c : Config) (n k : Nat) (h : k < (keyStream c n).length) :
    (keyStream c n)[k] = Reference.keyByte c k := by
  rw [show (keyStream c n)[k] = _ from lfsrStream_getElem c.lfsrPoly n c.lfsrSeed k h]
  apply BitVec.eq_of_getLsbD_eq
  intro j hj
  rw [(lfsrByte_spec _ _).2 j hj, Reference.keyByte, getLsbD_ofBitsLE _ _ hj,
    ← Function.iterate_add_apply]
  simp [List.getD_eq_getElem?_getD, hj, Reference.lfsrAfter, Nat.add_comm]

theorem keyState_eq (c : Config) (n : Nat) : keyState c n = Reference.lfsrAfter c (8 * n) :=
  lfsrStream_state ..

/-! ## Descrambling and un-inverting -/

@[simp] theorem length_descramble (c : Config) (d : List Byte) : (descramble c d).length = d.length := by
  simp [descramble]

theorem descramble_getElem (c : Config) (d : List Byte) (k : Nat) (h : k < (descramble c d).length) :
    (descramble c d)[k] = d[k]'(by simpa using h) ^^^ Reference.keyByte c k := by
  simp only [descramble, List.getElem_zipWith, keyStream_getElem]

@[simp] theorem length_uninvert (inv : Bool) (d : List Byte) : (uninvert inv d).length = d.length := by
  simp [uninvert]

theorem uninvert_getElem (inv : Bool) (d : List Byte) (k : Nat) (h : k < (uninvert inv d).length) :
    (uninvert inv d)[k] = d[k]'(by simpa using h) ^^^ (if inv then 0xFF else 0x00) := by
  simp only [uninvert, List.getElem_map]

/-! ## The marker -/

/-- The first four bytes of a long enough input are the marker exactly when the four reads are (R185). -/
theorem take_four_input (s : State) (v : Marker) (h : 4 ≤ s.ilen.toNat) :
    s.input.take 4 = asmBytes v ↔ StartsWithMarker s v := by
  obtain ⟨n, hn⟩ : ∃ n, s.ilen.toNat = 4 + n := ⟨s.ilen.toNat - 4, by omega⟩
  have : s.input.take 4 = [s.ibuf.read 0, s.ibuf.read 1, s.ibuf.read 2, s.ibuf.read 3] := by
    apply List.ext_getElem
    · simp; omega
    · intro i h1 h2
      simp only [List.getElem_take, State.input, Memory.getElem_bytes]
      match i, h2 with
      | 0, _ | 1, _ | 2, _ | 3, _ => rfl
  rw [this, asmBytes, StartsWithMarker]
  simp

/-- No bytes start with both markers. -/
theorem not_both_markers (s : State) (v : Marker) :
    ¬ (StartsWithMarker s v ∧ StartsWithMarker s (~~~ v)) := by
  rintro ⟨⟨h, -⟩, ⟨h', -⟩⟩
  rw [h] at h'
  have := congrArg (fun b : Byte => b.getLsbD 0) h'
  simp at this

/-- Which marker is found, told by reads. -/
theorem markerOf_eq (s : State) (h4 : s.cfg.asmLen = 4) (h : 4 ≤ s.ilen.toNat) :
    (StartsWithMarker s s.cfg.asmA ∧ markerOf s.cfg s.input = some false) ∨
    (StartsWithMarker s (~~~ s.cfg.asmA) ∧ markerOf s.cfg s.input = some true) ∨
    (¬ StartsWithMarker s s.cfg.asmA ∧ ¬ StartsWithMarker s (~~~ s.cfg.asmA) ∧
      markerOf s.cfg s.input = none) := by
  rw [← take_four_input s _ h, ← take_four_input s _ h]
  rw [show (~~~ s.cfg.asmA) = s.cfg.asmB from rfl, markerOf, h4]
  by_cases ha : s.input.take 4 = asmBytes s.cfg.asmA
  · simp [ha]
  · by_cases hb : s.input.take 4 = asmBytes s.cfg.asmB
    · exact .inr (.inl ⟨hb, by rw [if_neg ha, if_pos hb]⟩)
    · exact .inr (.inr ⟨ha, hb, by rw [if_neg ha, if_neg hb]⟩)

end Sys2Proof.Machine
end

