-- ==== Sys2Proof/Laws/PerInstr.lean ====
section
/-! SUPPORT. Facts about every command as text, one lemma per constructor. -/

namespace Sys2Proof.Laws.EncodedLength

/-- The encoding is as long as its own byte 0 tells the decoder (30_encoding.md R86). -/
def Statement (i : Instr) : Prop :=
  ∃ op t, encode i = op :: t ∧ commandLength op = some (encode i).length

theorem nop : Statement .nop := ⟨_, _, rfl, rfl⟩
theorem sreset : Statement .sreset := ⟨_, _, rfl, rfl⟩
theorem get (r : Byte) : Statement (.get r) := ⟨_, _, rfl, rfl⟩
theorem inClr : Statement .inClr := ⟨_, _, rfl, rfl⟩
theorem inPush (b : Byte) : Statement (.inPush b) := ⟨_, _, rfl, rfl⟩
theorem outRd (idx : Word) : Statement (.outRd idx) := ⟨_, _, rfl, rfl⟩
theorem xfer : Statement .xfer := ⟨_, _, rfl, rfl⟩
theorem crcCfg (poly init xorout : Word) (order : Byte) : Statement (.crcCfg poly init xorout order) := ⟨_, _, rfl, rfl⟩
theorem crcPreset (n : Byte) : Statement (.crcPreset n) := ⟨_, _, rfl, rfl⟩
theorem crcStart : Statement .crcStart := ⟨_, _, rfl, rfl⟩
theorem crcUpdate : Statement .crcUpdate := ⟨_, _, rfl, rfl⟩
theorem crcFinal : Statement .crcFinal := ⟨_, _, rfl, rfl⟩
theorem crcCalc : Statement .crcCalc := ⟨_, _, rfl, rfl⟩
theorem crcLutrd (i : Byte) : Statement (.crcLutrd i) := ⟨_, _, rfl, rfl⟩
theorem hdlcStuff (fc fb : Byte) : Statement (.hdlcStuff fc fb) := ⟨_, _, rfl, rfl⟩
theorem hdlcUnstuff (fb : Byte) : Statement (.hdlcUnstuff fb) := ⟨_, _, rfl, rfl⟩
theorem slipEnc : Statement .slipEnc := ⟨_, _, rfl, rfl⟩
theorem slipDec : Statement .slipDec := ⟨_, _, rfl, rfl⟩
theorem fsmUnpack (d : Byte) : Statement (.fsmUnpack d) := ⟨_, _, rfl, rfl⟩
theorem lfsrDescr : Statement .lfsrDescr := ⟨_, _, rfl, rfl⟩

end Sys2Proof.Laws.EncodedLength
end

