-- ==== Sys2Proof/Laws/Slip.lean ====
section
/-! SUPPORT. The SLIP unit: the codes the decoder can fail with, the bounds on what it takes and gives, and
what it makes of the encoder's output (43_slip.md R171 to R173). -/

namespace Sys2Proof.Machine

/-- What a frame scan of `data` may answer: `E_TRUNC`, `E_ESC`, or a frame shorter than what it took. -/
def SlipResult.okFor (data : List Byte) : SlipResult → Prop
  | .failed e => e = eTrunc ∨ e = eEsc
  | .frame out used => out.length < used ∧ used ≤ data.length

theorem SlipResult.okFor_prepend {r : SlipResult} {t data : List Byte} {k : Nat} (b : Byte)
    (h : r.okFor t) (hk : 1 ≤ k) (hl : t.length + k = data.length) : (r.prepend b k).okFor data := by
  cases r with
  | failed e => exact h
  | frame out used =>
    simp only [SlipResult.prepend, SlipResult.okFor, List.length_cons] at h ⊢
    omega

/-- One turn of the frame scan (R172). -/
theorem slipFrame_cons (c : Config) (b : Byte) (t : List Byte) :
    slipFrame c (b :: t) =
      if b = c.slipEnd then .frame [] 1
      else if b = c.slipEsc then
        match t with
        | [] => .failed eTrunc
        | e :: t' =>
          if e = c.slipEscEnd then (slipFrame c t').prepend c.slipEnd 2
          else if e = c.slipEscEsc then (slipFrame c t').prepend c.slipEsc 2
          else .failed eEsc
      else (slipFrame c t).prepend b 1 :=
  (slipFrame.eq_def c (b :: t)).trans rfl

/-- Everything the frame scan can answer. -/
theorem slipFrame_okFor (c : Config) (data : List Byte) : (slipFrame c data).okFor data := by
  induction h : data.length using Nat.strong_induction_on generalizing data with
  | _ n ih =>
    match data, h with
    | [], _ => exact .inl rfl
    | b :: t, h =>
      rw [slipFrame_cons]
      split
      · simp [SlipResult.okFor]
      · split
        · match t, h with
          | [], _ => exact .inl rfl
          | e :: t', h =>
            simp only
            simp only [List.length_cons] at h
            split
            · exact SlipResult.okFor_prepend _ (ih _ (by omega) t' rfl) (by omega) (by simp)
            · split
              · exact SlipResult.okFor_prepend _ (ih _ (by omega) t' rfl) (by omega) (by simp)
              · exact .inr rfl
        · simp only [List.length_cons] at h
          exact SlipResult.okFor_prepend _ (ih _ (by omega) t rfl) (by omega) (by simp)

/-- Everything the decoder can answer. -/
theorem slipDecode_okFor (c : Config) (data : List Byte) : (slipDecode c data).okFor data := by
  have hp : (data.takeWhile (· == c.slipEnd)).length ≤ data.length :=
    (List.takeWhile_sublist _).length_le
  have h := slipFrame_okFor c (data.drop (data.takeWhile (· == c.slipEnd)).length)
  unfold slipDecode
  simp only
  cases hr : slipFrame c (data.drop (data.takeWhile (· == c.slipEnd)).length) with
  | failed e => rw [hr] at h; exact h
  | frame out used =>
    rw [hr] at h
    simp only [SlipResult.okFor, List.length_drop] at h ⊢
    omega

/-- The four special bytes are such that an escape can be told from data and its two forms apart. -/
def SlipDistinct (c : Config) : Prop := c.slipEsc ≠ c.slipEnd ∧ c.slipEscEnd ≠ c.slipEscEsc

/-- The frame scan gives escaped data back, up to the closing END. -/
theorem slipFrame_escaped (c : Config) (hc : SlipDistinct c) (data rest : List Byte) :
    slipFrame c (data.flatMap (slipEscape c) ++ c.slipEnd :: rest) =
      .frame data ((data.flatMap (slipEscape c)).length + 1) := by
  induction data with
  | nil => rw [List.flatMap_nil, List.nil_append, slipFrame_cons]; simp
  | cons b t ih =>
    rw [List.flatMap_cons, List.append_assoc]
    by_cases h1 : b = c.slipEnd
    · subst h1
      rw [show slipEscape c c.slipEnd = [c.slipEsc, c.slipEscEnd] by simp [slipEscape], List.cons_append,
        slipFrame_cons, if_neg hc.1, if_pos rfl]
      simp only [List.cons_append, List.nil_append, if_true, ih, SlipResult.prepend]
      congr 1
    · by_cases h2 : b = c.slipEsc
      · subst h2
        rw [show slipEscape c c.slipEsc = [c.slipEsc, c.slipEscEsc] by simp [slipEscape, h1],
          List.cons_append, slipFrame_cons, if_neg hc.1, if_pos rfl]
        simp only [List.cons_append, List.nil_append, if_neg (Ne.symm hc.2), if_true, ih,
          SlipResult.prepend]
        congr 1
      · rw [show slipEscape c b = [b] by simp [slipEscape, h1, h2], List.cons_append, List.nil_append,
          slipFrame_cons, if_neg h1, if_neg h2, ih, SlipResult.prepend]
        congr 1

/-- No escaped byte starts with END. -/
theorem slipEscape_head (c : Config) (hc : SlipDistinct c) (b : Byte) :
    ∃ x t, slipEscape c b = x :: t ∧ x ≠ c.slipEnd := by
  unfold slipEscape
  by_cases h1 : b = c.slipEnd
  · exact ⟨_, _, if_pos h1, hc.1⟩
  · by_cases h2 : b = c.slipEsc
    · exact ⟨_, _, by rw [if_neg h1, if_pos h2], hc.1⟩
    · exact ⟨_, _, by rw [if_neg h1, if_neg h2], h1⟩

end Sys2Proof.Machine
end

