-- ==== Sys2Proof/WellFormed.lean ====
section
/-! DEFINITION. Which commands have operands that mean something (30_encoding.md R85). A command with a
reserved operand value is legal to send: the decoder yields it and the machine fails it with `E_RANGE`.
`OUT.RD`'s bound depends on the state (`OLEN`) and is checked by its meaning alone (log entry 11). -/

namespace Sys2Proof

/-- R85: no operand holds a reserved value. One check for each command that has reserved values. -/
def Instr.wellFormed : Instr → Bool
  | .nop => true
  | .sreset => true
  | .get r => decide (r.toNat < 11)
  | .inClr => true
  | .inPush _ => true
  | .outRd _ => true
  | .xfer => true
  | .crcCfg _ _ _ order => decide (order.toNat < 2)
  | .crcPreset n => decide (n.toNat < 6)
  | .crcStart => true
  | .crcUpdate => true
  | .crcFinal => true
  | .crcCalc => true
  | .crcLutrd _ => true
  | .hdlcStuff _ _ => true
  | .hdlcUnstuff _ => true
  | .slipEnc => true
  | .slipDec => true
  | .fsmUnpack d => decide (d.toNat < 2)
  | .lfsrDescr => true

end Sys2Proof
end

