-- ==== Sys2Proof/Tests/Slice0.lean ====
section
/-! SUPPORT. Tests of one step each, with expected values from the vectors of 95_test_vectors.md (named in
the docstrings), and for every obligation with hypotheses a theorem that shows states and operands which
meet them. -/

namespace Sys2Proof.Tests

-- One declaration at a time: fewer threads, so that the module builds within the memory limit.
set_option Elab.async false

open Sys2Proof Sys2Proof.Machine

/-! ## Helpers -/

/-- A block right after reset with `bs` pushed into `IBUF`. -/
def loaded (c : Config) (bs : List Byte) : State :=
  { State.resetWith c with ibuf := Memory.writeBytes [] 0 bs, ilen := BitVec.ofNat 16 bs.length }

/-- `loaded` with the parameters the vectors assume. -/
def withIn (bs : List Byte) : State := loaded Config.default bs

/-- The smallest block R8 admits. -/
def small : Config := { Config.default with bufsz := 8 }

/-- A block right after reset with `bs` as its last result. -/
def withOut (bs : List Byte) : State := State.reset.withOutput bs

/-- What `f` sees of the next state. -/
def seen {α : Type} (f : State → α) : Host.Outcome State Fault Refusal → Option α
  | .next s => some (f s)
  | .fault _ => none
  | .refused _ => none

/-- What `f` sees of the state of a fault on an illegal opcode. -/
def seenFaulted {α : Type} (f : State → α) : Host.Outcome State Fault Refusal → Option α
  | .fault (.illegalOpcode s) => some (f s)
  | .fault .stuckUntilReset => none
  | .next _ => none
  | .refused _ => none

theorem loaded_inv (c : Config) (bs : List Byte) (hc : c.wf = true) (hl : bs.length ≤ c.bufsz) :
    (loaded c bs).Inv where
  cfg_wf := hc
  ilen_le := by
    rw [show (loaded c bs).ilen = BitVec.ofNat 16 bs.length from rfl, BitVec.toNat_ofNat]
    exact Nat.le_trans (Nat.mod_le ..) hl
  olen_le := Nat.zero_le _
  lut_built := by intro h; cases h
  run_cfgd := by intro h; cases h
  eof_resid := by intro h; cases h
  fault_err := ⟨(by intro h; cases h), (by intro h; cases h)⟩
  err_listed := List.mem_cons_self
  ibuf_wf := Memory.wf_writeBytes rfl 0 bs
  obuf_wf := rfl
  ibuf_within := Memory.within_writeBytes rfl bs 0 ((Nat.zero_add _).symm ▸ hl)
  obuf_within := rfl
  lut_size := List.length_replicate.trans (Config.wf_spec hc).lutN

theorem configured_inv {s : State} (h : s.Inv) (p n x : Word) (l : Bool) : (s.configure p n x l).Inv :=
  { h with
    lut_built := fun _ i => State.lutAt_configure s h.cfg_wf p n x l i
    run_cfgd := fun hr => by cases hr
    lut_size := (length_lutBuild ..).trans (Config.wf_spec h.cfg_wf).lutN }

/-- A configured block, CRC-16 of preset 0. -/
def configured (c : Config) (bs : List Byte) : State := (loaded c bs).configure 0x1021 0xFFFF 0x0000 false

/-! ## WellFormed: each check refuses an ill-formed term -/

theorem test_wf_get : (Instr.get 0x0B).wellFormed = false ∧ (Instr.get 0x0A).wellFormed = true := by decide
theorem test_wf_crcCfg : (Instr.crcCfg 0x1021 0 0 2).wellFormed = false ∧
    (Instr.crcCfg 0x1021 0 0 1).wellFormed = true := by decide
theorem test_wf_crcPreset : (Instr.crcPreset 6).wellFormed = false ∧
    (Instr.crcPreset 5).wellFormed = true := by decide
theorem test_wf_fsmUnpack : (Instr.fsmUnpack 2).wellFormed = false ∧
    (Instr.fsmUnpack 1).wellFormed = true := by decide

/-! ## Decoding, on words written out from R83 (V-ERR-5, P1 to P6) -/

theorem test_decode_nop : decodeTableWord 8 0x00 = some .nop := by decide
theorem test_decode_sreset : decodeTableWord 8 0x01 = some .sreset := by decide
theorem test_decode_get : decodeTableWord 16 0x0A02 = some (.get 0x0A) := by decide
theorem test_decode_inClr : decodeTableWord 8 0x08 = some .inClr := by decide
theorem test_decode_inPush : decodeTableWord 16 0x3109 = some (.inPush 0x31) := by decide
theorem test_decode_outRd : decodeTableWord 24 0x01020A = some (.outRd 0x0102) := by decide
theorem test_decode_xfer : decodeTableWord 8 0x0B = some .xfer := by decide
theorem test_decode_crcCfg :
    decodeTableWord 64 0x01_5678_1D0F_1021_10 = some (.crcCfg 0x1021 0x1D0F 0x5678 1) := by decide
theorem test_decode_crcPreset : decodeTableWord 16 0x0211 = some (.crcPreset 2) := by decide
theorem test_decode_crcStart : decodeTableWord 8 0x12 = some .crcStart := by decide
theorem test_decode_crcUpdate : decodeTableWord 8 0x13 = some .crcUpdate := by decide
theorem test_decode_crcFinal : decodeTableWord 8 0x14 = some .crcFinal := by decide
theorem test_decode_crcCalc : decodeTableWord 8 0x15 = some .crcCalc := by decide
theorem test_decode_crcLutrd : decodeTableWord 16 0xCE16 = some (.crcLutrd 0xCE) := by decide
theorem test_decode_hdlcStuff : decodeTableWord 24 0x7E0120 = some (.hdlcStuff 1 0x7E) := by decide
theorem test_decode_hdlcUnstuff : decodeTableWord 16 0x7E21 = some (.hdlcUnstuff 0x7E) := by decide
theorem test_decode_slipEnc : decodeTableWord 8 0x30 = some .slipEnc := by decide
theorem test_decode_slipDec : decodeTableWord 8 0x31 = some .slipDec := by decide
theorem test_decode_fsmUnpack : decodeTableWord 16 0x0140 = some (.fsmUnpack 1) := by decide
theorem test_decode_lfsrDescr : decodeTableWord 8 0x41 = some .lfsrDescr := by decide
theorem test_decode_illegal : decodeTableWord 8 0x17 = none ∧ decodeTableWord 8 0xFF = none := by decide
/-- Operand bits the table leaves out are zeros. -/
theorem test_decode_short : decodeTableWord 8 0x10 = some (.crcCfg 0 0 0 0) := by decide

/-! ## One step of each command -/

theorem test_nop : exec .nop State.reset = .next State.reset := rfl
/-- V-SYS-4. -/
theorem test_sreset : seen (fun s => (s.status.cfgd, s.crcPoly)) (exec .sreset (configured small [])) =
    some (false, 0) := by decide
/-- V-SYS-1: `LFSR` after reset. -/
theorem test_get_lfsr : seen (·.rsp) (exec (.get 0x0A) State.reset) = some [0xACE1] := by decide
/-- V-SYS-6. -/
theorem test_get_range : seen (fun s => (s.rsp, s.status.err)) (exec (.get 0x0B) State.reset) =
    some ([], 0x07) := by decide
theorem test_inClr : seen (·.ilen) (exec .inClr (withIn [1, 2, 3, 4, 5])) = some 0 := by decide
/-- V-SYS-2. -/
theorem test_inPush : seen (fun s => (s.input, s.ilen)) (exec (.inPush 0x32) (withIn [0x31])) =
    some ([0x31, 0x32], 2) := by decide
/-- R105: the buffer is full. -/
theorem test_inPush_full : seen (fun s => (s.ilen, s.status.err))
    (exec (.inPush 9) (loaded small [1, 2, 3, 4, 5, 6, 7, 8])) = some (8, 0x04) := by decide
/-- R106's example. -/
theorem test_outRd : seen (·.rsp) (exec (.outRd 2) (withOut [0x7E, 0x00, 0xFE])) = some [0x00FE] := by decide
theorem test_outRd_range : seen (fun s => (s.rsp, s.status.err))
    (exec (.outRd 3) (withOut [0x7E, 0x00, 0x7E])) = some ([], 0x07) := by decide
/-- R107's example. -/
theorem test_xfer : seen (fun s => (s.input, s.olen)) (exec .xfer (withOut [0x41, 0x42])) =
    some ([0x41, 0x42], 2) := by decide
/-- R121's example. -/
theorem test_crcCfg : seen (fun s => (s.crcPoly, s.crcInit, s.lutAt 1, s.status.cfgd))
    (exec (.crcCfg 0x1021 0xFFFF 0 0) State.reset) = some (0x1021, 0xFFFF, 0x1021, true) := by decide +kernel
/-- V-ERR-1: order 2. -/
theorem test_crcCfg_range : seen (fun s => (s.crcPoly, s.status.err))
    (exec (.crcCfg 0x1021 0 0 2) State.reset) = some (0, 0x07) := by decide
/-- V-CRC-2, second row. -/
theorem test_crcPreset : seen (fun s => (s.lsbf, s.lutAt 0xCE, s.lutAt 0xFF))
    (exec (.crcPreset 2) State.reset) = some (true, 0x2F72, 0x0F78) := by decide +kernel
/-- V-CRC-2, third row. -/
theorem test_crcPreset_usb : seen (fun s => (s.crcPoly, s.lutAt 0x31, s.lutAt 0x0F))
    (exec (.crcPreset 5) State.reset) = some (0x8005, 0xD4C1, 0x0440) := by decide +kernel
/-- V-CRC-4. -/
theorem test_crcStart : seen (fun s => (s.crcRem, s.status.run))
    (exec .crcStart (State.reset.configure 0x1021 0x1D0F 0 true)) = some (0xF0B8, true) := by decide +kernel
/-- V-CRC-7. -/
theorem test_crcStart_nocfg : seen (·.status.err) (exec .crcStart State.reset) = some 0x05 := by decide
/-- V-CRC-3, the first step of preset 0. -/
theorem test_crcUpdate : seen (·.crcRem) (exec .crcUpdate (configured small [0x31]).crcBegin) =
    some 0xC782 := by decide +kernel
/-- V-CRC-7. -/
theorem test_crcUpdate_nostart : seen (·.status.err) (exec .crcUpdate (configured small [])) =
    some 0x06 := by decide
/-- R125's example. -/
theorem test_crcFinal : seen (·.crcResult)
    (exec .crcFinal { (configured small []).crcBegin with crcRem := 0x6F91, crcXorout := 0xFFFF }) =
    some 0x906E := by decide
theorem test_crcFinal_nocfg : seen (·.status.err) (exec .crcFinal State.reset) = some 0x05 := by decide
/-- V-CRC-1, preset 0 on "123456789". -/
theorem test_crcCalc : seen (fun s => (s.crcResult, s.status.run)) (exec .crcCalc
    (configured Config.default [0x31, 0x32, 0x33, 0x34, 0x35, 0x36, 0x37, 0x38, 0x39])) =
    some (0x29B1, true) := by decide +kernel
/-- V-CRC-10: the residue of preset 2. -/
theorem test_crcCalc_residue : seen (fun s => (s.crcRem, s.crcResult))
    (exec .crcCalc ((withIn [0x41, 0xF5, 0xA3]).configure 0x1021 0xFFFF 0xFFFF true)) =
    some (0xF0B8, 0x0F47) := by decide +kernel
/-- V-CRC-2, first row. -/
theorem test_crcLutrd : seen (·.rsp) (exec (.crcLutrd 0xCE) (configured small [])) =
    some [0x3882] := by decide +kernel
/-- V-HDLC-8: a run of ten across a byte boundary. -/
theorem test_hdlcStuff : seen (·.output) (exec (.hdlcStuff 2 0x7E) (withIn [0xFF, 0x03])) =
    some [0x7E, 0x7E, 0xDF, 0x07, 0xF8, 0xF9, 0x01] := by decide +kernel
/-- Nine bytes do not fit in eight. -/
theorem test_hdlcStuff_ovf : seen (fun s => (s.olen, s.status.err))
    (exec (.hdlcStuff 4 0x7E) (loaded small [0x00])) = some (0, 0x04) := by decide +kernel
/-- V-HDLC-8, back, with the consumed bytes up to the first trailing flag. -/
theorem test_hdlcUnstuff : seen (fun s => (s.output, s.status.eof, s.status.resid, s.consumed))
    (exec (.hdlcUnstuff 0x7E) (withIn [0x7E, 0x7E, 0xDF, 0x07, 0xF8, 0xF9, 0x01])) =
    some ([0xFF, 0x03], true, 0, 6) := by decide +kernel
/-- V-HDLC-27: one zero removed, six bits left over. -/
theorem test_hdlcUnstuff_resid : seen (fun s => (s.output, s.status.eof, s.status.resid, s.consumed))
    (exec (.hdlcUnstuff 0x7E) (withIn [0x7E, 0xDF, 0x07, 0x7E])) =
    some ([0xFF, 0x83], false, 6, 4) := by decide +kernel
/-- V-SLIP-6. -/
theorem test_slipEnc : seen (·.output) (exec .slipEnc (withIn [0xC0, 0xDB, 0xDC, 0xDD])) =
    some [0xC0, 0xDB, 0xDC, 0xDB, 0xDD, 0xDC, 0xDD, 0xC0] := by decide
/-- V-SLIP-18. -/
theorem test_slipDec : seen (fun s => (s.output, s.consumed))
    (exec .slipDec (withIn [0xC0, 0xC0, 0x41, 0xC0, 0xFF])) = some ([0x41], 4) := by decide
/-- V-SLIP-15. -/
theorem test_slipDec_esc : seen (fun s => (s.olen, s.status.err))
    (exec .slipDec (withIn [0xC0, 0x41, 0xDB, 0x00, 0xC0])) = some (0, 0x03) := by decide
/-- V-FSM-4. -/
theorem test_fsmUnpack : seen (fun s => (s.output, s.status.inv, s.consumed, s.lfsr))
    (exec (.fsmUnpack 1) (withIn [0xE5, 0x30, 0x03, 0xE2, 0x0C, 0xEB, 0xF9, 0x51, 0x13])) =
    some ([0x48, 0x45, 0x4C, 0x4C, 0x4F], true, 9, 0xC55A) := by decide +kernel
/-- V-FSM-8. -/
theorem test_fsmUnpack_marker : seen (fun s => (s.olen, s.status.err))
    (exec (.fsmUnpack 0) (withIn [0x1A, 0xCF, 0xFC, 0x1C, 0x00])) = some (0, 0x02) := by decide
/-- V-LFSR-3. -/
theorem test_lfsrDescr : seen (fun s => (s.output, s.lfsr)) (exec .lfsrDescr (withIn [0, 0, 0, 0])) =
    some ([0xBB, 0x51, 0x4A, 0xE2], 0x4759) := by decide +kernel

/-! ## The step -/

/-- The instruction the host places is the one the next step runs. -/
theorem test_step_runs_placed : seen (fun s => (s.rsp, s.cmd)) (step (State.reset.withFetchWord 16 0x0A02)) =
    some ([0xACE1], []) := by decide
/-- V-ERR-2: the illegal byte 0x17 is a fault of the step. -/
theorem test_step_illegal : seenFaulted (fun s => (s.status.toWord, s.cmd, s.rsp))
    (step (State.reset.send [0x17, 0x02, 0x00])) = some (0x0180, [0x02, 0x00], []) := by decide
/-- V-ERR-2: the block is stuck; hardware reset leads on. -/
theorem test_step_stuck : step (State.reset.faultIllop.send [0x01]) = .fault .stuckUntilReset ∧
    step (State.reset.faultIllop.send [0x01]).assertReset = .next State.reset := ⟨rfl, rfl⟩
/-- V-ERR-3. -/
theorem test_step_waits : step (State.reset.send [0x10, 0x21, 0x10]) =
    .next (State.reset.send [0x10, 0x21, 0x10]) := rfl
/-- R89. -/
theorem test_assemble : assemble [.crcPresetNamed .maxim, .inLoad [0x41], .fsmDetect, .command .slipEnc] =
    [0x11, 0x04, 0x08, 0x09, 0x41, 0x40, 0x00, 0x30] := by decide

/-! ## Witnesses: states and operands that meet the hypotheses of each obligation -/

/-- Eight bytes, as many as `small` holds. -/
def eight : List Byte := [1, 2, 3, 4, 5, 6, 7, 8]

theorem loaded_eight_inv : (loaded small eight).Inv := loaded_inv small eight (by decide) (by decide)
theorem configured_eight_inv : (configured small eight).Inv := configured_inv loaded_eight_inv ..
theorem loaded_small_inv (bs : List Byte) (h : bs.length ≤ 8) : (loaded small bs).Inv :=
  loaded_inv small bs (by decide) h

/-- A block whose four first input bytes are `ASM_A`, or its complement. -/
def marked (inv : Bool) : State :=
  loaded small (if inv then [0xE5, 0x30, 0x03, 0xE2, 0x42] else [0x1A, 0xCF, 0xFC, 0x1D])

theorem witness_DecodedBytesAreTheEncoding :
    decode [0x0A, 0x02, 0x01, 0x00] = .command (.outRd 0x0102) [0x00] := by decide

/-- Each length at its boundary: one byte short, and exactly long enough. -/
theorem witness_LengthIsToldFromByteZero :
    decode [0x41] = .command .lfsrDescr [] ∧
    decode [0x02] = .needMore ∧ decode [0x02, 0x00] = .command (.get 0) [] ∧
    decode [0x20, 0x01] = .needMore ∧ decode [0x20, 0x01, 0x7E] = .command (.hdlcStuff 1 0x7E) [] ∧
    decode [0x10, 0, 0, 0, 0, 0, 0] = .needMore ∧
    decode [0x10, 0, 0, 0, 0, 0, 0, 0] = .command (.crcCfg 0 0 0 0) [] ∧
    decode [0x42] = .illegal 0x42 [] := by decide

theorem witness_StepRunsTheDecodedCommand :
    (State.reset.send [0x02, 0x0A]).ready ∧
    decode (State.reset.send [0x02, 0x0A]).cmd = .command (.get 0x0A) [] := ⟨⟨rfl, rfl⟩, rfl⟩

theorem witness_IncompleteCommandWaits :
    (State.reset.send [0x10, 0x21, 0x10]).ready ∧
    decode (State.reset.send [0x10, 0x21, 0x10]).cmd = .needMore ∧
    (State.reset.send [0x10, 0x21, 0x10]).cmd ++ [0xFF, 0xFF, 0x00, 0x00, 0x00] =
      encode (.crcCfg 0x1021 0xFFFF 0 0) ++ [] := ⟨⟨rfl, rfl⟩, rfl, by decide⟩

theorem witness_IllegalOpcodeFaultsUntilReset :
    (State.reset.send [0x17, 0x02]).ready ∧ illegalOpcode 0x17 = true ∧
    (State.reset.send [0x17, 0x02]).cmd = 0x17 :: [0x02] := ⟨⟨rfl, rfl⟩, rfl, rfl⟩

/-- A next state, the fault, a block that takes commands, the stuck block, reset. -/
theorem witness_FaultBitSetByIllegalOpcodeOnly :
    (∃ t, step State.reset = .next t) ∧
    (∃ t, step (State.reset.send [0x17]) = .fault (.illegalOpcode t)) ∧
    ((State.reset.send [0xFF]).ready ∧ decode (State.reset.send [0xFF]).cmd = .illegal 0xFF []) ∧
    (State.reset.faultIllop.resetIn = false ∧ State.reset.faultIllop.status.fault = true) ∧
    State.reset.faultIllop.assertReset.resetIn = true :=
  ⟨⟨_, rfl⟩, ⟨_, rfl⟩, ⟨⟨rfl, rfl⟩, rfl⟩, ⟨rfl, rfl⟩, rfl⟩

theorem witness_RunEndsInFaultAtIllegalOpcode :
    (State.reset.send [0x08, 0x17, 0x00]).ready ∧ illegalOpcode 0x17 = true ∧
    (State.reset.send [0x08, 0x17, 0x00]).cmd = [Instr.inClr].flatMap encode ++ 0x17 :: [0x00] ∧
    [Instr.inClr].length < 2 := ⟨⟨rfl, rfl⟩, rfl, rfl, by decide⟩

theorem witness_HardwareResetRestoresRegisters : State.reset.faultIllop.assertReset.resetIn = true := rfl

theorem witness_CommandStreamExecutesInOrder :
    (State.reset.send [0x08, 0x09, 0x17]).ready ∧
    (State.reset.send [0x08, 0x09, 0x17]).cmd = [Instr.inClr, .inPush 0x17].flatMap encode :=
  ⟨⟨rfl, rfl⟩, rfl⟩

theorem witness_InvariantKeptByEveryStep :
    (((loaded small eight).send [0x30]).Inv ∧ ∃ t, step ((loaded small eight).send [0x30]) = .next t) ∧
    (((loaded small eight).send [0x17]).Inv ∧
      ∃ t, step ((loaded small eight).send [0x17]) = .fault (.illegalOpcode t)) :=
  ⟨⟨{ loaded_eight_inv with lut_built := by intro h; cases h }, _, rfl⟩,
    ⟨{ loaded_eight_inv with lut_built := by intro h; cases h }, _, rfl⟩⟩

theorem witness_InvariantHoldsAtReset : small.wf = true ∧ ({ small with bufsz := 65535 } : Config).wf = true := by
  decide

/-- A failed command, and a `GET` after a failure. -/
theorem witness_FailureChangesOnlyErr :
    (∃ t, exec .crcStart State.reset = .next t ∧ t.status.err ≠ 0x00) ∧
    ∃ t, exec (.get 0) (State.reset.fail eNocfg) = .next t ∧ t.status.err ≠ 0x00 :=
  ⟨⟨_, rfl, by decide⟩, ⟨_, rfl, by decide⟩⟩

theorem witness_ErrCodesEachCommandCanReport :
    (∃ t, exec .nop State.reset = .next t) ∧ (∃ t, exec (.get 10) State.reset = .next t) ∧
    ∃ t, exec (.get 11) State.reset = .next t := ⟨⟨_, rfl⟩, ⟨_, rfl⟩, ⟨_, rfl⟩⟩

theorem witness_ResponseStreamIsAppendOnly :
    (∃ t, (State.reset.emit 5).assertReset.leaves t) ∧ (∃ t, ((State.reset.emit 5).send [0x17]).leaves t) ∧
    ∃ t, exec (.get 10) (State.reset.emit 5) = .next t := ⟨⟨_, .inl rfl⟩, ⟨_, .inr rfl⟩, ⟨_, rfl⟩⟩

theorem witness_CommandsLeaveStreamAndParameters : ∃ t, exec .xfer (State.reset.send [1]) = .next t := ⟨_, rfl⟩

theorem witness_StateWrittenOnlyByListedCommands :
    ∃ t, exec .lfsrDescr (withIn [1]) = .next t ∧ Instr.lfsrDescr ≠ .sreset := ⟨_, rfl, by decide⟩

/-- Two states that differ in an input byte at `ILEN` and in the table of an unconfigured block. -/
theorem witness_UnspecifiedContentsAreUnobservable :
    let s := loaded small [1]
    let s' := { s with ibuf := [(0, 1), (1, 9)], lut := List.replicate 256 7 }
    s.Inv ∧ s'.Inv ∧ SameObserved s s' ∧ s ≠ s' := by
  have h := loaded_small_inv [1] (by decide)
  refine ⟨h, ?_, ?_, ?_⟩
  · exact { h with
      lut_built := by intro h; cases h
      ibuf_wf := rfl
      ibuf_within := rfl
      lut_size := List.length_replicate }
  · exact ⟨rfl, rfl, rfl, by intro h; cases h⟩
  · intro h
    have : (loaded small [1]).ibuf = [(0, 1), (1, 9)] := congrArg State.ibuf h
    revert this
    decide

theorem witness_NopChangesNothing :
    State.reset.faultIllop.resetIn = false ∧ State.reset.faultIllop.status.fault = true := ⟨rfl, rfl⟩

theorem witness_SresetRestoresResetState :
    State.reset.faultIllop.resetIn = false ∧ State.reset.faultIllop.status.fault = true := ⟨rfl, rfl⟩

theorem witness_LfsrRegisterInfluencesNothing : Instr.get 9 ≠ .get 10 ∧ Instr.lfsrDescr ≠ .get 10 := by decide

theorem witness_GetSendsTheNumberedRegister :
    (0x0A : Byte).toNat < 11 ∧ (0x00 : Byte).toNat < 11 ∧ 11 ≤ (0x0B : Byte).toNat ∧
    11 ≤ (0xFF : Byte).toNat := by decide

/-- Full, and one byte short of full. -/
theorem witness_InPushAppendsOneByte :
    (loaded small eight).Inv ∧ (loaded small eight).ilen.toNat = (loaded small eight).cfg.bufsz ∧
    (loaded small [1, 2, 3, 4, 5, 6, 7]).Inv ∧
    (loaded small [1, 2, 3, 4, 5, 6, 7]).ilen.toNat ≠ (loaded small [1, 2, 3, 4, 5, 6, 7]).cfg.bufsz :=
  ⟨loaded_eight_inv, rfl, loaded_small_inv _ (by decide), by decide⟩

theorem witness_OutRdSendsOneByte :
    (withOut [1, 2, 3]).olen.toNat ≤ (3 : Word).toNat ∧ (2 : Word).toNat < (withOut [1, 2, 3]).olen.toNat := by
  decide

theorem witness_XferCopiesOutputToInput : (loaded small eight).Inv := loaded_eight_inv

theorem witness_InLoadFillsInput :
    (loaded small [9]).Inv ∧ eight.length ≤ (loaded small [9]).cfg.bufsz :=
  ⟨loaded_small_inv _ (by decide), by decide⟩

theorem witness_CrcCfgConfiguresAndRebuildsTable :
    (1 : Byte).toNat < 2 ∧ 2 ≤ (2 : Byte).toNat ∧ 2 ≤ (0xFF : Byte).toNat ∧ State.reset.cfg.wf = true := by decide

theorem witness_CrcPresetIsItsConfiguration :
    (5 : Byte).toNat < 6 ∧ 6 ≤ (6 : Byte).toNat ∧ State.reset.cfg.presets = PresetTable.standard := by decide

theorem witness_CrcStartLoadsOrientedInitial :
    State.reset.status.cfgd = false ∧ (configured small eight).status.cfgd = true := ⟨rfl, rfl⟩

theorem witness_CrcUpdateRunsInputThroughTable :
    State.reset.status.cfgd = false ∧
    ((configured small eight).status.cfgd = true ∧ (configured small eight).status.run = false) ∧
    ((configured small eight).crcBegin.status.cfgd = true ∧
      (configured small eight).crcBegin.status.run = true) := ⟨rfl, ⟨rfl, rfl⟩, ⟨rfl, rfl⟩⟩

theorem witness_CrcFinalXorsRemainder :
    State.reset.status.cfgd = false ∧
    ((configured small eight).status.cfgd = true ∧ (configured small eight).status.run = false) ∧
    ((configured small eight).crcBegin.status.cfgd = true ∧
      (configured small eight).crcBegin.status.run = true) := ⟨rfl, ⟨rfl, rfl⟩, ⟨rfl, rfl⟩⟩

theorem witness_CrcCalcIsStartUpdateFinal :
    State.reset.status.cfgd = false ∧ (configured small eight).status.cfgd = true := ⟨rfl, rfl⟩

theorem witness_CrcLutrdSendsTableEntry :
    State.reset.status.cfgd = false ∧ (configured small eight).status.cfgd = true := ⟨rfl, rfl⟩

theorem witness_CrcCalcEqualsBitSerial :
    (configured small eight).Inv ∧ (configured small eight).status.cfgd = true := ⟨configured_eight_inv, rfl⟩

theorem witness_CrcContinuesAcrossBuffers :
    (configured small []).Inv ∧ (configured small []).status.cfgd = true ∧
    (([1, 2, 3] : List Byte) ++ [4, 5, 6, 7, 8]).length ≤ (configured small []).cfg.bufsz :=
  ⟨configured_inv (loaded_small_inv [] (by decide)) .., rfl, by decide⟩

theorem witness_PresetsGiveKnownAnswers :
    (withIn []).Inv ∧ (withIn []).cfg.presets = PresetTable.standard ∧ 9 ≤ (withIn []).cfg.bufsz ∧
    (5 : Byte).toNat < 6 :=
  ⟨loaded_inv _ _ (by decide) (by decide), rfl, by decide, by decide⟩

/-- Nine bytes of result in eight, and exactly eight. -/
theorem witness_HdlcStuffFollowsItsLoops :
    (loaded small [0]).Inv ∧
    (loaded small [0]).cfg.bufsz < (Reference.hdlcStuff false 4 0x7E (loaded small [0]).input).length ∧
    (Reference.hdlcStuff false 3 0x7E (loaded small [0, 0]).input).length ≤ (loaded small [0, 0]).cfg.bufsz :=
  ⟨loaded_small_inv _ (by decide), by decide +kernel, by decide +kernel⟩

theorem witness_HdlcUnstuffFollowsItsLoop : (loaded small eight).Inv := loaded_eight_inv

theorem witness_StuffedLength : small.wf = true ∧ ∀ b ∈ ([0xFF, 0xFF] : List Byte), b = 0xFF := by decide

theorem witness_StuffedFrameHasNoSixOnes : small.wf = true := by decide

theorem witness_TableFunctionFollowsItsLoop : Config.default.wf = true := by decide

theorem witness_HdlcRoundTrip :
    (loaded small [1, 0x7E, 2]).Inv ∧
    ((1 : Byte) ≠ 0 ∧ (hdlcStuff small (1 : Byte).toNat 0x7E (loaded small [1, 0x7E, 2]).input).length ≤ 8) ∧
    ((hdlcStuff small (0 : Byte).toNat 0x7E (loaded small [1, 2]).input).length ≤ 8 ∧
      0x7E ∉ (loaded small [1, 2]).input) :=
  ⟨loaded_small_inv _ (by decide), ⟨by decide, by decide +kernel⟩, by decide +kernel, by decide⟩

theorem witness_FlagValuedByteTruncatesFrame :
    (loaded small []).Inv ∧ (loaded small []).cfg.hdlcPad = false := ⟨loaded_small_inv _ (by decide), rfl⟩

/-- Nine bytes of result in eight, and exactly eight. -/
theorem witness_SlipEncFollowsItsLoop :
    (loaded small [1, 2, 3, 4, 5, 6, 7]).Inv ∧
    8 < (Reference.slipEncode small (loaded small [1, 2, 3, 4, 5, 6, 7]).input).length ∧
    (Reference.slipEncode small (loaded small [1, 2, 3, 4, 5, 6]).input).length ≤ 8 :=
  ⟨loaded_small_inv _ (by decide), by decide, by decide⟩

/-- The loop's three ends: `E_TRUNC`, `E_ESC`, a frame. -/
theorem witness_SlipDecFollowsItsLoop :
    (loaded small eight).Inv ∧ Reference.slipDecode small (loaded small eight).input = .failed 0x01 ∧
    Reference.slipDecode small (loaded small [0xDB, 0x00]).input = .failed 0x03 ∧
    Reference.slipDecode small (loaded small [0xC0, 0x41, 0xC0]).input = .frame [0x41] 3 :=
  ⟨loaded_eight_inv, by decide, by decide, by decide⟩

theorem witness_SlipRoundTrip :
    (loaded small [0xC0, 0xDB]).Inv ∧
    (small.slipEnd = 0xC0 ∧ small.slipEsc = 0xDB ∧ small.slipEscEnd = 0xDC ∧ small.slipEscEsc = 0xDD) ∧
    (slipEncode small (loaded small [0xC0, 0xDB]).input).length ≤ 8 ∧
    (loaded small [0xC0, 0xDB]).input ≠ [] ∧
    (slipEncode small (loaded small []).input).length ≤ 8 ∧ (loaded small []).input = [] :=
  ⟨loaded_small_inv _ (by decide), by decide, by decide, by decide, by decide, rfl⟩

/-- Every clause: a reserved operand, three bytes, four bytes that are no marker, either marker. -/
theorem witness_FsmUnpackDetectsAndRecovers :
    (marked true).Inv ∧ (marked false).Inv ∧ 2 ≤ (2 : Byte).toNat ∧ (1 : Byte).toNat < 2 ∧
    (loaded small [0x1A, 0xCF, 0xFC]).ilen.toNat < 4 ∧
    (4 ≤ (loaded small [1, 2, 3, 4]).ilen.toNat ∧ ¬ StartsWithMarker (loaded small [1, 2, 3, 4]) small.asmA ∧
      ¬ StartsWithMarker (loaded small [1, 2, 3, 4]) (~~~ small.asmA)) ∧
    (4 ≤ (marked false).ilen.toNat ∧ StartsWithMarker (marked false) small.asmA) ∧
    (4 ≤ (marked true).ilen.toNat ∧ StartsWithMarker (marked true) (~~~ small.asmA)) := by
  refine ⟨loaded_small_inv _ (by decide), loaded_small_inv _ (by decide), ?_⟩
  unfold StartsWithMarker
  decide

theorem witness_LfsrDescrXorsKeyStream : (loaded small eight).Inv := loaded_eight_inv

theorem witness_FsmDescrambleIsUnpackThenDescramble :
    (marked true).Inv ∧ 4 ≤ (marked true).ilen.toNat ∧ StartsWithMarker (marked true) (~~~ small.asmA) :=
  ⟨witness_FsmUnpackDetectsAndRecovers.1, by decide, witness_FsmUnpackDetectsAndRecovers.2.2.2.2.2.2.2.2⟩

theorem witness_DescramblingTwiceIsIdentity : (loaded small eight).Inv := loaded_eight_inv

theorem witness_LfsrPeriodIsMaximal :
    (0xACE1 : Word) ≠ 0 ∧ (0x0001 : Word) ≠ 0 ∧ 0 < 1 ∧ 65534 < 65535 := by decide

end Sys2Proof.Tests
end

/-! # What every step keeps (10_state.md R30, R43, R45)

One lemma per operation that says it keeps the invariant, then the commands through `Did` and the step
through `step_cases`. -/

namespace Sys2Proof.Machine

/-! ## Each operation keeps the invariant -/

/-- A length written to a length register reads at most itself, also where it wraps. -/
theorem toNat_ofNat16_le (n : Nat) : (BitVec.ofNat 16 n).toNat ≤ n :=
  (BitVec.toNat_ofNat ..).trans_le (Nat.mod_le ..)

/-- The invariant right after reset asks nothing of the parameters but that they are admissible (R43). -/
theorem inv_resetWith {c : Config} (hc : c.wf = true) : (State.resetWith c).Inv where
  cfg_wf := hc
  ilen_le := Nat.zero_le _
  olen_le := Nat.zero_le _
  lut_built := nofun
  run_cfgd := nofun
  eof_resid := nofun
  fault_err := ⟨nofun, nofun⟩
  err_listed := List.mem_cons_self
  ibuf_wf := rfl
  obuf_wf := rfl
  ibuf_within := rfl
  obuf_within := rfl
  lut_size := List.length_replicate.trans (Config.wf_spec hc).lutN

namespace State.Inv

variable {s : State}

theorem withResetValues (h : s.Inv) : s.withResetValues.Inv := { inv_resetWith h.cfg_wf with }

theorem hardReset (h : s.Inv) : s.hardReset.Inv := { inv_resetWith h.cfg_wf with }

/-- A command's result code keeps `FAULT` and `E_ILLOP` together only because a command runs from
`FAULT = 0` and never reports `E_ILLOP`. -/
theorem withErr (h : s.Inv) (hf : s.status.fault = false) {e : BitVec 8} (he : e ∈ errCodes ∧ e ≠ eIllop) :
    (s.withErr e).Inv :=
  { h with
    fault_err := ⟨fun ht => absurd (hf.symm.trans ht) Bool.false_ne_true, fun hi => absurd hi he.2⟩
    err_listed := he.1 }

theorem faultIllop (h : s.Inv) : ((s.withErr eIllop).withFault).Inv :=
  { h with
    fault_err := ⟨fun _ => rfl, fun _ => rfl⟩
    err_listed := (by decide : eIllop ∈ errCodes) }

theorem emit (h : s.Inv) (w : Word) : (s.emit w).Inv := { h with }

theorem takeCommand (h : s.Inv) (rest : List Byte) : ({ s with cmd := rest } : State).Inv := { h with }

theorem clearInput (h : s.Inv) : ({ s with ilen := 0 } : State).Inv := { h with ilen_le := Nat.zero_le _ }

theorem pushInput (h : s.Inv) (b : Byte) (hn : s.ilen.toNat ≠ s.cfg.bufsz) : (s.pushInput b).Inv := by
  have hlt : s.ilen.toNat < s.cfg.bufsz := Nat.lt_of_le_of_ne h.ilen_le hn
  have hmax := (Config.wf_spec h.cfg_wf).bufsz_le
  obtain ⟨hlen, -, -⟩ := State.pushInput_spec s b h.ibuf_wf (by omega)
  exact { h with
    ilen_le := hlen.trans_le hlt
    ibuf_wf := Memory.wf_write h.ibuf_wf ..
    ibuf_within := Memory.within_write h.ibuf_within hlt b }

theorem withInput (h : s.Inv) {bs : List Byte} (hl : bs.length ≤ s.cfg.bufsz) : (s.withInput bs).Inv :=
  { h with
    ilen_le := (toNat_ofNat16_le _).trans hl
    ibuf_wf := Memory.wf_writeBytes h.ibuf_wf ..
    ibuf_within := Memory.within_writeBytes h.ibuf_within bs 0 ((Nat.zero_add _).trans_le hl) }

theorem withOutput (h : s.Inv) {out : List Byte} (hl : out.length ≤ s.cfg.bufsz) : (s.withOutput out).Inv :=
  { h with
    olen_le := (toNat_ofNat16_le _).trans hl
    obuf_wf := Memory.wf_writeBytes h.obuf_wf ..
    obuf_within := Memory.within_writeBytes h.obuf_within out 0 ((Nat.zero_add _).trans_le hl) }

theorem configure (h : s.Inv) (p n x : Word) (l : Bool) : (s.configure p n x l).Inv :=
  { h with
    lut_built := fun _ => State.lutAt_configure s h.cfg_wf p n x l
    run_cfgd := fun _ => rfl
    lut_size := (length_lutBuild ..).trans (Config.wf_spec h.cfg_wf).lutN }

theorem crcBegin (h : s.Inv) (hc : s.status.cfgd = true) : s.crcBegin.Inv := { h with run_cfgd := fun _ => hc }

theorem crcFeed (h : s.Inv) : s.crcFeed.Inv := { h with }

theorem crcFinish (h : s.Inv) : s.crcFinish.Inv := { h with }

theorem withConsumed (h : s.Inv) (w : Word) : ({ s with consumed := w } : State).Inv := { h with }

/-- `EOF` may be set only with no bits left over (R45 (e)). -/
theorem withEnd (h : s.Inv) {eof : Bool} {n : Nat} (hn : eof = true → n = 0) : (s.withEnd eof n).Inv :=
  { h with eof_resid := fun he => congrArg (BitVec.ofNat 3) (hn he) }

/-- A result no longer than the input fits in `OBUF` (R60). -/
theorem withOutput_of_le_input (h : s.Inv) {out : List Byte} (hl : out.length ≤ s.input.length) :
    (s.withOutput out).Inv :=
  h.withOutput (hl.trans (s.length_input.trans_le h.ilen_le))

end State.Inv

/-- The SLIP decoder fails with `E_TRUNC` or `E_ESC` only (R172). -/
theorem slipDecode_failed_code {c : Config} {data : List Byte} {e : BitVec 8}
    (h : slipDecode c data = .failed e) : e = eTrunc ∨ e = eEsc := by
  have hok := slipDecode_okFor c data
  rwa [h] at hok

/-- A decoded SLIP frame is no longer than the data it came from (R172). -/
theorem slipDecode_frame_length_le {c : Config} {data out : List Byte} {used : Nat}
    (h : slipDecode c data = .frame out used) : out.length ≤ data.length := by
  have hok := slipDecode_okFor c data
  rw [h] at hok
  exact (Nat.le_of_lt hok.1).trans hok.2

/-- What `FSM.UNPACK` gives is no longer than its input, descrambled or not (R190). -/
theorem length_unpacked_le (c : Config) (scrambled inv : Bool) (data : List Byte) (n : Nat) :
    (if scrambled then descramble c (uninvert inv (data.drop n)) else uninvert inv (data.drop n)).length ≤
      data.length := by
  cases scrambled <;> simp

/-! ## The commands -/

/-- No command writes `FAULT`, but `SRESET` clears all of `STATUS` (R30, R102). -/
theorem Did.fault_eq {s t : State} {i : Instr} (d : Did s i t) :
    t.status.fault = (s.status.fault && i != .sreset) := by
  cases d <;> simp [Status.zero]

/-- Every command keeps the invariant from a block that is not faulted. -/
theorem Did.inv {s t : State} {i : Instr} (d : Did s i t) (h : s.Inv) (hf : s.status.fault = false) :
    t.Inv := by
  have failed {e : BitVec 8} (he : e ∈ errCodes ∧ e ≠ eIllop) : (s.withErr e).Inv := h.withErr hf he
  have succeeded {u : State} (hu : u.Inv) (hfu : u.status.fault = false) : (u.withErr eOk).Inv :=
    hu.withErr hfu (by decide)
  cases d with
  | nop => exact h
  | sreset => exact h.withResetValues
  | get r w => exact h.emit w
  | inClr => exact succeeded h.clearInput hf
  | inPush b hn => exact succeeded (h.pushInput b hn) hf
  | outRd idx => exact succeeded (h.emit _) hf
  | xfer => exact succeeded (h.withInput (s.length_output.trans_le h.olen_le)) hf
  | crcCfg p n x o => exact succeeded (h.configure ..) hf
  | crcPreset n p => exact succeeded (h.configure ..) hf
  | crcStart hc => exact succeeded (h.crcBegin hc) hf
  | crcUpdate => exact succeeded h.crcFeed hf
  | crcFinal => exact succeeded h.crcFinish hf
  | crcCalc hc => exact succeeded (h.crcBegin hc).crcFeed.crcFinish hf
  | crcLutrd i => exact succeeded (h.emit _) hf
  | hdlcStuff fc fb hl => exact succeeded (h.withOutput hl) hf
  | hdlcUnstuff fb =>
    obtain ⟨hout, -, -, hend⟩ := hdlcUnstuff_bounded s.cfg fb s.input
    exact succeeded (((h.withOutput_of_le_input hout).withConsumed _).withEnd hend) hf
  | slipEnc hl => exact succeeded (h.withOutput hl) hf
  | slipDec out used hd =>
    exact succeeded ((h.withOutput_of_le_input (slipDecode_frame_length_le hd)).withConsumed _) hf
  | slipDecFailed e hd =>
    rcases slipDecode_failed_code hd with rfl | rfl <;> exact failed (by decide)
  | fsmUnpack d inv =>
    have hout := h.withOutput_of_le_input
      (length_unpacked_le s.cfg (switchBit d) inv s.input s.cfg.asmLen)
    exact succeeded { hout with } hf
  | lfsrDescr =>
    have hout := h.withOutput_of_le_input (length_descramble s.cfg s.input).le
    exact succeeded { hout with } hf
  | getRange | inPushFull | outRdRange | crcCfgRange | crcPresetRange | crcStartNocfg | crcUpdateNocfg
  | crcUpdateNostart | crcFinalNocfg | crcFinalNostart | crcCalcNocfg | crcLutrdNocfg | hdlcStuffOvf
  | slipEncOvf | fsmUnpackRange | fsmUnpackTrunc | fsmUnpackMarker => exact failed (by decide)

/-! ## The step -/

/-- While `FAULT` is 1 and the reset input is not asserted the block has no step (R214). -/
theorem step_stuck {s : State} (hr : s.resetIn = false) (hf : s.status.fault = true) :
    step s = .fault .stuckUntilReset := by
  simp [step, State.nextAction, hr, hf]

/-- The reset input is looked at before everything else (R240). -/
theorem step_reset {s : State} (hr : s.resetIn = true) : step s = .next s.hardReset := by
  simp [step, State.nextAction, hr]

/-- A next state is never faulted: only a block that is not faulted runs a command, and none writes the bit
(R30, R214). -/
theorem fault_eq_false_of_step {s t : State} (h : step s = .next t) : t.status.fault = false := by
  rcases step_cases h with ⟨-, rfl⟩ | ⟨⟨-, hf⟩, i, rest, -, he⟩ | ⟨⟨-, hf⟩, -, rfl⟩
  · rfl
  · rw [(did_of_exec he).fault_eq, hf, Bool.false_and]
  · exact hf

/-- Settles O14: the step runs a command, resets or waits, and its fault only marks `STATUS`. -/
theorem invariantKeptByEveryStep : Obligations.InvariantKeptByEveryStep := by
  refine ⟨fun s t hs h => ?_, fun s t hs h => ?_⟩
  · rcases step_cases h with ⟨-, rfl⟩ | ⟨⟨-, hf⟩, i, rest, -, he⟩ | ⟨-, -, rfl⟩
    · exact hs.hardReset
    · exact (did_of_exec he).inv (hs.takeCommand rest) hf
    · exact hs
  · obtain ⟨-, op, rest, -, rfl⟩ := step_fault_cases h
    exact (hs.takeCommand rest).faultIllop

/-- Settles O15, from `inv_resetWith`. -/
theorem invariantHoldsAtReset : Obligations.InvariantHoldsAtReset :=
  ⟨fun _ hc => inv_resetWith hc, inv_resetWith (by decide)⟩

/-- Settles O9, clause by clause from the lemmas about the step. -/
theorem faultBitSetByIllegalOpcodeOnly : Obligations.FaultBitSetByIllegalOpcodeOnly := by
  refine ⟨fun s t => fault_eq_false_of_step, fun s t h => ?_, fun s hs h => ?_, fun s => step_stuck,
    fun s hr => ⟨_, step_reset hr⟩, fun s => rfl⟩
  · obtain ⟨hready, op, rest, hd, rfl⟩ := step_fault_cases h
    exact ⟨hready, rfl, op, rest, hd⟩
  · obtain ⟨op, rest, hd⟩ := h
    exact ⟨_, step_illegal hs hd⟩

end Sys2Proof.Machine

/-! # What each command leaves unchanged (10_state.md R21 to R38, 20_memory.md R61 to R63) -/

namespace Sys2Proof.Machine

/-! ## The register file right after reset -/

theorem toWord_zero : Status.zero.toWord = 0x0000 := by decide

/-- Every register reads 0 right after reset but `LFSR`, which reads the seed (R39, R43). -/
theorem register_resetWith (c : Config) (r : Byte) : (State.resetWith c).register r =
    if r.toNat < 10 then some 0x0000 else if r.toNat = 10 then some c.lfsrSeed else none := by
  rcases Nat.lt_or_ge r.toNat 11 with h | h
  · unfold State.register
    interval_cases r.toNat
    · exact congrArg some toWord_zero
    all_goals rfl
  · rw [(State.register_eq_none _ r).2 h, if_neg (by omega), if_neg (by omega)]

/-- Settles O12; `SRESET` leaves the registers of `State.resetWith` by definition. -/
theorem resetValuesOfEveryRegister : Obligations.ResetValuesOfEveryRegister :=
  ⟨register_resetWith, fun _ => ⟨rfl, rfl, rfl⟩, rfl, fun s => ⟨_, exec_sreset s, fun _ => rfl⟩⟩

/-! ## Fields, and the commands that write them

`SRESET`, which writes every register, is set apart as in the rules. -/

/-- `CRC.CFG` and `CRC.PRESET` (R121, R122). -/
def Configures (i : Instr) : Prop := (∃ p n x o, i = .crcCfg p n x o) ∨ ∃ n, i = .crcPreset n

/-- The commands that leave a result in `OBUF` (R62). -/
def IsCodec (i : Instr) : Prop :=
  (∃ c f, i = .hdlcStuff c f) ∨ (∃ f, i = .hdlcUnstuff f) ∨ i = .slipEnc ∨ i = .slipDec ∨
    (∃ d, i = .fsmUnpack d) ∨ i = .lfsrDescr

namespace Did

variable {s t : State} {i : Instr}

theorem cfg_eq (d : Did s i t) : t.cfg = s.cfg := by cases d <;> simp

theorem cmd_eq (d : Did s i t) : t.cmd = s.cmd := by cases d <;> simp

theorem resetIn_eq (d : Did s i t) : t.resetIn = s.resetIn := by cases d <;> simp

theorem configuration_kept (d : Did s i t) (hs : i ≠ .sreset) : Configures i ∨
    t.crcPoly = s.crcPoly ∧ t.crcInit = s.crcInit ∧ t.crcXorout = s.crcXorout ∧ t.lsbf = s.lsbf ∧
      t.lut = s.lut ∧ t.status.cfgd = s.status.cfgd := by
  cases d with
  | sreset => exact absurd rfl hs
  | crcCfg => exact .inl (.inl ⟨_, _, _, _, rfl⟩)
  | crcPreset => exact .inl (.inr ⟨_, rfl⟩)
  | _ => simp

theorem run_kept (d : Did s i t) (hs : i ≠ .sreset) :
    (Configures i ∨ i = .crcStart ∨ i = .crcCalc) ∨ t.status.run = s.status.run := by
  cases d with
  | sreset => exact absurd rfl hs
  | crcCfg => exact .inl (.inl (.inl ⟨_, _, _, _, rfl⟩))
  | crcPreset => exact .inl (.inl (.inr ⟨_, rfl⟩))
  | crcStart | crcCalc => simp
  | _ => simp

theorem crcRem_kept (d : Did s i t) (hs : i ≠ .sreset) :
    (i = .crcStart ∨ i = .crcUpdate ∨ i = .crcCalc) ∨ t.crcRem = s.crcRem := by
  cases d with
  | sreset => exact absurd rfl hs
  | crcStart | crcUpdate | crcCalc => simp
  | _ => simp

theorem crcResult_kept (d : Did s i t) (hs : i ≠ .sreset) :
    (i = .crcFinal ∨ i = .crcCalc) ∨ t.crcResult = s.crcResult := by
  cases d with
  | sreset => exact absurd rfl hs
  | crcFinal | crcCalc => simp
  | _ => simp

theorem lfsr_kept (d : Did s i t) (hs : i ≠ .sreset) :
    (i = .lfsrDescr ∨ ∃ d, i = .fsmUnpack d) ∨ t.lfsr = s.lfsr := by
  cases d with
  | sreset => exact absurd rfl hs
  | lfsrDescr | fsmUnpack => simp
  | _ => simp

theorem consumed_kept (d : Did s i t) (hs : i ≠ .sreset) :
    ((∃ f, i = .hdlcUnstuff f) ∨ i = .slipDec ∨ ∃ d, i = .fsmUnpack d) ∨ t.consumed = s.consumed := by
  cases d with
  | sreset => exact absurd rfl hs
  | hdlcUnstuff | slipDec | fsmUnpack => simp
  | _ => simp

theorem inv_kept (d : Did s i t) (hs : i ≠ .sreset) :
    (∃ d, i = .fsmUnpack d) ∨ t.status.inv = s.status.inv := by
  cases d with
  | sreset => exact absurd rfl hs
  | fsmUnpack d => exact .inl ⟨d, rfl⟩
  | _ => simp

theorem end_kept (d : Did s i t) (hs : i ≠ .sreset) :
    (∃ f, i = .hdlcUnstuff f) ∨ t.status.eof = s.status.eof ∧ t.status.resid = s.status.resid := by
  cases d with
  | sreset => exact absurd rfl hs
  | hdlcUnstuff f => exact .inl ⟨f, rfl⟩
  | _ => simp

theorem ilen_kept (d : Did s i t) (hs : i ≠ .sreset) :
    (i = .inClr ∨ (∃ b, i = .inPush b) ∨ i = .xfer) ∨ t.ilen = s.ilen := by
  cases d with
  | sreset => exact absurd rfl hs
  | inClr | inPush | xfer => simp
  | _ => simp

theorem ibuf_kept (d : Did s i t) (hs : i ≠ .sreset) :
    ((∃ b, i = .inPush b) ∨ i = .xfer) ∨ t.ibuf = s.ibuf := by
  cases d with
  | sreset => exact absurd rfl hs
  | inPush | xfer => simp
  | _ => simp

theorem output_kept (d : Did s i t) (hs : i ≠ .sreset) :
    IsCodec i ∨ t.olen = s.olen ∧ t.obuf = s.obuf := by
  cases d with
  | sreset => exact absurd rfl hs
  | hdlcStuff | hdlcUnstuff | slipEnc | slipDec | fsmUnpack | lfsrDescr => simp [IsCodec]
  | _ => simp

/-- A command sends at most one word and removes none (R38). -/
theorem rsp_kept_or_appended (d : Did s i t) : t.rsp = s.rsp ∨ ∃ w, t.rsp = s.rsp ++ [w] := by
  cases d with
  | get | outRd | crcLutrd => exact .inr ⟨_, rfl⟩
  | _ => simp

end Did

/-- Settles O22, from one lemma per group of fields. -/
theorem stateWrittenOnlyByListedCommands : Obligations.StateWrittenOnlyByListedCommands := by
  intro i s t h hs
  have d := did_of_exec h
  refine ⟨fun hne => (d.configuration_kept hs).resolve_right ?_, (d.run_kept hs).resolve_right,
    (d.crcRem_kept hs).resolve_right, (d.crcResult_kept hs).resolve_right, (d.lfsr_kept hs).resolve_right,
    (d.consumed_kept hs).resolve_right, (d.inv_kept hs).resolve_right,
    fun hne => (d.end_kept hs).resolve_right ?_, (d.ilen_kept hs).resolve_right,
    (d.ibuf_kept hs).resolve_right, fun hne => (d.output_kept hs).resolve_right ?_⟩
  all_goals tauto

end Sys2Proof.Machine

/-! # What a command reads (10_state.md R27, R38, R43, R44)

A command is a list of edits of the state, and two states that agree on what the command reads get the same
list. A relation that every edit keeps is therefore kept by every command. The claims that something
influences nothing are this lemma at four relations. -/

namespace Sys2Proof.Machine

/-! ## Edits -/

/-- One write of a command, with the value written: what the states of two runs have done to both. -/
inductive Edit where
  | err (e : BitVec 8)
  | emit (w : Word)
  | clearInput
  | push (b : Byte)
  | input (bs : List Byte)
  | output (out : List Byte)
  | configure (poly init xorout : Word) (lsbf : Bool)
  | running
  | crcRem (w : Word)
  | crcResult (w : Word)
  | consumed (w : Word)
  | ended (eof : Bool) (n : Nat)
  | inverted (inv : Bool)
  | lfsr (w : Word)
  | reset

/-- The state after an edit. -/
@[simp] def Edit.apply (s : State) : Edit → State
  | .err e => s.withErr e
  | .emit w => s.emit w
  | .clearInput => { s with ilen := 0 }
  | .push b => s.pushInput b
  | .input bs => s.withInput bs
  | .output out => s.withOutput out
  | .configure p n x l => s.configure p n x l
  | .running => s.withRunning
  | .crcRem w => { s with crcRem := w }
  | .crcResult w => { s with crcResult := w }
  | .consumed w => { s with consumed := w }
  | .ended eof n => s.withEnd eof n
  | .inverted inv => s.withInv inv
  | .lfsr w => { s with lfsr := w }
  | .reset => s.withResetValues

/-- `s'` agrees with `s` on everything the command `i` reads. `RSP`, the command stream, the reset input, the
bytes outside `IBUF[0..ILEN)` and `OBUF[0..OLEN)`, the table of an unconfigured block and, but for `GET`, the
registers that only report are not among it. -/
structure Agrees (i : Instr) (s s' : State) : Prop where
  cfg       : s'.cfg = s.cfg
  status    : s'.status = s.status
  ilen      : s'.ilen = s.ilen
  olen      : s'.olen = s.olen
  crcInit   : s'.crcInit = s.crcInit
  crcXorout : s'.crcXorout = s.crcXorout
  lsbf      : s'.lsbf = s.lsbf
  crcRem    : s'.crcRem = s.crcRem
  input     : s'.input = s.input
  output    : s'.output = s.output
  table     : s.status.cfgd = true → s'.lutAt = s.lutAt
  register  : ∀ r, i = .get r → s'.register r = s.register r

theorem Agrees.refl (i : Instr) (s : State) : Agrees i s s :=
  ⟨rfl, rfl, rfl, rfl, rfl, rfl, rfl, rfl, rfl, rfl, fun _ => rfl, fun _ _ => rfl⟩

/-! ## What the units compute from what they read -/

/-- Two runs of bytes are the same exactly when every index in them reads the same. -/
theorem Memory.bytes_eq_iff {m m' : Memory} {n : Nat} :
    m.bytes n = m'.bytes n ↔ ∀ a, a < n → m.read a = m'.read a := by
  simp [Memory.bytes]

/-- A readable byte of `OBUF` is told from `OBUF[0..OLEN)` (R106). -/
theorem Agrees.read_obuf {i : Instr} {s s' : State} (a : Agrees i s s') {k : Nat} (hk : k < s.olen.toNat) :
    s'.obuf.read k = s.obuf.read k := by
  have h := a.output
  rw [State.output, State.output, a.olen] at h
  exact Memory.bytes_eq_iff.1 h k hk

theorem crcFeed_eq (s : State) :
    s.crcFeed = { s with crcRem := s.input.foldl (crcStep s.lsbf s.lutAt) s.crcRem } := rfl

theorem crcFinish_eq (s : State) : s.crcFinish = { s with crcResult := s.crcRem ^^^ s.crcXorout } := rfl

theorem crcBegin_eq (s : State) :
    s.crcBegin = State.withRunning { s with crcRem := orient s.lsbf s.crcInit } := rfl

/-- What a command does is told from what it reads: one list of edits serves every state that agrees. -/
theorem exec_determined (i : Instr) (s : State) : ∃ es : List Edit, ∀ s', Agrees i s s' →
    exec i s' = .next (es.foldl Edit.apply s') := by
  cases i with
  | nop => exact ⟨[], fun _ _ => rfl⟩
  | sreset => exact ⟨[.reset], fun _ _ => rfl⟩
  | get r =>
    cases hr : s.register r with
    | some w => exact ⟨[.emit w], fun s' a => by simpa [a.register r rfl, hr] using exec_get r s'⟩
    | none => exact ⟨[.err eRange], fun s' a => by simpa [a.register r rfl, hr] using exec_get r s'⟩
  | inClr => exact ⟨[.clearInput, .err eOk], fun _ _ => rfl⟩
  | inPush b =>
    by_cases h : s.ilen.toNat = s.cfg.bufsz
    · exact ⟨[.err eOvf], fun s' a => by simpa [a.ilen, a.cfg, h] using exec_inPush b s'⟩
    · exact ⟨[.push b, .err eOk], fun s' a => by simpa [a.ilen, a.cfg, h] using exec_inPush b s'⟩
  | outRd idx =>
    rcases Nat.lt_or_ge idx.toNat s.olen.toNat with h | h
    · exact ⟨[.emit (zext16 (s.obuf.read idx.toNat)), .err eOk], fun s' a => by
        simpa [a.olen, a.read_obuf h, h, h.not_ge] using exec_outRd idx s'⟩
    · exact ⟨[.err eRange], fun s' a => by simpa [a.olen, h, h.not_gt] using exec_outRd idx s'⟩
  | xfer => exact ⟨[.input s.output, .err eOk], fun s' a => by simp [exec_xfer, a.output]⟩
  | crcCfg p n x o =>
    rcases Nat.lt_or_ge o.toNat 2 with h | h
    · exact ⟨[.configure p n x (switchBit o), .err eOk], fun s' a => by
        simpa [h, h.not_ge] using exec_crcCfg p n x o s'⟩
    · exact ⟨[.err eRange], fun s' a => by simpa [h, h.not_gt] using exec_crcCfg p n x o s'⟩
  | crcPreset n =>
    cases h : s.cfg.presets.row n with
    | some p => exact ⟨[.configure p.poly p.init p.xorout p.lsbf, .err eOk], fun s' a => by
        simpa [a.cfg, h] using exec_crcPreset n s'⟩
    | none => exact ⟨[.err eRange], fun s' a => by simpa [a.cfg, h] using exec_crcPreset n s'⟩
  | crcStart =>
    cases hc : s.status.cfgd with
    | false => exact ⟨[.err eNocfg], fun s' a => by simpa [a.status, hc] using exec_crcStart s'⟩
    | true => exact ⟨[.crcRem (orient s.lsbf s.crcInit), .running, .err eOk], fun s' a => by
        simpa [a.status, hc, crcBegin_eq, a.lsbf, a.crcInit] using exec_crcStart s'⟩
  | crcUpdate =>
    cases hc : s.status.cfgd with
    | false => exact ⟨[.err eNocfg], fun s' a => by simpa [a.status, hc] using exec_crcUpdate s'⟩
    | true =>
      cases hr : s.status.run with
      | false => exact ⟨[.err eNostart], fun s' a => by simpa [a.status, hc, hr] using exec_crcUpdate s'⟩
      | true => exact ⟨[.crcRem (s.input.foldl (crcStep s.lsbf s.lutAt) s.crcRem), .err eOk], fun s' a => by
          simpa [a.status, hc, hr, crcFeed_eq, a.input, a.lsbf, a.table hc, a.crcRem] using exec_crcUpdate s'⟩
  | crcFinal =>
    cases hc : s.status.cfgd with
    | false => exact ⟨[.err eNocfg], fun s' a => by simpa [a.status, hc] using exec_crcFinal s'⟩
    | true =>
      cases hr : s.status.run with
      | false => exact ⟨[.err eNostart], fun s' a => by simpa [a.status, hc, hr] using exec_crcFinal s'⟩
      | true => exact ⟨[.crcResult (s.crcRem ^^^ s.crcXorout), .err eOk], fun s' a => by
          simpa [a.status, hc, hr, crcFinish_eq, a.crcRem, a.crcXorout] using exec_crcFinal s'⟩
  | crcCalc =>
    cases hc : s.status.cfgd with
    | false => exact ⟨[.err eNocfg], fun s' a => by simpa [a.status, hc] using exec_crcCalc s'⟩
    | true =>
      refine ⟨[.running, .crcRem (s.input.foldl (crcStep s.lsbf s.lutAt) (orient s.lsbf s.crcInit)),
        .crcResult (s.input.foldl (crcStep s.lsbf s.lutAt) (orient s.lsbf s.crcInit) ^^^ s.crcXorout),
        .err eOk], fun s' a => ?_⟩
      rw [← a.input, ← a.lsbf, ← a.table hc, ← a.crcInit, ← a.crcXorout]
      exact ((exec_crcCalc s').resolve_left (by simp [a.status, hc])).2
  | crcLutrd j =>
    cases hc : s.status.cfgd with
    | false => exact ⟨[.err eNocfg], fun s' a => by simpa [a.status, hc] using exec_crcLutrd j s'⟩
    | true => exact ⟨[.emit (s.lutAt j), .err eOk], fun s' a => by
        simpa [a.status, hc, a.table hc] using exec_crcLutrd j s'⟩
  | hdlcStuff fc fb =>
    rcases Nat.lt_or_ge s.cfg.bufsz (hdlcStuff s.cfg fc.toNat fb s.input).length with h | h
    · exact ⟨[.err eOvf], fun s' a => by simpa [a.cfg, a.input, h, h.not_ge] using exec_hdlcStuff fc fb s'⟩
    · exact ⟨[.output (hdlcStuff s.cfg fc.toNat fb s.input), .err eOk], fun s' a => by
        simpa [a.cfg, a.input, h, h.not_gt] using exec_hdlcStuff fc fb s'⟩
  | hdlcUnstuff fb =>
    exact ⟨[.output (hdlcUnstuff s.cfg fb s.input).out,
      .consumed (BitVec.ofNat 16 (ceil8 (hdlcUnstuff s.cfg fb s.input).used)),
      .ended (hdlcUnstuff s.cfg fb s.input).eof (hdlcUnstuff s.cfg fb s.input).resid, .err eOk],
      fun s' a => by simp [exec_hdlcUnstuff, a.cfg, a.input]⟩
  | slipEnc =>
    rcases Nat.lt_or_ge s.cfg.bufsz (slipEncode s.cfg s.input).length with h | h
    · exact ⟨[.err eOvf], fun s' a => by simpa [a.cfg, a.input, h, h.not_ge] using exec_slipEnc s'⟩
    · exact ⟨[.output (slipEncode s.cfg s.input), .err eOk], fun s' a => by
        simpa [a.cfg, a.input, h, h.not_gt] using exec_slipEnc s'⟩
  | slipDec =>
    cases h : slipDecode s.cfg s.input with
    | frame out used => exact ⟨[.output out, .consumed (BitVec.ofNat 16 used), .err eOk], fun s' a => by
        simpa [a.cfg, a.input, h] using exec_slipDec s'⟩
    | failed e => exact ⟨[.err e], fun s' a => by simpa [a.cfg, a.input, h] using exec_slipDec s'⟩
  | fsmUnpack d =>
    rcases Nat.lt_or_ge d.toNat 2 with hd | hd
    · rcases Nat.lt_or_ge s.ilen.toNat s.cfg.asmLen with hl | hl
      · exact ⟨[.err eTrunc], fun s' a => by
          simpa [a.cfg, a.ilen, hd.not_ge, hd, hl, hl.not_ge] using exec_fsmUnpack d s'⟩
      · cases hm : markerOf s.cfg s.input with
        | none => exact ⟨[.err eMarker], fun s' a => by
            simpa [a.cfg, a.ilen, a.input, hd, hd.not_ge, hl, hl.not_gt, hm] using exec_fsmUnpack d s'⟩
        | some inv =>
          cases hb : switchBit d with
          | false => exact ⟨[.output (uninvert inv (s.input.drop s.cfg.asmLen)), .consumed s.ilen,
              .inverted inv, .err eOk], fun s' a => by
              simpa [a.cfg, a.ilen, a.input, hd, hd.not_ge, hl, hl.not_gt, hm, hb] using exec_fsmUnpack d s'⟩
          | true => exact ⟨[.output (descramble s.cfg (uninvert inv (s.input.drop s.cfg.asmLen))),
              .lfsr (keyState s.cfg (uninvert inv (s.input.drop s.cfg.asmLen)).length), .consumed s.ilen,
              .inverted inv, .err eOk], fun s' a => by
              simpa [a.cfg, a.ilen, a.input, hd, hd.not_ge, hl, hl.not_gt, hm, hb] using exec_fsmUnpack d s'⟩
    · exact ⟨[.err eRange], fun s' a => by simpa [hd, hd.not_gt] using exec_fsmUnpack d s'⟩
  | lfsrDescr =>
    exact ⟨[.output (descramble s.cfg s.input), .lfsr (keyState s.cfg s.input.length), .err eOk],
      fun s' a => by simp [exec_lfsrDescr, a.cfg, a.input]⟩

/-- A relation that every edit keeps is kept by a command, on states that agree on what it reads. -/
theorem exec_related {R : State → State → Prop}
    (hR : ∀ (e : Edit) (s s' : State), R s s' → R (e.apply s) (e.apply s'))
    {i : Instr} {s s' : State} (a : Agrees i s s') (h : R s s') :
    ∃ t t', exec i s = .next t ∧ exec i s' = .next t' ∧ R t t' := by
  obtain ⟨es, hes⟩ := exec_determined i s
  exact ⟨_, _, hes s (.refl i s), hes s' a, List.foldl_rel h fun e _ u u' hu => hR e u u' hu⟩

end Sys2Proof.Machine

/-! # What influences nothing: the command stream, `RSP`, `LFSR`, unspecified contents -/

namespace Sys2Proof.Machine

/-- A change of the state that every edit commutes with, and that the command does not read, commutes with the
command. -/
theorem exec_commutes {f : State → State} (hf : ∀ (e : Edit) (s : State), e.apply (f s) = f (e.apply s))
    {i : Instr} {s t : State} (a : Agrees i s (f s)) (h : exec i s = .next t) :
    exec i (f s) = .next (f t) := by
  obtain ⟨u, u', hu, hu', rfl⟩ :=
    exec_related (R := fun s s' => s' = f s) (fun e s _ hs => hs ▸ hf e s) a rfl
  rw [h] at hu
  cases hu
  exact hu'

/-! ## The command stream -/

/-- The state with another command stream. -/
def State.withCmd (c : List Byte) (s : State) : State := { s with cmd := c }

theorem Edit.apply_withCmd (c : List Byte) (e : Edit) (s : State) :
    e.apply (s.withCmd c) = (e.apply s).withCmd c := by
  cases e <;> rfl

/-- No command reads the command stream (R44, R74). -/
theorem exec_withCmd {i : Instr} {s t : State} (h : exec i s = .next t) (c : List Byte) :
    exec i (s.withCmd c) = .next (t.withCmd c) :=
  exec_commutes (Edit.apply_withCmd c) { Agrees.refl i s with } h

/-- Settles O21, from the frames of `Did` and `exec_withCmd`. -/
theorem commandsLeaveStreamAndParameters : Obligations.CommandsLeaveStreamAndParameters := by
  intro i s t h
  have d := did_of_exec h
  exact ⟨d.cfg_eq, d.cmd_eq, d.resetIn_eq, d.fault_eq, exec_withCmd h⟩

/-! ## The response stream -/

/-- The state with words sent before those on `RSP`. -/
def State.withEarlier (earlier : List Word) (s : State) : State := { s with rsp := earlier ++ s.rsp }

theorem Edit.apply_withEarlier (earlier : List Word) (e : Edit) (s : State) :
    e.apply (s.withEarlier earlier) = (e.apply s).withEarlier earlier := by
  cases e with
  | emit w => simp [State.withEarlier, State.emit]
  | _ => rfl

/-- No command reads `RSP` (R38). -/
theorem exec_withEarlier {i : Instr} {s t : State} (h : exec i s = .next t) (earlier : List Word) :
    exec i (s.withEarlier earlier) = .next (t.withEarlier earlier) :=
  exec_commutes (Edit.apply_withEarlier earlier) { Agrees.refl i s with } h

/-- Every step leaves `RSP` or appends one word, reset and the fault among them (R38). -/
theorem rsp_of_leaves {s t : State} (h : s.leaves t) : t.rsp = s.rsp ∨ ∃ w, t.rsp = s.rsp ++ [w] := by
  rcases leaves_cases h with ⟨-, rfl⟩ | ⟨-, i, rest, -, d⟩ | ⟨-, -, rfl⟩ | ⟨-, op, rest, -, rfl⟩
  · exact .inl rfl
  · exact d.rsp_kept_or_appended
  · exact .inl rfl
  · exact .inl rfl

theorem toNat_zext16 (b : Byte) : (zext16 b).toNat = b.toNat :=
  BitVec.toNat_setWidth_of_le (by decide)

/-- Settles O20: only a successful `GET`, `OUT.RD` or `CRC.LUTRD` does more than leave `RSP` as it was. -/
theorem responseStreamIsAppendOnly : Obligations.ResponseStreamIsAppendOnly := by
  refine ⟨fun s t => rsp_of_leaves, fun i s t h => ⟨exec_withEarlier h, ?_⟩⟩
  cases did_of_exec h with
  | get r w hr =>
    have hlt : r.toNat < 11 := Nat.not_le.1 fun hge => by simp [(s.register_eq_none r).2 hge] at hr
    exact (if_pos hlt).mpr ⟨w, hr, rfl⟩
  | getRange r hr => exact (if_neg ((s.register_eq_none r).1 hr).not_gt).mpr rfl
  | outRd idx hlt => exact (if_pos hlt).mpr ⟨_, toNat_zext16 _, rfl⟩
  | outRdRange idx hge => exact (if_neg hge.not_gt).mpr rfl
  | crcLutrd j hc => exact (if_pos hc).mpr rfl
  | crcLutrdNocfg j hc => exact (if_neg (by simp [hc])).mpr rfl
  | _ => simp

/-! ## The LFSR register -/

/-- Only register number 10 is `LFSR` (R39). -/
theorem register_withLfsr {r : Byte} (hr : r ≠ 10) (s : State) (v : Word) :
    ({ s with lfsr := v } : State).register r = s.register r := by
  have hn : r.toNat ≠ 10 := fun h => hr (BitVec.eq_of_toNat_eq h)
  unfold State.register
  split
  case h_11 h => exact absurd h hn
  all_goals rfl

/-- The two states are the same, but that the second may hold `v` in `LFSR`. -/
def SameButLfsr (v : Word) (s s' : State) : Prop := s' = s ∨ s' = { s with lfsr := v }

/-- An edit leaves `LFSR` alone or writes it without reading it (R192). -/
theorem SameButLfsr.apply {v : Word} (e : Edit) (s s' : State) (h : SameButLfsr v s s') :
    SameButLfsr v (e.apply s) (e.apply s') := by
  rcases h with rfl | rfl
  · exact .inl rfl
  · cases e with
    | lfsr | reset => exact .inl rfl
    | _ => exact .inr rfl

/-- Settles O24: `SameButLfsr` is a relation every edit keeps. -/
theorem lfsrRegisterInfluencesNothing : Obligations.LfsrRegisterInfluencesNothing := by
  intro i s v hi
  have agree : Agrees i s { s with lfsr := v } :=
    { Agrees.refl i s with
      register := fun r hr => register_withLfsr (fun h10 => hi (hr.trans (congrArg Instr.get h10))) s v }
  obtain ⟨t, t', ht, ht', h | h⟩ := exec_related SameButLfsr.apply agree (.inr rfl)
  · exact ⟨t, ht, .inl (h ▸ ht')⟩
  · exact ⟨t, ht, .inr (h ▸ ht')⟩

/-! ## Unspecified contents -/

/-- Nothing a command reads is unspecified (R43). -/
theorem SameObserved.agrees {s s' : State} (h : SameObserved s s') (i : Instr) : Agrees i s s' := by
  obtain ⟨hrest, hin, hout, htable⟩ := h
  generalize s'.ibuf = ib, s'.obuf = ob, s'.lut = table at hrest
  subst hrest
  exact { Agrees.refl i s with input := hin, output := hout, table := fun hc => funext (htable hc) }

/-- `SameObserved` with the canonical form that a write into a buffer is understood from. -/
structure SameObservedCanonical (s s' : State) : Prop extends SameObserved s s' where
  ibuf_wf  : s.ibuf.wf = true
  ibuf_wf' : s'.ibuf.wf = true
  obuf_wf  : s.obuf.wf = true
  obuf_wf' : s'.obuf.wf = true

/-- The bytes below the new length read the same after the same bytes were put at the front. -/
theorem Memory.bytes_writeBytes_congr {m m' : Memory} (hm : m.wf = true) (hm' : m'.wf = true) (bs : List Byte)
    {n : Nat} (hn : n ≤ bs.length) : (m'.writeBytes 0 bs).bytes n = (m.writeBytes 0 bs).bytes n := by
  refine Memory.bytes_congr fun a ha => ?_
  rw [(Memory.writeBytes_spec bs m' 0 hm').2, (Memory.writeBytes_spec bs m 0 hm).2,
    if_pos (by omega), if_pos (by omega)]

/-- One byte pushed after bytes that read the same. -/
theorem Memory.bytes_write_congr {m m' : Memory} (hm : m.wf = true) (hm' : m'.wf = true) {k n : Nat}
    (h : m'.bytes k = m.bytes k) (b : Byte) (hn : n ≤ k + 1) :
    (m'.write k b).bytes n = (m.write k b).bytes n := by
  refine Memory.bytes_congr fun a ha => ?_
  rw [Memory.read_write m' k b hm', Memory.read_write m k b hm]
  split
  · rfl
  · exact Memory.bytes_eq_iff.1 h a (by omega)

/-- States that differ in the memories only still do after an edit. -/
theorem Edit.apply_rest {s s' : State} (e : Edit)
    (h : s' = { s with ibuf := s'.ibuf, obuf := s'.obuf, lut := s'.lut }) :
    e.apply s' =
      { e.apply s with ibuf := (e.apply s').ibuf, obuf := (e.apply s').obuf, lut := (e.apply s').lut } := by
  generalize s'.ibuf = ib, s'.obuf = ob, s'.lut = table at h
  subst h
  cases e <;> rfl

/-- Every edit keeps what can be observed the same: it writes the same bytes below the new length, or all of
the table. -/
theorem SameObservedCanonical.apply (e : Edit) (s s' : State) (h : SameObservedCanonical s s') :
    SameObservedCanonical (e.apply s) (e.apply s') := by
  have hrest := e.apply_rest h.rest
  have hilen : s'.ilen = s.ilen := (h.agrees .nop).ilen
  cases e with
  | clearInput => exact { h with rest := hrest, input := rfl }
  | push b =>
    have hin : s'.ibuf.bytes s.ilen.toNat = s.ibuf.bytes s.ilen.toNat := by
      rw [← State.input, ← h.input, State.input, hilen]
    have hlen : (s.ilen + 1).toNat ≤ s.ilen.toNat + 1 := by
      rw [BitVec.toNat_add]; exact Nat.mod_le ..
    exact { h with
      rest := hrest
      input := by
        simp only [Edit.apply, State.input, State.pushInput_ibuf, State.pushInput_ilen, hilen]
        exact Memory.bytes_write_congr h.ibuf_wf h.ibuf_wf' hin b hlen
      ibuf_wf := Memory.wf_write h.ibuf_wf ..
      ibuf_wf' := Memory.wf_write h.ibuf_wf' .. }
  | input bs =>
    exact { h with
      rest := hrest
      input := Memory.bytes_writeBytes_congr h.ibuf_wf h.ibuf_wf' bs (toNat_ofNat16_le _)
      ibuf_wf := Memory.wf_writeBytes h.ibuf_wf ..
      ibuf_wf' := Memory.wf_writeBytes h.ibuf_wf' .. }
  | output out =>
    exact { h with
      rest := hrest
      output := Memory.bytes_writeBytes_congr h.obuf_wf h.obuf_wf' out (toNat_ofNat16_le _)
      obuf_wf := Memory.wf_writeBytes h.obuf_wf ..
      obuf_wf' := Memory.wf_writeBytes h.obuf_wf' .. }
  | configure p n x l =>
    exact { h with
      rest := hrest
      table := fun _ => State.lutAt_congr (by simp [(h.agrees .nop).cfg]) }
  | reset => exact ⟨⟨hrest, rfl, rfl, nofun⟩, rfl, rfl, rfl, rfl⟩
  | err | emit | running | crcRem | crcResult | consumed | ended | inverted | lfsr =>
    exact { h with rest := hrest }

/-- Settles O23: `SameObservedCanonical` is a relation every edit keeps, and the invariant gives it. -/
theorem unspecifiedContentsAreUnobservable : Obligations.UnspecifiedContentsAreUnobservable := by
  intro i s s' hs hs' h
  obtain ⟨t, t', ht, ht', ho⟩ := exec_related SameObservedCanonical.apply (h.agrees i)
    ⟨h, hs.ibuf_wf, hs'.ibuf_wf, hs.obuf_wf, hs'.obuf_wf⟩
  exact ⟨t, t', ht, ht', ho.toSameObserved⟩

end Sys2Proof.Machine

/-! # The encoding (30_encoding.md R80 to R88)

`decode_encode` and `eq_encode_of_decode` say that the decoder yields a command exactly on its encoding;
`decode_cons` says the verdict and the length, which depend on byte 0 alone. -/

namespace Sys2Proof

/-! ## Decoding an encoding -/

/-- What the encoder writes, the decoder reads, whatever follows (R81 to R83). Only 16-bit operands, which
are sent as two bytes, need an argument. -/
theorem decode_encode (i : Instr) (rest : List Byte) : decode (encode i ++ rest) = .command i rest := by
  cases i with
  | outRd idx =>
    change Decoded.command (.outRd (le16 (loByte idx) (hiByte idx))) rest = _
    rw [le16_loByte_hiByte]
  | crcCfg p n x o =>
    change Decoded.command (.crcCfg (le16 (loByte p) (hiByte p)) (le16 (loByte n) (hiByte n))
      (le16 (loByte x) (hiByte x)) o) rest = _
    rw [le16_loByte_hiByte, le16_loByte_hiByte, le16_loByte_hiByte]
  | _ => rfl

/-- Settles O1: `decode_encode`, command by command. -/
theorem decodeAfterEncodeIsIdentity : Obligations.DecodeAfterEncodeIsIdentity := decode_encode

/-- Settles O3: each listing but the illegal byte is an encoding, with the bytes that follow it. -/
theorem listedBytesDecodeToTheirCommands : Obligations.ListedBytesDecodeToTheirCommands :=
  ⟨decode_encode (.crcCfg 0x1021 0xFFFF 0x0000 0) [], decode_encode (.outRd 0x0102) [],
    decode_encode (.hdlcStuff 1 0x7E) [], decode_encode (.inPush 0x01) [], decode_encode .slipEnc [0x0B],
    decode_encode (.fsmUnpack 1) [], rfl⟩

/-! ## The bytes a command was decoded from -/

section Formats

variable {t rest : List Byte} {i : Instr}

theorem eq_cons_of_formatF1 {f : Byte → Instr} (h : formatF1 f t = .command i rest) :
    ∃ a, i = f a ∧ t = a :: rest := by
  rcases t with _ | ⟨a, t⟩ <;> cases h
  exact ⟨a, rfl, rfl⟩

theorem eq_cons_of_formatF2 {f : Byte → Byte → Instr} (h : formatF2 f t = .command i rest) :
    ∃ a b, i = f a b ∧ t = a :: b :: rest := by
  rcases t with _ | ⟨a, _ | ⟨b, t⟩⟩ <;> cases h
  exact ⟨a, b, rfl, rfl⟩

theorem eq_cons_of_formatF7 {f : Word → Word → Word → Byte → Instr} (h : formatF7 f t = .command i rest) :
    ∃ p n x o, i = f p n x o ∧
      t = loByte p :: hiByte p :: loByte n :: hiByte n :: loByte x :: hiByte x :: o :: rest := by
  rcases t with _ | ⟨p, _ | ⟨p', _ | ⟨n, _ | ⟨n', _ | ⟨x, _ | ⟨x', _ | ⟨o, t⟩⟩⟩⟩⟩⟩⟩ <;> cases h
  exact ⟨_, _, _, _, rfl, by simp⟩

end Formats

/-- The decoder reads nothing but encodings (R80): the cases are the rows of the opcode map of R83, put together
by their format (R81). -/
theorem eq_encode_of_decode {bs : List Byte} {i : Instr} {rest : List Byte} (h : decode bs = .command i rest) :
    bs = encode i ++ rest := by
  rcases bs with _ | ⟨op, t⟩
  · cases h
  · have opcode {n : Nat} (hn : op.toNat = n) : op = BitVec.ofNat 8 n := by
      rw [← hn, BitVec.ofNat_toNat, BitVec.setWidth_eq]
    simp only [decode] at h
    split at h
    case h_1 hop | h_2 hop | h_4 hop | h_7 hop | h_10 hop | h_11 hop | h_12 hop | h_13 hop | h_17 hop
        | h_18 hop | h_20 hop =>
      cases h
      rw [opcode hop]
      rfl
    case h_3 hop | h_5 hop | h_9 hop | h_14 hop | h_16 hop | h_19 hop =>
      obtain ⟨a, rfl, rfl⟩ := eq_cons_of_formatF1 h
      rw [opcode hop]
      rfl
    case h_6 hop =>
      obtain ⟨a, b, rfl, rfl⟩ := eq_cons_of_formatF2 h
      simp [opcode hop, encode]
    case h_15 hop =>
      obtain ⟨a, b, rfl, rfl⟩ := eq_cons_of_formatF2 h
      rw [opcode hop]
      rfl
    case h_8 hop =>
      obtain ⟨p, n, x, o, rfl, rfl⟩ := eq_cons_of_formatF7 h
      rw [opcode hop]
      rfl
    case h_21 => cases h

/-- Settles O2: `eq_encode_of_decode`, format by format. -/
theorem decodedBytesAreTheEncoding : Obligations.DecodedBytesAreTheEncoding :=
  fun _ _ _ => eq_encode_of_decode

/-! ## Lengths and illegal bytes -/

open Machine (illegalOpcode)

/-- The table of R86. -/
theorem commandLength_eq (op : Byte) : commandLength op =
    if op.toNat ∈ [0x00, 0x01, 0x08, 0x0B, 0x12, 0x13, 0x14, 0x15, 0x30, 0x31, 0x41] then some 1
    else if op.toNat ∈ [0x02, 0x09, 0x11, 0x16, 0x21, 0x40] then some 2
    else if op.toNat ∈ [0x0A, 0x20] then some 3
    else if op.toNat = 0x10 then some 8
    else none := by
  unfold commandLength
  split <;> simp_all

/-- Settles O4: the table of R86, and `decode_cons` at each length. -/
theorem lengthIsToldFromByteZero : Obligations.LengthIsToldFromByteZero := by
  intro op t ofLength
  have hdecode := decode_cons op t
  have hlength := commandLength_eq op
  split_ifs at hlength ⊢
  all_goals
    rw [hlength] at hdecode
    exact ⟨hlength, hdecode⟩

/-- The bytes of R84's ranges are the ones R86 gives no length. -/
theorem commandLength_eq_none_iff (op : Byte) : commandLength op = none ↔ illegalOpcode op = true := by
  have hlt := op.isLt
  have hranges : illegalOpcode op = true ↔
      0x03 ≤ op.toNat ∧ op.toNat ≤ 0x07 ∨ 0x0C ≤ op.toNat ∧ op.toNat ≤ 0x0F ∨
      0x17 ≤ op.toNat ∧ op.toNat ≤ 0x1F ∨ 0x22 ≤ op.toNat ∧ op.toNat ≤ 0x2F ∨
      0x32 ≤ op.toNat ∧ op.toNat ≤ 0x3F ∨ 0x42 ≤ op.toNat ∧ op.toNat ≤ 0xFF := by
    simp [illegalOpcode]
  rw [hranges, commandLength_eq]
  split_ifs <;> simp_all <;> omega

/-- The verdict on byte 0 does not depend on what follows it (R84). -/
theorem decode_cons_eq_illegal_iff (op : Byte) (t : List Byte) :
    decode (op :: t) = .illegal op t ↔ illegalOpcode op = true := by
  rw [← commandLength_eq_none_iff]
  have hdecode := decode_cons op t
  cases hlength : commandLength op with
  | none =>
    rw [hlength] at hdecode
    exact iff_of_true hdecode rfl
  | some n =>
    rw [hlength] at hdecode
    obtain ⟨hshort, hlong⟩ := hdecode
    refine iff_of_false (fun h => ?_) nofun
    rcases Nat.lt_or_ge (t.length + 1) n with hn | hn
    · cases h.symm.trans (hshort hn)
    · obtain ⟨i, hi⟩ := hlong hn
      cases h.symm.trans hi

/-- Settles O5: the verdict told by `decode_cons`, and a count over the 256 bytes. -/
theorem illegalOpcodesAreTheListedRanges : Obligations.IllegalOpcodesAreTheListedRanges :=
  ⟨decode_cons_eq_illegal_iff, rfl⟩

end Sys2Proof

/-! # The step on a command stream (30_encoding.md R80, R84, R87, 20_memory.md R71) -/

namespace Sys2Proof.Machine

/-! ## One step -/

/-- Settles O6: `step_command`. -/
theorem stepRunsTheDecodedCommand : Obligations.StepRunsTheDecodedCommand :=
  fun _ _ _ hs => step_command hs

/-- A block whose stream starts with the bytes of a command runs it (R80). -/
theorem step_encoded {s : State} (hs : s.ready) {i : Instr} {rest : List Byte} (h : s.cmd = encode i ++ rest) :
    step s = exec i { s with cmd := rest } :=
  step_command hs (h ▸ decode_encode i rest)

/-- A block whose stream starts with an illegal byte takes it and faults (R84, R214). -/
theorem step_illegalOpcode {s : State} (hs : s.ready) {op : Byte} (hop : illegalOpcode op = true)
    {rest : List Byte} (h : s.cmd = op :: rest) : step s = .fault (.illegalOpcode
      { s with cmd := rest, status := { s.status with err := 0x80, fault := true } }) :=
  step_illegal hs (h ▸ (decode_cons_eq_illegal_iff op rest).2 hop)

/-- A block with no whole command on its stream waits (R87). -/
theorem step_needMore {s : State} (hs : s.ready) (h : decode s.cmd = .needMore) : step s = .next s := by
  simp [step, State.nextAction, hs.1, hs.2, h]

/-- Settles O7: the bytes that wait stay in front of those sent later. -/
theorem incompleteCommandWaits : Obligations.IncompleteCommandWaits := by
  intro s hs hd
  refine ⟨step_needMore hs hd, fun i more rest h => ?_, _, step_reset rfl, rfl⟩
  exact step_encoded (s := s.send more) hs h

/-- Settles O8: the fault's state has `FAULT = 1`, so it is stuck until reset, which keeps `RSP`. -/
theorem illegalOpcodeFaultsUntilReset : Obligations.IllegalOpcodeFaultsUntilReset := by
  intro s op rest hs hop h
  refine ⟨_, step_illegalOpcode hs hop h, rfl, fun more => ?_, _, step_reset rfl, ⟨rfl, rfl⟩, rfl⟩
  have hstuck := step_stuck (s := State.send { s with
    cmd := rest, status := { s.status with err := 0x80, fault := true } } more) hs.1 rfl
  exact ⟨hstuck, fun t ht => by cases hstuck.symm.trans ht⟩

/-! ## Runs -/

/-- A block that takes commands still does after a command (R80). -/
theorem Did.ready {s t : State} {i : Instr} (d : Did s i t) (hs : s.ready) : t.ready :=
  ⟨d.resetIn_eq.trans hs.1, by rw [d.fault_eq, hs.2, Bool.false_and]⟩

theorem runAll_cons {i : Instr} {s t : State} (h : exec i s = .next t) (is : List Instr) :
    runAll (i :: is) s = runAll is t := by
  simp only [runAll, h]

/-- The commands at the front of the stream run in order, one per step, to a block that takes the bytes after
them; what they do does not depend on those bytes (R71, R74, R80). -/
theorem run_encoded (is : List Instr) {s : State} (hs : s.ready) {rest : List Byte}
    (h : s.cmd = is.flatMap encode ++ rest) :
    ∃ t, runAll is { s with cmd := rest } = some t ∧ t.ready ∧ t.cmd = rest ∧
      ∀ k, Host.Core.run Sys2Proof.core (is.length + k) s = Host.Core.run Sys2Proof.core k t := by
  induction is generalizing s with
  | nil =>
    obtain rfl : s.cmd = rest := h
    exact ⟨s, rfl, hs, rfl, fun k => by rw [List.length_nil, Nat.zero_add]⟩
  | cons i is ih =>
    rw [List.flatMap_cons, List.append_assoc] at h
    obtain ⟨u, hu, d⟩ := exec_spec i { s with cmd := is.flatMap encode ++ rest }
    obtain ⟨t, ht, htr, htc, hrun⟩ := ih (d.ready hs) d.cmd_eq
    refine ⟨t, (runAll_cons (exec_withCmd hu rest) is).trans ht, htr, htc, fun k => ?_⟩
    rw [List.length_cons, Nat.add_right_comm, run_next ((step_encoded hs h).trans hu), hrun]

/-- Settles O13: `run_encoded` with nothing after the commands. -/
theorem commandStreamExecutesInOrder : Obligations.CommandStreamExecutesInOrder := by
  intro is s hs h
  obtain ⟨t, ht, -, -, hrun⟩ := run_encoded is hs (h.trans (List.append_nil _).symm)
  exact ⟨t, ht, hrun 0⟩

/-- Settles O10: `run_encoded`, and the fault of the step after it. -/
theorem runEndsInFaultAtIllegalOpcode : Obligations.RunEndsInFaultAtIllegalOpcode := by
  intro is op rest s hs hop h
  obtain ⟨t, ht, htr, htc, hrun⟩ := run_encoded is hs h
  refine ⟨t, ht, fun k hk => ?_⟩
  obtain ⟨m, rfl⟩ := Nat.exists_eq_add_of_lt hk
  rw [Nat.add_assoc, hrun, run_fault (step_illegalOpcode htr hop htc)]

/-! ## The assembler's `IN.LOAD` (R89) -/

/-- Pushed bytes that fit stand after those that were there (R105). -/
theorem runAll_inPush (bs : List Byte) {s : State} (hw : s.ibuf.wf = true) (hmax : s.cfg.bufsz ≤ 65535)
    (hfit : s.ilen.toNat + bs.length ≤ s.cfg.bufsz) :
    ∃ t, runAll (bs.map .inPush) (s.withErr eOk) = some t ∧ t.input = s.input ++ bs ∧
      t = { s.withErr eOk with ibuf := t.ibuf, ilen := t.ilen } := by
  induction bs generalizing s with
  | nil => exact ⟨_, rfl, (List.append_nil _).symm, rfl⟩
  | cons b bs ih =>
    rw [List.length_cons] at hfit
    have hroom : (s.withErr eOk).ilen.toNat ≠ (s.withErr eOk).cfg.bufsz := by
      rw [State.withErr_ilen, State.withErr_cfg]; omega
    have hpush : exec (.inPush b) (s.withErr eOk) = .next ((s.pushInput b).withErr eOk) :=
      ((exec_inPush b (s.withErr eOk)).resolve_left fun hfull => hroom hfull.1).2
    obtain ⟨hilen, hinput, -⟩ := s.pushInput_spec b hw (by omega)
    obtain ⟨t, ht, htin, hframe⟩ := ih (s := s.pushInput b) (Memory.wf_write hw ..) hmax
      (by rw [hilen, State.pushInput_cfg]; omega)
    refine ⟨t, (runAll_cons hpush _).trans ht, ?_, hframe⟩
    rw [htin, hinput, List.append_assoc, List.singleton_append]

/-- Settles O32: `IN.CLR` empties the input, whatever was there, and `runAll_inPush` fills it. -/
theorem inLoadFillsInput : Obligations.InLoadFillsInput := by
  intro s bs hs hfit
  obtain ⟨t, ht, hin, hframe⟩ := runAll_inPush bs (s := { s with ilen := 0 }) hs.ibuf_wf
    (Config.wf_spec hs.cfg_wf).bufsz_le ((Nat.zero_add _).trans_le hfit)
  exact ⟨t, (runAll_cons (exec_inClr s) _).trans ht, hin, hframe⟩

end Sys2Proof.Machine

/-! # The system and buffer commands (40_system_buffer.md R101 to R107)

The decode clauses are `decode_encode` at one command each; what a command does is read off its equation or its two
ways to end in `Laws/Exec.lean`. -/

namespace Sys2Proof.Machine

/-! ## `NOP` and `SRESET` -/

/-- While `FAULT` is 1 no command is executed (R100 (1)). -/
theorem noStep_of_fault {s : State} (hr : s.resetIn = false) (hf : s.status.fault = true) : s.noStep :=
  fun _ ht => by cases (step_stuck hr hf).symm.trans ht

/-- Settles O25, from `exec_nop` and `noStep_of_fault`. -/
theorem nopChangesNothing : Obligations.NopChangesNothing :=
  ⟨decode_encode .nop, exec_nop, fun _ => noStep_of_fault⟩

/-- Settles O26: `State.withResetValues` says what each register becomes. -/
theorem sresetRestoresResetState : Obligations.SresetRestoresResetState :=
  ⟨decode_encode .sreset, fun _ => noStep_of_fault, fun s => ⟨_, _, _, exec_sreset s⟩⟩

/-! ## `GET` -/

/-- The register file of R39, in the order of its numbers. -/
def State.registers (s : State) : List Word :=
  [s.status.toWord, s.ilen, s.olen, s.consumed, s.crcPoly, s.crcInit, s.crcXorout, ctrlWord s.lsbf, s.crcRem,
    s.crcResult, s.lfsr]

theorem State.register_eq_getElem? (s : State) (r : Byte) : s.register r = s.registers[r.toNat]? := by
  rcases Nat.lt_or_ge r.toNat 11 with h | h
  · unfold State.register
    interval_cases r.toNat <;> rfl
  · rw [(s.register_eq_none r).2 h, List.getElem?_eq_none h]

theorem toNat_ctrlWord (lsbf : Bool) : (ctrlWord lsbf).toNat = lsbf.toNat := by
  cases lsbf <;> rfl

/-- The registers as numbers, `STATUS` by its weighted fields (R29). -/
theorem State.map_toNat_registers (s : State) : s.registers.map BitVec.toNat =
    [s.status.err.toNat + 256 * s.status.fault.toNat + 512 * s.status.cfgd.toNat +
        1024 * s.status.run.toNat + 2048 * s.status.inv.toNat + 4096 * s.status.eof.toNat +
        8192 * s.status.resid.toNat,
      s.ilen.toNat, s.olen.toNat, s.consumed.toNat, s.crcPoly.toNat, s.crcInit.toNat,
      s.crcXorout.toNat, s.lsbf.toNat, s.crcRem.toNat, s.crcResult.toNat, s.lfsr.toNat] := by
  simp only [State.registers, List.map_cons, List.map_nil, Status.toNat_toWord, toNat_ctrlWord]

/-- Settles O27: the number read is looked up in `State.registers`. -/
theorem getSendsTheNumberedRegister : Obligations.GetSendsTheNumberedRegister := by
  intro s r
  refine ⟨decode_encode (.get r), fun hge => ?_, fun hlt => ?_⟩
  · obtain ⟨w, hw, -⟩ | ⟨-, he⟩ := exec_get r s
    · cases ((s.register_eq_none r).2 hge).symm.trans hw
    · exact he
  · obtain ⟨w, hw, he⟩ | ⟨hnone, -⟩ := exec_get r s
    · refine ⟨w, he, ?_⟩
      rw [s.register_eq_getElem?] at hw
      rw [← s.map_toNat_registers, List.getD_eq_getElem?_getD, List.getElem?_map, hw]
      rfl
    · exact absurd ((s.register_eq_none r).1 hnone) hlt.not_ge

/-! ## The buffers -/

/-- Settles O28: no byte is readable below `ILEN = 0`. -/
theorem inClrEmptiesInput : Obligations.InClrEmptiesInput :=
  ⟨decode_encode .inClr, fun s => ⟨_, exec_inClr s, rfl, rfl⟩⟩

/-- Settles O29: `State.pushInput_spec`, since a buffer that is not full has room below index 65535. -/
theorem inPushAppendsOneByte : Obligations.InPushAppendsOneByte := by
  intro s b hs
  refine ⟨decode_encode (.inPush b), fun hfull => ?_, fun hroom => ?_⟩
  · exact ((exec_inPush b s).resolve_right fun h => h.1 hfull).2
  · have he := ((exec_inPush b s).resolve_left fun h => hroom h.1).2
    have hlt : s.ilen.toNat < s.cfg.bufsz := Nat.lt_of_le_of_ne hs.ilen_le hroom
    obtain ⟨hlen, -, hread⟩ :=
      s.pushInput_spec b hs.ibuf_wf (hlt.trans_le (Config.wf_spec hs.cfg_wf).bufsz_le)
    exact ⟨_, he, hlen, (hread _).trans (if_pos rfl), fun a ha => (hread a).trans (if_neg ha.symm), rfl⟩

/-- Settles O30, from the two ways `OUT.RD` can end. -/
theorem outRdSendsOneByte : Obligations.OutRdSendsOneByte := by
  intro s idx
  refine ⟨decode_encode (.outRd idx), fun hge => ?_, fun hlt => ?_⟩
  · exact ((exec_outRd idx s).resolve_right fun h => hge.not_gt h.1).2
  · exact ⟨_, toNat_zext16 _, ((exec_outRd idx s).resolve_left fun h => hlt.not_ge h.1).2⟩

/-- The input takes over the output's length register as it stands (R107). -/
theorem withInput_output (s : State) :
    s.withInput s.output = { s with ibuf := s.ibuf.writeBytes 0 s.output, ilen := s.olen } := by
  rw [State.withInput, State.length_output, BitVec.ofNat_toNat, BitVec.setWidth_eq]

/-- Settles O31: `State.withInput_spec` of the output; equal runs of bytes read the same at every index. -/
theorem xferCopiesOutputToInput : Obligations.XferCopiesOutputToInput := by
  refine ⟨decode_encode .xfer, fun s hs => ?_⟩
  obtain ⟨hin, -, habove⟩ := s.withInput_spec s.output hs.ibuf_wf (s.length_output.trans_lt s.olen.isLt)
  have hbytes : (s.withInput s.output).ibuf.bytes s.olen.toNat = s.obuf.bytes s.olen.toNat := by
    rwa [State.input, withInput_output] at hin
  have hframe := congrArg (State.withErr · eOk) (withInput_output s)
  exact ⟨_, exec_xfer s, Memory.bytes_eq_iff.1 hbytes, fun a ha => habove a (s.length_output.trans_le ha), hin,
    hframe⟩

end Sys2Proof.Machine

/-! # The CRC unit (41_crc.md R120 to R133)

Two facts carry the family: a table-driven byte step is the bit-serial one seen through `orient`, and `IN.LOAD` is
`State.withInput`, so that what a run of loads and CRC commands leaves is computed by rewriting. -/

namespace Sys2Proof

/-! ## The preset table (R128) -/

/-- The rows in the order of their numbers. -/
def PresetTable.rows (t : PresetTable) : List Preset := [t.ccittFalse, t.xmodem, t.hdlc, t.kermit, t.maxim, t.usb]

theorem PresetTable.row_eq_getElem? (t : PresetTable) (n : Byte) : t.row n = t.rows[n.toNat]? := by
  unfold PresetTable.row PresetTable.rows
  rcases n.toNat with _ | _ | _ | _ | _ | _ | k <;> rfl

theorem PresetTable.row_of_lt (t : PresetTable) {n : Byte} (h : n.toNat < t.rows.length) :
    t.row n = some t.rows[n.toNat] :=
  (t.row_eq_getElem? n).trans (List.getElem?_eq_getElem h)

theorem PresetTable.row_of_ge (t : PresetTable) {n : Byte} (h : t.rows.length ≤ n.toNat) : t.row n = none :=
  (t.row_eq_getElem? n).trans (List.getElem?_eq_none h)

end Sys2Proof

namespace Sys2Proof.Machine

/-! ## The table (R120) -/

/-- A shift without feedback is a plain shift (R120 with `P = 0`). -/
theorem lutShiftMsb_zero_poly (r : Word) : lutShiftMsb 0 r = r <<< 1 := by simp [lutShiftMsb]

theorem lutShiftLsb_zero_poly (r : Word) : lutShiftLsb 0 r = r >>> 1 := by simp [lutShiftLsb]

theorem lutShiftMsb_zero_poly_iterate (r : Word) (n : Nat) : (lutShiftMsb 0)^[n] r = r <<< n := by
  induction n with
  | zero => exact (BitVec.shiftLeft_zero r).symm
  | succ n ih => rw [Function.iterate_succ_apply', ih, lutShiftMsb_zero_poly, BitVec.shiftLeft_add]

theorem lutShiftLsb_zero_poly_iterate (r : Word) (n : Nat) : (lutShiftLsb 0)^[n] r = r >>> n := by
  induction n with
  | zero => exact (BitVec.ushiftRight_zero r).symm
  | succ n ih => rw [Function.iterate_succ_apply', ih, lutShiftLsb_zero_poly, BitVec.shiftRight_add]

theorem toNat_zext16_shiftLeft (b : Byte) : (zext16 b <<< 8).toNat = 256 * b.toNat := by
  rw [BitVec.toNat_shiftLeft, toNat_zext16, Nat.shiftLeft_eq]
  omega

/-- With `P = 0` the byte is shifted out on either side, and nothing is left (R121). -/
theorem lutEntry_zero_poly (l : Bool) (i : Byte) : lutEntry 0 l i = 0 := by
  cases l with
  | false =>
    change (lutShiftMsb 0)^[8] (zext16 i <<< 8) = 0
    rw [lutShiftMsb_zero_poly_iterate, ← BitVec.shiftLeft_add, BitVec.shiftLeft_eq_zero (by decide)]
    rfl
  | true =>
    change (lutShiftLsb (bitrev16 0))^[8] (zext16 i) = 0
    rw [show bitrev16 0 = 0 by decide, lutShiftLsb_zero_poly_iterate]
    apply BitVec.eq_of_toNat_eq
    rw [BitVec.toNat_ushiftRight, toNat_zext16, Nat.shiftRight_eq_div_pow]
    exact Nat.div_eq_of_lt i.isLt

/-- Zero stays zero under every shift, so entry 0 is 0 for every polynomial (R120). -/
theorem lutEntry_zero_index (p : Word) (l : Bool) : lutEntry p l 0 = 0 := by
  cases l with
  | false => exact Function.iterate_fixed (f := lutShiftMsb p) rfl 8
  | true => exact Function.iterate_fixed (f := lutShiftLsb (bitrev16 p)) rfl 8

theorem getElem?_lutBuild {c : Config} (hc : c.wf = true) (p : Word) (l : Bool) (i : Byte) :
    (lutBuild c.lutN p l)[i.toNat]? = some (lutEntry p l i) := by
  have hi : i.toNat < 256 := i.isLt
  simp [lutBuild, (Config.wf_spec hc).lutN, hi]

/-- Settles O33: the sequences are the iterates of one shift. -/
theorem tableFunctionFollowsItsLoop : Obligations.TableFunctionFollowsItsLoop := by
  refine ⟨fun p i => ?_, fun p i => ?_, lutEntry_zero_index, fun c p l hc => getElem?_lutBuild hc p l, rfl⟩
  · exact ⟨fun k => (lutShiftMsb p)^[k] (zext16 i <<< 8), toNat_zext16_shiftLeft i,
      fun k _ => Function.iterate_succ_apply' .., rfl⟩
  · exact ⟨bitrev16 p, fun k => (lutShiftLsb (bitrev16 p))^[k] (zext16 i), getLsbD_bitrev16 p, toNat_zext16 i,
      fun k _ => Function.iterate_succ_apply' .., rfl⟩

/-! ## Configuration (R121, R122, R128) -/

theorem switchBit_eq_beq_one {v : Byte} (h : v.toNat < 2) : switchBit v = (v == 1) := by
  obtain rfl | rfl : v = 0 ∨ v = 1 := by bv_omega
  all_goals rfl

theorem exec_crcCfg_of_lt {order : Byte} (h : order.toNat < 2) (poly init xorout : Word) (s : State) :
    exec (.crcCfg poly init xorout order) s = .next ((s.configure poly init xorout (order == 1)).withErr eOk) := by
  rw [← switchBit_eq_beq_one h]
  exact ((exec_crcCfg poly init xorout order s).resolve_left fun hge => h.not_ge hge.1).2

/-- Settles O34: `State.configure` rebuilds the table for whatever it is given. -/
theorem crcCfgConfiguresAndRebuildsTable : Obligations.CrcCfgConfiguresAndRebuildsTable := by
  intro s poly init xorout order
  refine ⟨decode_encode (.crcCfg poly init xorout order), fun hge => ?_, fun hlt => ?_⟩
  · exact ((exec_crcCfg poly init xorout order s).resolve_right fun h => hge.not_gt h.1).2
  · have hlut (hc : s.cfg.wf = true) := State.lutAt_configure s hc poly init xorout (order == 1)
    refine ⟨_, exec_crcCfg_of_lt hlt poly init xorout s, fun hc => ⟨?_, hlut hc, ?_, ?_⟩, rfl⟩
    · exact (length_lutBuild ..).trans (Config.wf_spec hc).lutN
    · rintro rfl i
      exact (hlut hc i).trans (lutEntry_zero_poly _ i)
    · exact (hlut hc 0).trans (lutEntry_zero_index ..)

/-- `CRC.PRESET` of an existing row is the `CRC.CFG` with its four values (R122). -/
theorem exec_crcPreset_of_row {s : State} {n : Byte} {p : Preset} (h : s.cfg.presets.row n = some p) :
    exec (.crcPreset n) s = .next ((s.configure p.poly p.init p.xorout p.lsbf).withErr eOk) := by
  obtain ⟨hnone, -⟩ | ⟨q, hq, he⟩ := exec_crcPreset n s
  · cases hnone.symm.trans h
  · cases hq.symm.trans h
    exact he

theorem exec_crcPreset_eq_crcCfg {s : State} {n : Byte} {p : Preset} (h : s.cfg.presets.row n = some p) :
    exec (.crcPreset n) s = exec (.crcCfg p.poly p.init p.xorout (if p.lsbf then 1 else 0)) s := by
  rw [exec_crcPreset_of_row h]
  cases p.lsbf with
  | false => exact (exec_crcCfg_of_lt (order := 0) (by decide) ..).symm
  | true => exact (exec_crcCfg_of_lt (order := 1) (by decide) ..).symm

/-- Settles O35: a number below 6 is a place in `PresetTable.rows`. -/
theorem crcPresetIsItsConfiguration : Obligations.CrcPresetIsItsConfiguration := by
  intro s n
  refine ⟨decode_encode (.crcPreset n), fun hge => ?_, fun hlt => ?_⟩
  · have hnone := s.cfg.presets.row_of_ge hge
    exact ((exec_crcPreset n s).resolve_right fun ⟨_, hp, _⟩ => by cases hnone.symm.trans hp).2
  · have hrow := s.cfg.presets.row_of_lt hlt
    refine ⟨_, hrow, exec_crcPreset_eq_crcCfg hrow, ⟨_, exec_crcPreset_of_row hrow, rfl, rfl⟩, fun hstd => ?_⟩
    rw [← Option.map_some (f := fun p : Preset => (p.poly, p.init, p.xorout, p.lsbf)), ← hrow, hstd,
      PresetTable.row_eq_getElem?, ← List.getElem?_map]
    rfl

/-! ## The commands on a configured block (R123 to R127) -/

section Configured

variable {s : State}

theorem exec_crcStart_of_cfgd (hc : s.status.cfgd = true) :
    exec .crcStart s = .next (s.crcBegin.withErr eOk) := by
  simpa [hc] using exec_crcStart s

theorem exec_crcUpdate_of_run (hc : s.status.cfgd = true) (hr : s.status.run = true) :
    exec .crcUpdate s = .next (s.crcFeed.withErr eOk) := by
  simpa [hc, hr] using exec_crcUpdate s

theorem exec_crcFinal_of_run (hc : s.status.cfgd = true) (hr : s.status.run = true) :
    exec .crcFinal s = .next (s.crcFinish.withErr eOk) := by
  simpa [hc, hr] using exec_crcFinal s

theorem exec_crcCalc_of_cfgd (hc : s.status.cfgd = true) :
    exec .crcCalc s = .next (s.crcBegin.crcFeed.crcFinish.withErr eOk) := by
  simpa [hc] using exec_crcCalc s

end Configured

theorem getLsbD_orient (l : Bool) (init : Word) {k : Nat} (hk : k < 16) :
    (orient l init).getLsbD k = init.getLsbD (if l then 15 - k else k) := by
  cases l with
  | false => rfl
  | true => exact getLsbD_bitrev16 init k hk

/-- Settles O36: `orient` puts each bit of `CRC_INIT` in its place. -/
theorem crcStartLoadsOrientedInitial : Obligations.CrcStartLoadsOrientedInitial := by
  refine ⟨decode_encode .crcStart, fun s => ⟨fun hc => ?_, fun hc => ?_⟩⟩
  · change exec .crcStart s = .next (s.withErr eNocfg)
    simpa [hc] using exec_crcStart s
  · exact ⟨_, exec_crcStart_of_cfgd hc, fun k => getLsbD_orient s.lsbf s.crcInit, rfl⟩

/-- `crc_step` with the two table indices as R129 writes them, on the numbers of the register's bytes. -/
theorem crcStep_eq (l : Bool) (lut : Byte → Word) (r : Word) (b : Byte) : crcStep l lut r b =
    if l then (r >>> 8) ^^^ lut (BitVec.ofNat 8 (r.toNat % 256) ^^^ b)
    else (r <<< 8) ^^^ lut (BitVec.ofNat 8 (r.toNat / 256) ^^^ b) := by
  have hlow : (r ^^^ zext16 b).setWidth 8 = BitVec.ofNat 8 (r.toNat % 256) ^^^ b := by
    have hr : r.setWidth 8 = BitVec.ofNat 8 (r.toNat % 256) := by bv_omega
    rw [BitVec.setWidth_xor, hr, zext16, BitVec.setWidth_setWidth_of_le b (by decide), BitVec.setWidth_eq]
  have hhigh : (r >>> 8).setWidth 8 = BitVec.ofNat 8 (r.toNat / 256) := by
    apply BitVec.eq_of_toNat_eq
    simp [Nat.shiftRight_eq_div_pow]
  rw [crcStep, hlow, hhigh]

/-- `CRC_REM` after the first `k` bytes of `IBUF` (R124). -/
def State.remAfter (s : State) (k : Nat) : Word := (s.ibuf.bytes k).foldl (crcStep s.lsbf s.lutAt) s.crcRem

theorem State.remAfter_succ (s : State) (k : Nat) :
    s.remAfter (k + 1) = crcStep s.lsbf s.lutAt (s.remAfter k) (s.ibuf.read k) := by
  rw [remAfter, Memory.bytes_succ, List.foldl_append]
  rfl

/-- Settles O37: `CRC.UPDATE` leaves the remainder after the last byte, and each byte is one `crcStep`. -/
theorem crcUpdateRunsInputThroughTable : Obligations.CrcUpdateRunsInputThroughTable := by
  refine ⟨decode_encode .crcUpdate, fun s => ⟨fun hc => ?_, fun hc hr => ?_, fun hc hr => ?_⟩⟩
  · change exec .crcUpdate s = .next (s.withErr eNocfg)
    simpa [hc] using exec_crcUpdate s
  · change exec .crcUpdate s = .next (s.withErr eNostart)
    simpa [hc, hr] using exec_crcUpdate s
  · exact ⟨s.remAfter, rfl, fun k _ => (s.remAfter_succ k).trans (crcStep_eq ..), exec_crcUpdate_of_run hc hr⟩

/-- Settles O38, from the three ways `CRC.FINAL` can end. -/
theorem crcFinalXorsRemainder : Obligations.CrcFinalXorsRemainder := by
  refine ⟨decode_encode .crcFinal, fun s => ⟨fun hc => ?_, fun hc hr => ?_, fun hc hr => ?_⟩⟩
  · change exec .crcFinal s = .next (s.withErr eNocfg)
    simpa [hc] using exec_crcFinal s
  · change exec .crcFinal s = .next (s.withErr eNostart)
    simpa [hc, hr] using exec_crcFinal s
  · exact exec_crcFinal_of_run hc hr

/-- Settles O39: each of the three commands overwrites the result code of the one before. -/
theorem crcCalcIsStartUpdateFinal : Obligations.CrcCalcIsStartUpdateFinal := by
  refine ⟨decode_encode .crcCalc, fun s => ⟨fun hc => ?_, fun hc => ?_⟩⟩
  · change exec .crcCalc s = .next (s.withErr eNocfg)
    simpa [hc] using exec_crcCalc s
  · refine ⟨_, exec_crcCalc_of_cfgd hc, ?_, rfl⟩
    rw [runAll_cons (exec_crcStart_of_cfgd hc),
      runAll_cons (exec_crcUpdate_of_run (s := s.crcBegin.withErr eOk) hc rfl),
      runAll_cons (exec_crcFinal_of_run (s := (s.crcBegin.withErr eOk).crcFeed.withErr eOk) hc rfl)]
    rfl

/-- Settles O40, from the two ways `CRC.LUTRD` can end. -/
theorem crcLutrdSendsTableEntry : Obligations.CrcLutrdSendsTableEntry := by
  refine fun s i => ⟨decode_encode (.crcLutrd i), fun hc => ?_, fun hc => ?_⟩
  · change exec (.crcLutrd i) s = .next (s.withErr eNocfg)
    simpa [hc] using exec_crcLutrd i s
  · change exec (.crcLutrd i) s = .next ((s.emit (s.lutAt i)).withErr eOk)
    simpa [hc] using exec_crcLutrd i s

/-! ## Table-driven and bit-serial (R130) -/

/-- One bit-serial byte, seen in the orientation of the bit order, is one step through the table. -/
theorem orient_serialByte (p : Word) (l : Bool) (r : Word) (b : Byte) :
    orient l (Reference.serialByte p l r b) = crcStep l (lutEntry p l) (orient l r) b := by
  cases l with
  | false => exact (serialFold_eq_shifts p r b).trans (crcStep_msb p r b).symm
  | true =>
    have hrev : Function.Semiconj bitrev16 (lutShiftMsb p) (lutShiftLsb (bitrev16 p)) := bitrev16_lutShiftMsb p
    calc bitrev16 (Reference.serialByte p true r b)
        = bitrev16 ((lutShiftMsb p)^[8] (r ^^^ (zext16 (bitrev8 b) <<< 8))) :=
          congrArg bitrev16 (serialFold_eq_shifts p r (bitrev8 b))
      _ = (lutShiftLsb (bitrev16 p))^[8] (bitrev16 (r ^^^ (zext16 (bitrev8 b) <<< 8))) :=
          hrev.iterate_right 8 _
      _ = (lutShiftLsb (bitrev16 p))^[8] (bitrev16 r ^^^ zext16 b) := by rw [bitrev16_xor_top]
      _ = crcStep true (lutEntry p true) (bitrev16 r) b := (crcStep_lsb p (bitrev16 r) b).symm

/-- The whole message, byte by byte. -/
theorem crcSerial_eq_foldl_crcStep (p init xorout : Word) (l : Bool) (m : List Byte) :
    Reference.crcSerial p init xorout l m = m.foldl (crcStep l (lutEntry p l)) (orient l init) ^^^ xorout := by
  rw [List.foldl_hom (orient l) fun r b => (orient_serialByte p l r b).symm]
  rfl

/-- What `CRC.CALC` leaves where the table is that of the configured polynomial (R45 (b), R126, R130). -/
theorem crcResult_calc {s : State} (hlut : ∀ i, s.lutAt i = lutEntry s.crcPoly s.lsbf i) :
    s.crcBegin.crcFeed.crcFinish.crcResult =
      Reference.crcSerial s.crcPoly s.crcInit s.crcXorout s.lsbf s.input := by
  rw [crcSerial_eq_foldl_crcStep, ← funext hlut]
  rfl

/-- Settles O41: the invariant says what the table of a configured block holds. -/
theorem crcCalcEqualsBitSerial : Obligations.CrcCalcEqualsBitSerial :=
  fun _ hs hc => ⟨_, exec_crcCalc_of_cfgd hc, crcResult_calc (hs.lut_built hc)⟩

/-! ## Runs with `IN.LOAD` (R89, R132, R133) -/

theorem runAll_append {is : List Instr} {s t : State} (h : runAll is s = some t) (js : List Instr) :
    runAll (is ++ js) s = runAll js t := by
  induction is generalizing s with
  | nil => exact congrArg (runAll js) (Option.some.inj h)
  | cons i is ih =>
    obtain ⟨u, hu, -⟩ := exec_spec i s
    rw [runAll_cons hu] at h
    rw [List.cons_append, runAll_cons hu, ih h]

/-- Bytes that fit are written in one run from `ILEN` on (R105). -/
theorem runAll_inPush_eq_writeBytes (bs : List Byte) {s : State} (hmax : s.cfg.bufsz ≤ 65535)
    (hfit : s.ilen.toNat + bs.length ≤ s.cfg.bufsz) :
    runAll (bs.map .inPush) (s.withErr eOk) = some (({ s with
      ibuf := s.ibuf.writeBytes s.ilen.toNat bs,
      ilen := BitVec.ofNat 16 (bs.length + s.ilen.toNat) } : State).withErr eOk) := by
  induction bs generalizing s with
  | nil => simp [runAll, Memory.writeBytes]
  | cons b bs ih =>
    rw [List.length_cons] at hfit
    have hpush : exec (.inPush b) (s.withErr eOk) = .next ((s.pushInput b).withErr eOk) :=
      ((exec_inPush b (s.withErr eOk)).resolve_left fun hfull => by
        rw [State.withErr_ilen, State.withErr_cfg] at hfull; omega).2
    have hilen : (s.pushInput b).ilen.toNat = s.ilen.toNat + 1 := by
      rw [State.pushInput_ilen]; bv_omega
    have hroom : (s.pushInput b).ilen.toNat + bs.length ≤ (s.pushInput b).cfg.bufsz := by
      rw [hilen, State.pushInput_cfg]; omega
    rw [List.map_cons, runAll_cons hpush, ih (s := s.pushInput b) hmax hroom, hilen, List.length_cons,
      Nat.succ_add_eq_add_succ]
    rfl

/-- `IN.LOAD` of bytes that fit is `State.withInput` (R89). -/
theorem runAll_inLoad {bs : List Byte} {s : State} (hmax : s.cfg.bufsz ≤ 65535) (hfit : bs.length ≤ s.cfg.bufsz) :
    runAll (expandLine (.inLoad bs)) s = some ((s.withInput bs).withErr eOk) :=
  (runAll_cons (exec_inClr s) _).trans
    (runAll_inPush_eq_writeBytes bs (s := { s with ilen := 0 }) hmax ((Nat.zero_add _).trans_le hfit))

/-- What loading one piece of a message and running it through the table leaves (R133). -/
def State.fedWith (s : State) (bs : List Byte) : State := (s.withInput bs).crcFeed.withErr eOk

@[simp] theorem State.fedWith_cfg (s : State) (bs : List Byte) : (s.fedWith bs).cfg = s.cfg := rfl
@[simp] theorem State.fedWith_status (s : State) (bs : List Byte) :
    (s.fedWith bs).status = { s.status with err := eOk } := rfl
@[simp] theorem State.fedWith_crcXorout (s : State) (bs : List Byte) :
    (s.fedWith bs).crcXorout = s.crcXorout := rfl
@[simp] theorem State.fedWith_withErr (s : State) (e : BitVec 8) (bs : List Byte) :
    (s.withErr e).fedWith bs = s.fedWith bs := rfl

theorem runAll_inLoad_crcUpdate {bs : List Byte} {s : State} (hc : s.status.cfgd = true) (hr : s.status.run = true)
    (hmax : s.cfg.bufsz ≤ 65535) (hfit : bs.length ≤ s.cfg.bufsz) (is : List Instr) :
    runAll (expandLine (.inLoad bs) ++ .crcUpdate :: is) s = runAll is (s.fedWith bs) := by
  rw [runAll_append (runAll_inLoad hmax hfit),
    runAll_cons (exec_crcUpdate_of_run (s := (s.withInput bs).withErr eOk) hc hr)]
  rfl

theorem runAll_inLoad_crcCalc {bs : List Byte} {s : State} (hc : s.status.cfgd = true)
    (hmax : s.cfg.bufsz ≤ 65535) (hfit : bs.length ≤ s.cfg.bufsz) :
    runAll (expandLine (.inLoad bs) ++ [.crcCalc]) s = some ((s.crcBegin.fedWith bs).crcFinish.withErr eOk) := by
  rw [runAll_append (runAll_inLoad hmax hfit),
    runAll_cons (exec_crcCalc_of_cfgd (s := (s.withInput bs).withErr eOk) hc)]
  rfl

theorem State.crcRem_fedWith {s : State} {bs : List Byte} (hw : s.ibuf.wf = true) (hl : bs.length < 65536) :
    (s.fedWith bs).crcRem = bs.foldl (crcStep s.lsbf s.lutAt) s.crcRem :=
  congrArg (List.foldl (crcStep s.lsbf s.lutAt) s.crcRem) (s.withInput_spec bs hw hl).1

theorem crcResult_fedWith {s : State} {bs : List Byte} (hlut : ∀ i, s.lutAt i = lutEntry s.crcPoly s.lsbf i)
    (hw : s.ibuf.wf = true) (hl : bs.length < 65536) :
    (s.crcBegin.fedWith bs).crcFinish.crcResult =
      Reference.crcSerial s.crcPoly s.crcInit s.crcXorout s.lsbf bs := by
  have hcalc := crcResult_calc (s := s.withInput bs) hlut
  rw [(s.withInput_spec bs hw hl).1] at hcalc
  exact hcalc

/-- The remainder alone carries a message over from one piece to the next (R133). -/
theorem State.crcRem_fedWith_fedWith {s : State} {a b : List Byte} (hw : s.ibuf.wf = true)
    (hl : (a ++ b).length < 65536) : ((s.fedWith a).fedWith b).crcRem = (s.fedWith (a ++ b)).crcRem := by
  have hlen := List.length_append (as := a) (bs := b)
  calc ((s.fedWith a).fedWith b).crcRem
      = b.foldl (crcStep s.lsbf s.lutAt) (s.fedWith a).crcRem :=
        crcRem_fedWith (s := s.fedWith a) (Memory.wf_writeBytes hw ..) (by omega)
    _ = b.foldl (crcStep s.lsbf s.lutAt) (a.foldl (crcStep s.lsbf s.lutAt) s.crcRem) := by
        rw [crcRem_fedWith hw (by omega)]
    _ = (a ++ b).foldl (crcStep s.lsbf s.lutAt) s.crcRem := List.foldl_append.symm
    _ = (s.fedWith (a ++ b)).crcRem := (crcRem_fedWith hw hl).symm

/-- A message in two pieces, each of which fits (R133). -/
theorem runAll_two_pieces {a b : List Byte} {s : State} (hc : s.status.cfgd = true) (hmax : s.cfg.bufsz ≤ 65535)
    (ha : a.length ≤ s.cfg.bufsz) (hb : b.length ≤ s.cfg.bufsz) :
    runAll (.crcStart :: (expandLine (.inLoad a) ++ .crcUpdate :: (expandLine (.inLoad b) ++
      [.crcUpdate, .crcFinal]))) s = some (((s.crcBegin.fedWith a).fedWith b).crcFinish.withErr eOk) := by
  rw [runAll_cons (exec_crcStart_of_cfgd hc),
    runAll_inLoad_crcUpdate (by simpa using hc) (by simp) (by simpa using hmax) (by simpa using ha),
    State.fedWith_withErr,
    runAll_inLoad_crcUpdate (by simpa using hc) (by simp) (by simpa using hmax) (by simpa using hb),
    runAll_cons (exec_crcFinal_of_run (by simpa using hc) (by simp)), runAll]

/-- Settles O42: both runs end with `CRC.FINAL` on the same remainder. -/
theorem crcContinuesAcrossBuffers : Obligations.CrcContinuesAcrossBuffers := by
  intro s a b hs hc hfit
  have hmax := (Config.wf_spec hs.cfg_wf).bufsz_le
  have hlen := List.length_append (as := a) (bs := b)
  have hrem : ((s.crcBegin.fedWith a).fedWith b).crcRem = (s.crcBegin.fedWith (a ++ b)).crcRem :=
    State.crcRem_fedWith_fedWith (s := s.crcBegin) hs.ibuf_wf (by omega)
  simp only [List.append_assoc, List.cons_append, List.nil_append]
  refine ⟨_, _, runAll_two_pieces hc hmax (by omega) (by omega), runAll_inLoad_crcCalc hc hmax hfit, ?_, ?_⟩
  · simp only [State.withErr_crcResult, State.crcFinish_crcResult, State.fedWith_crcXorout, hrem]
  · simp only [State.withErr_crcRem, State.crcFinish_crcRem, hrem]

/-- The nine characters "123456789" that R132 checks the presets on. -/
def checkBytes : List Byte := [0x31, 0x32, 0x33, 0x34, 0x35, 0x36, 0x37, 0x38, 0x39]

/-- The last column of the table of R128, by the bit-serial definition. -/
theorem map_crcSerial_checkBytes :
    PresetTable.standard.rows.map (fun p => Reference.crcSerial p.poly p.init p.xorout p.lsbf checkBytes) =
      [0x29B1, 0x31C3, 0x906E, 0x2189, 0x44C2, 0xB4C8] := by decide +kernel

/-- Configure by preset, load, calculate: the bit-serial CRC of the row's four values (R132). -/
theorem runAll_preset_inLoad_calc {s : State} (hs : s.Inv) {n : Byte} {p : Preset}
    (hrow : s.cfg.presets.row n = some p) {bs : List Byte} (hfit : bs.length ≤ s.cfg.bufsz) :
    ∃ t, runAll (.crcPreset n :: (expandLine (.inLoad bs) ++ [.crcCalc])) s = some t ∧
      t.crcResult = Reference.crcSerial p.poly p.init p.xorout p.lsbf bs := by
  have hmax := (Config.wf_spec hs.cfg_wf).bufsz_le
  exact ⟨_, (runAll_cons (exec_crcPreset_of_row hrow) _).trans (runAll_inLoad_crcCalc rfl hmax hfit),
    crcResult_fedWith (s := (s.configure p.poly p.init p.xorout p.lsbf).withErr eOk)
      (State.lutAt_configure s hs.cfg_wf p.poly p.init p.xorout p.lsbf) hs.ibuf_wf (by omega)⟩

/-- Settles O43: `map_crcSerial_checkBytes` at the place of the row. -/
theorem presetsGiveKnownAnswers : Obligations.PresetsGiveKnownAnswers := by
  intro s n hs hstd hfit hn
  have hrow := s.cfg.presets.row_of_lt hn
  obtain ⟨t, ht, hres⟩ := runAll_preset_inLoad_calc hs hrow (bs := checkBytes) hfit
  refine ⟨t, ht, ?_⟩
  rw [hres, ← map_crcSerial_checkBytes, List.getElem?_map, ← hstd, ← PresetTable.row_eq_getElem?, hrow]
  rfl

end Sys2Proof.Machine

/-! # The HDLC unit (42_hdlc.md R150 to R156)

The stuffer and the destuffer are the loops of R151 and R152: each loop is carried along the list of bits it has
yet to take. The round trip rests on the stuffed frame having no six ones in a row, so that its first byte is
not the flag. -/

namespace Sys2Proof.Machine

/-! ## Bit sequences and their bytes (R11, R150) -/

/-- A bit sequence is taken eight bits at a time, until fewer are left. -/
theorem bits_induction {P : List Bool → Prop} (short : ∀ l, l.length < 8 → P l)
    (eight : ∀ l t, l.length = 8 → P t → P (l ++ t)) (bits : List Bool) : P bits := by
  induction h : bits.length using Nat.strong_induction_on generalizing bits with
  | _ n ih =>
    rcases Nat.lt_or_ge n 8 with hn | hn
    · exact short bits (h.trans_lt hn)
    · rw [← List.take_append_drop 8 bits]
      exact eight _ _ (by rw [List.length_take]; omega)
        (ih (n - 8) (by omega) _ (by rw [List.length_drop, h]))

theorem lsbits_ofBitsLE {l : List Bool} (h : l.length = 8) : lsbits (ofBitsLE 8 l) = l := by
  match l, h with
  | [_, _, _, _, _, _, _, _], _ => simp only [lsbits, getLsbD_ofBitsLE, Nat.reduceLT]; rfl

/-- `bitsOf` undoes `packlsb` on whole bytes (R11). -/
theorem bitsOf_packlsb (bits : List Bool) : bits.length % 8 = 0 → bitsOf (packlsb bits) = bits := by
  induction bits using bits_induction with
  | short l hl =>
    intro h
    obtain rfl : l = [] := List.eq_nil_of_length_eq_zero (by omega)
    rfl
  | eight l t hl ih =>
    intro h
    rw [List.length_append] at h
    rw [packlsb_eight l t hl, bitsOf_cons, lsbits_ofBitsLE hl, ih (by omega)]

/-- Bit `i` of a bit sequence is bit `i mod 8` of byte `i div 8` (R150). -/
theorem getElem?_bitsOf (data : List Byte) (i : Nat) (h : i < 8 * data.length) :
    (bitsOf data)[i]? = some ((data.getD (i / 8) 0).getLsbD (i % 8)) := by
  induction data generalizing i with
  | nil => simp at h
  | cons b t ih =>
    rw [bitsOf_cons]
    rcases Nat.lt_or_ge i 8 with hi | hi
    · rw [List.getElem?_append_left hi]
      interval_cases i <;> rfl
    · obtain ⟨k, rfl⟩ := Nat.exists_eq_add_of_le' hi
      rw [List.getElem?_append_right hi, length_lsbits, Nat.add_sub_cancel,
        ih k (by rw [List.length_cons] at h; omega), Nat.add_div_right k (by decide), Nat.add_mod_right]
      rfl

theorem drop_bitsOf (data : List Byte) (p : Nat) : (bitsOf data).drop (8 * p) = bitsOf (data.drop p) := by
  induction p generalizing data with
  | zero => rfl
  | succ n ih =>
    cases data with
    | nil => simp
    | cons b t =>
      rw [Nat.mul_succ, Nat.add_comm, ← List.drop_drop, bitsOf_cons, List.drop_left' (length_lsbits b)]
      exact ih t

theorem flagBits_eq_bitsOf (fc : Nat) (fb : Byte) : flagBits fc fb = bitsOf (List.replicate fc fb) := by
  rw [flagBits, bitsOf, List.flatMap_replicate]

/-! ## The stuffer's loops (R151) -/

/-- The loop over the frame's bits appends what `stuffBits` gives, and counts ones as `runAfter` does. -/
theorem foldl_stuffStep (bits : List Bool) (v : Reference.StuffLoop) : bits.foldl Reference.stuffStep v =
    { bits := v.bits ++ stuffBits 5 v.run bits, run := bits.foldl (runAfter 5) v.run } := by
  induction bits generalizing v with
  | nil => simp [stuffBits]
  | cons b t ih =>
    rw [List.foldl_cons, ih]
    cases b with
    | false => simp [Reference.stuffStep, stuffBits, runAfter]
    | true => by_cases h : v.run + 1 = 5 <;> simp [Reference.stuffStep, stuffBits, runAfter, h]

/-- The two loops over bytes and bit numbers are one over the bit sequence. -/
theorem foldl_stuffStep_bytes (data : List Byte) (v : Reference.StuffLoop) :
    data.foldl (fun v b => (List.range 8).foldl (fun v j => Reference.stuffStep v (b.getLsbD j)) v) v =
      (bitsOf data).foldl Reference.stuffStep v := by
  rw [bitsOf, List.foldl_flatMap]
  rfl

theorem foldl_append_flag (fc : Nat) (fb : Byte) (bits : List Bool) :
    (List.range fc).foldl (fun bits _ => bits ++ lsbits fb) bits = bits ++ flagBits fc fb := by
  induction fc with
  | zero => simp [flagBits]
  | succ n ih =>
    rw [List.range_succ, List.foldl_append, ih, flagBits, flagBits, List.replicate_succ', List.flatten_concat,
      ← List.append_assoc]
    rfl

/-- Enough turns of the padding loop reach the next byte boundary. -/
theorem padLoop_eq_padBits (pad : Bool) (fuel : Nat) (bits : List Bool)
    (h : 8 * ceil8 bits.length - bits.length ≤ fuel) :
    Reference.padLoop pad fuel bits = padBits pad bits := by
  induction fuel generalizing bits with
  | zero => simp [Reference.padLoop, padBits, Nat.le_zero.1 h]
  | succ n ih =>
    rw [Reference.padLoop]
    split
    case isTrue hz =>
      have hpad : 8 * ceil8 bits.length - bits.length = 0 := by unfold ceil8; omega
      simp [padBits, hpad]
    case isFalse hz =>
      have hceil : ceil8 (bits.length + 1) = ceil8 bits.length := by unfold ceil8; omega
      have hpad : 8 * ceil8 bits.length - bits.length = 8 * ceil8 bits.length - (bits.length + 1) + 1 := by
        unfold ceil8; omega
      rw [ih _ (by rw [List.length_append, List.length_singleton, hceil]; omega), padBits, padBits,
        List.length_append, List.length_singleton, hceil, hpad, List.replicate_succ, List.append_assoc,
        List.singleton_append]

theorem byteAt_append_zero {l : List Bool} (t : List Bool) (h : l.length = 8) :
    Reference.byteAt (l ++ t) 0 = ofBitsLE 8 l := by
  match l, h with
  | [_, _, _, _, _, _, _, _], _ => rfl

theorem byteAt_append_succ {l : List Bool} (t : List Bool) (h : l.length = 8) (m : Nat) :
    Reference.byteAt (l ++ t) (m + 1) = Reference.byteAt t m := by
  refine congrArg (ofBitsLE 8) (List.map_congr_left fun j _ => ?_)
  rw [List.getD_append_right _ _ _ _ (by omega)]
  congr 1
  omega

/-- `packlsb` byte by byte (R11). -/
theorem map_byteAt_eq_packlsb (bits : List Bool) :
    (List.range (bits.length / 8)).map (Reference.byteAt bits) = packlsb bits := by
  induction bits using bits_induction with
  | short l hl => rw [packlsb_short hl, Nat.div_eq_of_lt hl]; rfl
  | eight l t hl ih =>
    have hlen : (l ++ t).length / 8 = t.length / 8 + 1 := by rw [List.length_append]; omega
    rw [packlsb_eight l t hl, ← ih, hlen, List.range_succ_eq_map, List.map_cons, List.map_map,
      byteAt_append_zero t hl]
    exact congrArg _ (List.map_congr_left fun m _ => byteAt_append_succ t hl m)

/-- The stuffer is R151's loops. -/
theorem reference_hdlcStuff {c : Config} (hrun : c.hdlcRun = 5) (fc : Nat) (fb : Byte) (data : List Byte) :
    Reference.hdlcStuff c.hdlcPad fc fb data = hdlcStuff c fc fb data := by
  simp only [Reference.hdlcStuff, foldl_append_flag, foldl_stuffStep_bytes, foldl_stuffStep, List.nil_append]
  rw [padLoop_eq_padBits _ _ _ (by unfold ceil8; omega), map_byteAt_eq_packlsb, hdlcStuff, hrun]

/-- Only `OBUF` and `OLEN` matter to what was put out. -/
theorem WroteOutput.congr {s t u : State} {out : List Byte} (h : WroteOutput s t out) (hobuf : u.obuf = t.obuf)
    (holen : u.olen = t.olen) : WroteOutput s u out := by
  obtain ⟨hlen, hout, habove⟩ := h
  exact ⟨holen ▸ hlen, (State.output_congr hobuf holen).trans hout, fun a ha => hobuf ▸ habove a ha⟩

theorem WroteOutput.output_eq {s t u : State} {out : List Byte} (h : WroteOutput s t out)
    (hobuf : u.obuf = t.obuf) (holen : u.olen = t.olen) : u.output = out := (h.congr hobuf holen).2.1

theorem exec_hdlcStuff_of_le {s : State} {fc fb : Byte}
    (h : (hdlcStuff s.cfg fc.toNat fb s.input).length ≤ s.cfg.bufsz) : exec (.hdlcStuff fc fb) s =
      .next ((s.withOutput (hdlcStuff s.cfg fc.toNat fb s.input)).withErr eOk) :=
  ((exec_hdlcStuff fc fb s).resolve_left fun hovf => h.not_gt hovf.1).2

/-- Settles O44: `reference_hdlcStuff`, and the two ways `HDLC.STUFF` can end. -/
theorem hdlcStuffFollowsItsLoops : Obligations.HdlcStuffFollowsItsLoops := by
  intro s fc fb hs
  have hc := Config.wf_spec hs.cfg_wf
  simp only [reference_hdlcStuff hc.hdlcRun]
  refine ⟨decode_encode (.hdlcStuff fc fb), fun hovf => ?_, fun hfit => ?_⟩
  · exact ((exec_hdlcStuff fc fb s).resolve_right fun h => hovf.not_ge h.1).2
  · exact ⟨_, exec_hdlcStuff_of_le hfit,
      (s.withOutput_wrote _ hs.obuf_wf (hfit.trans_lt (Nat.lt_succ_of_le hc.bufsz_le))).congr rfl rfl, rfl⟩

/-! ## The destuffer's loop (R152) -/

/-- Dropping leading bytes one at a time stops where `takeWhile` does. -/
theorem skipLoop_eq (x : Byte) (data : List Byte) (fuel p : Nat) (h : data.length ≤ p + fuel) :
    Reference.skipLoop x data fuel p = p + ((data.drop p).takeWhile (· == x)).length := by
  induction fuel generalizing p with
  | zero => rw [Nat.add_zero] at h; rw [List.drop_eq_nil_of_le h]; rfl
  | succ n ih =>
    rw [Reference.skipLoop]
    rcases Nat.lt_or_ge p data.length with hp | hp
    · rw [List.drop_eq_getElem_cons hp, List.takeWhile_cons, List.getD_eq_getElem _ _ hp]
      by_cases hx : data[p] = x
      · rw [if_pos ⟨hp, hx⟩, ih (p + 1) (by omega), if_pos (beq_iff_eq.2 hx), List.length_cons]
        omega
      · rw [if_neg fun h => hx h.2, if_neg (by simpa using hx)]
        rfl
    · rw [if_neg fun h => hp.not_gt h.1, List.drop_eq_nil_of_le hp]
      rfl

/-- `w` is what the loop leaves when it stands at `v` and `unstuffBits` gives `r` on the bits it has yet to
take. -/
structure UnstuffGoesOn (v w : Reference.UnstuffLoop) (r : Unstuffed) : Prop where
  out : w.out = v.out ++ r.out
  eof : w.eof = r.eof
  n   : w.n = r.resid
  pos : w.pos = v.pos + r.used

namespace UnstuffGoesOn

variable {v v' w : Reference.UnstuffLoop} {r : Unstuffed}

theorem lookedAt (h : UnstuffGoesOn v' w r) (hout : v'.out = v.out) (hpos : v'.pos = v.pos + 1) :
    UnstuffGoesOn v w (lookedAt r) where
  out := by rw [h.out, hout]; rfl
  eof := h.eof
  n   := h.n
  pos := by rw [h.pos, hpos, Nat.add_assoc, Nat.add_comm 1]; rfl

theorem decodedByte {b : Byte} (h : UnstuffGoesOn v' w r) (hout : v'.out = v.out ++ [b])
    (hpos : v'.pos = v.pos + 1) : UnstuffGoesOn v w (decodedByte b r) where
  out := by rw [h.out, hout, List.append_assoc]; rfl
  eof := h.eof
  n   := h.n
  pos := by rw [h.pos, hpos, Nat.add_assoc, Nat.add_comm 1]; rfl

end UnstuffGoesOn

/-- The loop does nothing after its end. -/
theorem unstuffLoop_stop {fb : Byte} {data : List Byte} {v : Reference.UnstuffLoop}
    (h : ¬ (v.pos < 8 * data.length ∧ v.eof = false)) (fuel : Nat) :
    Reference.unstuffLoop fb data fuel v = v := by
  cases fuel with
  | zero => rfl
  | succ n => exact if_neg h

/-- The loop follows `unstuffBits` along the bits from its position on. -/
theorem unstuffLoop_goesOn (fb : Byte) (data : List Byte) (bits : List Bool) (v : Reference.UnstuffLoop)
    (fuel : Nat) (hbits : (bitsOf data).drop v.pos = bits) (hfuel : bits.length ≤ fuel)
    (heof : v.eof = false) :
    UnstuffGoesOn v (Reference.unstuffLoop fb data fuel v) (unstuffBits 5 fb bits v.run v.n v.acc) := by
  induction bits generalizing v fuel with
  | nil =>
    have hend : 8 * data.length ≤ v.pos := by rwa [List.drop_eq_nil_iff, length_bitsOf] at hbits
    rw [unstuffLoop_stop fun h => hend.not_gt h.1]
    exact ⟨(List.append_nil _).symm, heof, rfl, rfl⟩
  | cons b t ih =>
    obtain ⟨m, rfl⟩ := Nat.exists_eq_add_of_le' (Nat.one_le_of_lt hfuel)
    have hm : t.length ≤ m := Nat.le_of_succ_le_succ hfuel
    have ht : (bitsOf data).drop (v.pos + 1) = t := by rw [← List.tail_drop, hbits]; rfl
    have hpos : v.pos < 8 * data.length := by
      refine Nat.not_le.1 fun hend => List.cons_ne_nil b t ?_
      rw [← hbits, List.drop_eq_nil_iff, length_bitsOf]
      exact hend
    have hbit : (data.getD (v.pos / 8) 0).getLsbD (v.pos % 8) = b := by
      rw [← Option.some_inj, ← getElem?_bitsOf data v.pos hpos, ← List.head?_drop, hbits, List.head?_cons]
    rw [Reference.unstuffLoop, if_pos ⟨hpos, heof⟩, Reference.unstuffStep, hbit, unstuffBits]
    by_cases hzero : b = false ∧ v.run = 5
    · rw [if_pos hzero, if_pos hzero]
      exact UnstuffGoesOn.lookedAt (ih _ m ht hm heof) rfl rfl
    · rw [if_neg hzero, if_neg hzero]
      by_cases hbyte : v.n + 1 = 8
      · by_cases hflag : setBit v.acc v.n b = fb
        · simp only [hbyte, hflag, if_true]
          rw [unstuffLoop_stop (by simp)]
          exact ⟨(List.append_nil _).symm, rfl, rfl, rfl⟩
        · simp only [hbyte, hflag, if_true, if_false]
          exact UnstuffGoesOn.decodedByte (ih _ m ht hm heof) rfl rfl
      · simp only [hbyte, if_false]
        exact UnstuffGoesOn.lookedAt (ih _ m ht hm heof) rfl rfl

/-- The destuffer is R152's loop. -/
theorem reference_hdlcUnstuff {c : Config} (hrun : c.hdlcRun = 5) (fb : Byte) (data : List Byte) :
    (Reference.hdlcUnstuff fb data).out = (hdlcUnstuff c fb data).out ∧
    (Reference.hdlcUnstuff fb data).eof = (hdlcUnstuff c fb data).eof ∧
    (Reference.hdlcUnstuff fb data).n = (hdlcUnstuff c fb data).resid ∧
    (Reference.hdlcUnstuff fb data).pos = (hdlcUnstuff c fb data).used := by
  have hskip := skipLoop_eq fb data data.length 0 (Nat.le_add_left ..)
  rw [Nat.zero_add, List.drop_zero] at hskip
  rw [Reference.hdlcUnstuff, hdlcUnstuff, hrun, ← hskip]
  generalize Reference.skipLoop fb data data.length 0 = p
  obtain ⟨hout, heof, hn, hpos⟩ := unstuffLoop_goesOn fb data (bitsOf (data.drop p))
    { pos := 8 * p, run := 0, acc := 0, n := 0, out := [], eof := false } (8 * data.length)
    (drop_bitsOf data p) (by rw [length_bitsOf, List.length_drop]; omega) rfl
  exact ⟨hout, heof, hn, hpos⟩

/-- Settles O45: `reference_hdlcUnstuff`, and by `hdlcUnstuff_bounded` the registers hold what was counted. -/
theorem hdlcUnstuffFollowsItsLoop : Obligations.HdlcUnstuffFollowsItsLoop := by
  intro s fb hs
  obtain ⟨hout, heof, hn, hpos⟩ := reference_hdlcUnstuff (Config.wf_spec hs.cfg_wf).hdlcRun fb s.input
  obtain ⟨hlen, hused, hresid, -⟩ := hdlcUnstuff_bounded s.cfg fb s.input
  have hexec := exec_hdlcUnstuff fb s
  have hlt := s.length_input_lt
  generalize hdlcUnstuff s.cfg fb s.input = r at *
  refine ⟨decode_encode (.hdlcUnstuff fb), _, hexec, ?_, ?_, ?_, ?_⟩
  · rw [hout]
    exact (s.withOutput_wrote _ hs.obuf_wf (hlen.trans_lt hlt)).congr rfl rfl
  · rw [hn]
    exact (BitVec.toNat_ofNat ..).trans (Nat.mod_eq_of_lt hresid)
  · rw [hpos]
    exact (BitVec.toNat_ofNat ..).trans (Nat.mod_eq_of_lt (by unfold ceil8; omega))
  · rw [heof]
    rfl

/-! ## The stuffed frame (R153, R155) -/

/-- Each stuffed zero stands after `ones` ones of its own (R153). -/
theorem length_stuffBits (ones : Nat) (bits : List Bool) (run : Nat) (hr : run < ones) :
    ∃ zeros, (stuffBits ones run bits).length = bits.length + zeros ∧
      ones * zeros ≤ run + bits.length := by
  induction bits generalizing run with
  | nil => exact ⟨0, rfl, Nat.zero_le _⟩
  | cons b t ih =>
    cases b with
    | false =>
      obtain ⟨z, hlen, hle⟩ := ih 0 (by omega)
      exact ⟨z, by simp only [stuffBits, List.length_cons]; omega, by simp only [List.length_cons]; omega⟩
    | true =>
      by_cases h : run + 1 = ones
      · obtain ⟨z, hlen, hle⟩ := ih 0 (by omega)
        exact ⟨z + 1, by simp only [stuffBits, h, if_true, List.length_cons]; omega,
          by rw [Nat.mul_succ, List.length_cons]; omega⟩
      · obtain ⟨z, hlen, hle⟩ := ih (run + 1) (by omega)
        exact ⟨z, by simp only [stuffBits, h, if_false, List.length_cons]; omega,
          by rw [List.length_cons]; omega⟩

/-- The bound of R153 is reached by ones alone. -/
theorem length_stuffBits_replicate (ones n run : Nat) (hr : run < ones) :
    (stuffBits ones run (List.replicate n true)).length = n + (run + n) / ones := by
  induction n generalizing run with
  | zero => rw [Nat.add_zero, Nat.div_eq_of_lt hr]; rfl
  | succ n ih =>
    rw [List.replicate_succ, stuffBits]
    split
    case isTrue h =>
      have hdiv : (run + (n + 1)) / ones = n / ones + 1 := by
        rw [← Nat.add_div_right n (by omega), ← h]; congr 1; omega
      rw [List.length_cons, List.length_cons, ih 0 (by omega), hdiv, Nat.zero_add]
      omega
    case isFalse h =>
      rw [List.length_cons, ih (run + 1) (by omega), Nat.add_assoc run, Nat.add_comm 1]
      omega

theorem bitsOf_eq_replicate {data : List Byte} (h : ∀ b ∈ data, b = 0xFF) :
    bitsOf data = List.replicate (8 * data.length) true := by
  rw [List.eq_replicate_iff.2 ⟨rfl, h⟩, ← flagBits_eq_bitsOf, List.length_replicate, Nat.mul_comm]
  exact List.flatten_replicate_replicate (m := 8)

/-- Settles O46, from the stuffed frame's length. -/
theorem stuffedLength : Obligations.StuffedLength := by
  intro c fc fb data hc
  rw [length_hdlcStuff, (Config.wf_spec hc).hdlcRun]
  obtain ⟨zeros, hlen, hle⟩ := length_stuffBits 5 (bitsOf data) 0 (by decide)
  rw [length_bitsOf] at hlen hle
  refine ⟨zeros, hlen, by rw [hlen, ceil8]; omega, by omega, fun hall => ?_⟩
  rw [bitsOf_eq_replicate hall, length_stuffBits_replicate 5 _ 0 (by decide)] at hlen
  omega

/-- There are never `m` ones in a row. -/
def NoRunOfOnes (m : Nat) (bits : List Bool) : Prop := ∀ k, ¬ ∀ j, j < m → bits[k + j]? = some true

/-- Fewer than `m` ones and a zero in front make no `m` ones in a row. -/
theorem NoRunOfOnes.replicate_append {m run : Nat} (hr : run < m) {bits : List Bool} (h : NoRunOfOnes m bits) :
    NoRunOfOnes m (List.replicate run true ++ false :: bits) := by
  intro k hk
  rcases Nat.lt_or_ge run k with hlt | hge
  · refine h (k - (run + 1)) fun j hj => ?_
    have hbit := hk j hj
    rwa [List.getElem?_append_right (by rw [List.length_replicate]; omega), List.length_replicate,
      show k + j - run = k - (run + 1) + j + 1 by omega, List.getElem?_cons_succ] at hbit
  · have hzero := hk (run - k) (by omega)
    rw [Nat.add_sub_cancel' hge, List.getElem?_append_right List.length_replicate.le, List.length_replicate,
      Nat.sub_self] at hzero
    cases hzero

/-- Behind the `run` ones it has counted, the stuffer never completes one more than `ones` in a row (R155). -/
theorem noRunOfOnes_stuffBits (ones : Nat) (bits : List Bool) (run : Nat) (hr : run < ones) :
    NoRunOfOnes (ones + 1) (List.replicate run true ++ stuffBits ones run bits) := by
  induction bits generalizing run with
  | nil =>
    intro k hk
    have hlast := hk ones (Nat.lt_succ_self _)
    rw [stuffBits, List.append_nil, List.getElem?_eq_none (by rw [List.length_replicate]; omega)] at hlast
    cases hlast
  | cons b t ih =>
    cases b with
    | false => exact (ih 0 (by omega)).replicate_append (by omega)
    | true =>
      rw [stuffBits]
      split
      case isTrue h =>
        have h0 := (ih 0 (by omega)).replicate_append (show run + 1 < ones + 1 by omega)
        rwa [List.replicate_succ', List.append_assoc] at h0
      case isFalse h =>
        have h1 := ih (run + 1) (by omega)
        rwa [List.replicate_succ', List.append_assoc] at h1

/-- Settles O47: `noRunOfOnes_stuffBits` at the start of the frame. -/
theorem stuffedFrameHasNoSixOnes : Obligations.StuffedFrameHasNoSixOnes := by
  intro c data k hc
  rw [(Config.wf_spec hc).hdlcRun]
  exact noRunOfOnes_stuffBits 5 (bitsOf data) 0 (by decide) k

/-! ## The round trip (R154) -/

theorem padBits_bitsOf_append (pad : Bool) (data : List Byte) (bits : List Bool) :
    padBits pad (bitsOf data ++ bits) = bitsOf data ++ padBits pad bits := by
  have hpad : 8 * ceil8 (bitsOf data ++ bits).length - (bitsOf data ++ bits).length =
      8 * ceil8 bits.length - bits.length := by
    rw [List.length_append, length_bitsOf]; unfold ceil8; omega
  rw [padBits, padBits, hpad, List.append_assoc]

/-- The leading flags are whole bytes of the result (R151 (e)). -/
theorem hdlcStuff_eq_flags_append (c : Config) (fc : Nat) (fb : Byte) (data : List Byte) :
    hdlcStuff c fc fb data = List.replicate fc fb ++
      packlsb (padBits c.hdlcPad (stuffBits c.hdlcRun 0 (bitsOf data) ++ flagBits fc fb)) := by
  rw [hdlcStuff, List.append_assoc, flagBits_eq_bitsOf, padBits_bitsOf_append, packlsb_bitsOf_append]

theorem hdlcStuff_nil (c : Config) (fc : Nat) (fb : Byte) :
    hdlcStuff c fc fb [] = List.replicate (fc + fc) fb := by
  have hpad := padBits_bitsOf_append c.hdlcPad (List.replicate fc fb) []
  rw [List.append_nil] at hpad
  rw [hdlcStuff_eq_flags_append, flagBits_eq_bitsOf, bitsOf_nil, stuffBits, List.nil_append, hpad,
    packlsb_bitsOf_append, List.replicate_add]
  exact congrArg _ (List.append_nil _)

/-- Leading flags are dropped, and nothing else is if the byte after them is no flag (R152 (a)). -/
theorem report_hdlcUnstuff_flags_append (c : Config) (fc : Nat) {fb : Byte} {data : List Byte}
    (h : data.head? ≠ some fb) : (hdlcUnstuff c fb (List.replicate fc fb ++ data)).report =
      (unstuffBits c.hdlcRun fb (bitsOf data) 0 0 0).report := by
  have hdata : data.takeWhile (· == fb) = [] := by
    cases data with
    | nil => rfl
    | cons b t => exact List.takeWhile_cons_of_neg fun hb => h (congrArg some (beq_iff_eq.1 hb))
  have hflags : (List.replicate fc fb ++ data).takeWhile (· == fb) = List.replicate fc fb := by
    rw [List.takeWhile_append_of_pos fun b hb => beq_iff_eq.2 (List.eq_of_mem_replicate hb), hdata,
      List.append_nil]
  rw [hdlcUnstuff, hflags, List.drop_left]
  rfl

/-- A byte 0x7E has six ones in a row, so bits that have not do not start with it. -/
theorem head?_ne_flag {data : List Byte} {bits tail : List Bool} (h : bitsOf data = bits ++ tail)
    (hlen : 8 ≤ bits.length) (hones : NoRunOfOnes 6 bits) : data.head? ≠ some 0x7E := by
  intro hhead
  obtain ⟨t, rfl⟩ := List.head?_eq_some_iff.1 hhead
  refine hones 1 fun j hj => ?_
  rw [← List.getElem?_append_left (l₂ := tail) (by omega), ← h, bitsOf_cons,
    List.getElem?_append_left (by rw [length_lsbits]; omega)]
  interval_cases j <;> rfl

theorem Unstuffed.report_eq_iff {r : Unstuffed} {out : List Byte} {eof : Bool} {n : Nat} :
    r.report = (out, eof, n) ↔ r.out = out ∧ r.eof = eof ∧ r.resid = n := by
  simp [report]

/-- What the destuffer gives from a frame's bits: the bytes up to the first flag, and `EOF` if there is one or
what follows the frame ends it. -/
theorem collect_bitsOf {ones : Nat} {fb : Byte} {k : Nat → Nat → Byte → Unstuffed} {ended : Bool}
    (hk : ∀ run, run < ones → (k run 0 0).out = [] ∧ (k run 0 0).eof = ended) (data : List Byte)
    {run : Nat} (hr : run < ones) :
    (collect ones fb k (bitsOf data) run 0 0).out = data.takeWhile (· != fb) ∧
    (collect ones fb k (bitsOf data) run 0 0).eof = (data.contains fb || ended) := by
  induction data generalizing run with
  | nil => exact hk run hr
  | cons b t ih =>
    obtain ⟨run', hr', hbyte⟩ := collect_byte ones fb k b (bitsOf t) run hr
    obtain ⟨hout, heof⟩ := ih hr'
    rw [bitsOf_cons]
    by_cases hb : b = fb
    · rw [if_pos hb] at hbyte
      obtain ⟨hout', heof', -⟩ := Unstuffed.report_eq_iff.1 hbyte
      exact ⟨hout'.trans (by simp [hb]), heof'.trans (by simp [hb])⟩
    · rw [if_neg hb, hout, heof] at hbyte
      obtain ⟨hout', heof', -⟩ := Unstuffed.report_eq_iff.1 hbyte
      exact ⟨hout'.trans (by simp [hb]), heof'.trans (by simp [Ne.symm hb])⟩

/-- Too few bits for a byte give no byte and no end of frame. -/
theorem unstuffBits_of_short (ones : Nat) (fb : Byte) (bits : List Bool) {n : Nat} (h : n + bits.length < 8)
    (run : Nat) (acc : Byte) :
    (unstuffBits ones fb bits run n acc).out = [] ∧ (unstuffBits ones fb bits run n acc).eof = false := by
  induction bits generalizing n run acc with
  | nil => exact ⟨rfl, rfl⟩
  | cons b t ih =>
    rw [List.length_cons] at h
    rw [unstuffBits]
    split
    case isTrue => exact ih (by omega) 0 acc
    case isFalse =>
      simp only [show n + 1 ≠ 8 by omega, if_false]
      exact ih (by omega) _ _

/-- A flag after a frame ends it: its six ones stand after a zero that is not a stuffed one (R152 (b)). -/
theorem unstuffBits_flag {run : Nat} (hr : run < 5) (tail : List Bool) :
    (unstuffBits 5 0x7E (lsbits 0x7E ++ tail) run 0 0).out = [] ∧
    (unstuffBits 5 0x7E (lsbits 0x7E ++ tail) run 0 0).eof = true := by
  have hbits : lsbits 0x7E = [false, true, true, true, true, true, true, false] := rfl
  have hzero : ¬ (false = false ∧ run = 5) := fun h => hr.ne h.2
  rw [hbits, List.cons_append, unstuffBits, if_neg hzero]
  exact ⟨rfl, rfl⟩

/-- What follows a stuffed frame ends it if there is a flag, and gives no byte. -/
theorem unstuffBits_trailer {run pads : Nat} (hr : run < 5) (hp : pads < 8) (fc : Nat) (pad : Bool) :
    (unstuffBits 5 0x7E (flagBits fc 0x7E ++ List.replicate pads pad) run 0 0).out = [] ∧
    (unstuffBits 5 0x7E (flagBits fc 0x7E ++ List.replicate pads pad) run 0 0).eof = (fc != 0) := by
  cases fc with
  | zero => exact unstuffBits_of_short 5 0x7E _ (by simpa [flagBits] using hp) run 0
  | succ n =>
    rw [flagBits, List.replicate_succ, List.flatten_cons, List.append_assoc]
    exact unstuffBits_flag hr _

theorem bitsOf_packlsb_padBits (pad : Bool) (bits : List Bool) :
    ∃ pads, pads < 8 ∧ bitsOf (packlsb (padBits pad bits)) = bits ++ List.replicate pads pad :=
  ⟨8 * ceil8 bits.length - bits.length, by unfold ceil8; omega,
    bitsOf_packlsb _ (by rw [length_padBits, Nat.mul_mod_right])⟩

/-- The destuffer of a stuffed frame reports what it would of the frame's own bits and the trailing flags. -/
theorem report_hdlcUnstuff_hdlcStuff {c : Config} (hrun : c.hdlcRun = 5) (fc : Nat) {data : List Byte}
    (hdata : data ≠ []) : ∃ pads, pads < 8 ∧ (hdlcUnstuff c 0x7E (hdlcStuff c fc 0x7E data)).report =
      (collect 5 0x7E (fun run n acc =>
        unstuffBits 5 0x7E (flagBits fc 0x7E ++ List.replicate pads c.hdlcPad) run n acc)
        (bitsOf data) 0 0 0).report := by
  have hones := noRunOfOnes_stuffBits 5 (bitsOf data) 0 (by decide)
  obtain ⟨zeros, hlen, -⟩ := length_stuffBits 5 (bitsOf data) 0 (by decide)
  obtain ⟨pads, hpads, hrest⟩ :=
    bitsOf_packlsb_padBits c.hdlcPad (stuffBits 5 0 (bitsOf data) ++ flagBits fc 0x7E)
  rw [List.append_assoc] at hrest
  have hframe : 8 ≤ (stuffBits 5 0 (bitsOf data)).length := by
    have hpos := List.length_pos_iff.2 hdata
    rw [hlen, length_bitsOf]
    omega
  refine ⟨pads, hpads, ?_⟩
  rw [hdlcStuff_eq_flags_append, hrun, report_hdlcUnstuff_flags_append c fc (head?_ne_flag hrest hframe hones),
    hrest, hrun]
  exact unstuffBits_stuffBits 5 0x7E _ _ 0 0 0 (by decide)

/-- What destuffing makes of a stuffed frame with the flag 0x7E (R154, R156). -/
theorem hdlcUnstuff_hdlcStuff {c : Config} (hrun : c.hdlcRun = 5) (fc : Nat) (data : List Byte) :
    (hdlcUnstuff c 0x7E (hdlcStuff c fc 0x7E data)).out = data.takeWhile (· != 0x7E) ∧
    (hdlcUnstuff c 0x7E (hdlcStuff c fc 0x7E data)).eof =
      (data.contains 0x7E || fc != 0 && data != []) := by
  rcases eq_or_ne data [] with rfl | hdata
  · have hreport := report_hdlcUnstuff_flags_append c (fc + fc) (fb := 0x7E) (data := []) nofun
    rw [List.append_nil, ← hdlcStuff_nil] at hreport
    obtain ⟨hout, heof, -⟩ := Unstuffed.report_eq_iff.1 hreport
    exact ⟨hout, heof.trans (Bool.and_false _).symm⟩
  · obtain ⟨pads, hpads, hreport⟩ := report_hdlcUnstuff_hdlcStuff hrun fc hdata
    obtain ⟨hout, heof⟩ := collect_bitsOf
      (fun run hr => unstuffBits_trailer hr hpads fc c.hdlcPad) data (run := 0) (by decide)
    obtain ⟨hout', heof', -⟩ := Unstuffed.report_eq_iff.1 hreport
    exact ⟨hout'.trans hout, by rw [heof', heof, bne_iff_ne.2 hdata, Bool.and_true]⟩

/-! ## The commands one after the other (R154, R156) -/

/-- `HDLC.STUFF` of input whose stuffed form fits. -/
theorem runAll_hdlcStuff {s : State} {fc fb : Byte} (ho : s.obuf.wf = true) (hmax : s.cfg.bufsz ≤ 65535)
    (hfit : (hdlcStuff s.cfg fc.toNat fb s.input).length ≤ s.cfg.bufsz) :
    ∃ t, runAll [.hdlcStuff fc fb] s = some t ∧ t.output = hdlcStuff s.cfg fc.toNat fb s.input ∧
      t.cfg = s.cfg ∧ t.ibuf = s.ibuf ∧ t.obuf.wf = true :=
  ⟨_, runAll_cons (exec_hdlcStuff_of_le hfit) [],
    (s.withOutput_wrote _ ho (by omega)).output_eq rfl rfl, rfl, rfl, Memory.wf_writeBytes ho ..⟩

/-- `HDLC.UNSTUFF` of the result before it. -/
theorem runAll_xfer_hdlcUnstuff {s : State} (hi : s.ibuf.wf = true) (ho : s.obuf.wf = true) (fb : Byte) :
    ∃ t, runAll [.xfer, .hdlcUnstuff fb] s = some t ∧ t.output = (hdlcUnstuff s.cfg fb s.output).out ∧
      t.status.eof = (hdlcUnstuff s.cfg fb s.output).eof := by
  have hlt : s.output.length < 65536 := s.length_output.trans_lt s.olen.isLt
  have hin : ((s.withInput s.output).withErr eOk).input = s.output := (s.withInput_spec s.output hi hlt).1
  have hlen := (hdlcUnstuff_bounded s.cfg fb s.output).1.trans_lt hlt
  rw [runAll_cons (exec_xfer s), runAll_cons (exec_hdlcUnstuff fb _), hin]
  have hwrote := State.withOutput_wrote ((s.withInput s.output).withErr eOk) _ ho hlen
  exact ⟨_, rfl, hwrote.output_eq rfl rfl, rfl⟩

/-- Stuffed and destuffed through the two buffers with the flag 0x7E. -/
theorem runAll_hdlcStuff_xfer_hdlcUnstuff {s : State} {fc : Byte} (hc : s.cfg.wf = true)
    (hi : s.ibuf.wf = true) (ho : s.obuf.wf = true)
    (hfit : (hdlcStuff s.cfg fc.toNat 0x7E s.input).length ≤ s.cfg.bufsz) :
    ∃ t u, runAll [.hdlcStuff fc 0x7E] s = some t ∧ t.output = hdlcStuff s.cfg fc.toNat 0x7E s.input ∧
      runAll [.xfer, .hdlcUnstuff 0x7E] t = some u ∧ u.output = s.input.takeWhile (· != 0x7E) ∧
      u.status.eof = (s.input.contains 0x7E || fc.toNat != 0 && s.input != []) := by
  have hadm := Config.wf_spec hc
  obtain ⟨t, ht, hout, hcfg, hibuf, hobuf⟩ := runAll_hdlcStuff ho hadm.bufsz_le hfit
  obtain ⟨u, hu, hres, heof⟩ := runAll_xfer_hdlcUnstuff (hibuf ▸ hi) hobuf 0x7E
  obtain ⟨hdata, hend⟩ := hdlcUnstuff_hdlcStuff hadm.hdlcRun fc.toNat s.input
  rw [hout, hcfg] at hres heof
  exact ⟨t, u, ht, hout, hu, hres.trans hdata, heof.trans hend⟩

/-- Settles O48, from `runAll_hdlcStuff_xfer_hdlcUnstuff`: input with a byte 0x7E in it is not empty. -/
theorem hdlcRoundTrip : Obligations.HdlcRoundTrip := by
  intro s fc hs hfit
  obtain ⟨t, u, ht, -, hu, hres, heof⟩ :=
    runAll_hdlcStuff_xfer_hdlcUnstuff hs.cfg_wf hs.ibuf_wf hs.obuf_wf hfit
  refine ⟨u, (runAll_append ht [.xfer, .hdlcUnstuff 0x7E]).trans hu, fun hfc => ⟨hres, ?_⟩,
    fun hfc hmem => ⟨?_, ?_⟩⟩
  · have hfc' : (fc.toNat != 0) = true := bne_iff_ne.2 fun h => hfc (BitVec.eq_of_toNat_eq h)
    rw [heof, hfc', Bool.true_and]
    cases s.input with
    | nil => rfl
    | cons b t => exact Bool.or_true _
  · exact hres.trans (List.takeWhile_eq_self_iff.2 fun b hb => bne_iff_ne.2 (ne_of_mem_of_not_mem hb hmem))
  · rw [heof, hfc, Bool.eq_false_iff.2 fun h => hmem (List.contains_iff_mem.1 h)]
    rfl

/-- The bytes of R156's example. -/
theorem hdlcStuff_flag_valued_byte {c : Config} (hrun : c.hdlcRun = 5) (hpad : c.hdlcPad = false) :
    hdlcStuff c 1 0x7E [0x41, 0x7E, 0x42] = [0x7E, 0x41, 0xBE, 0x84, 0xFC, 0x00] := by
  rw [hdlcStuff, hrun, hpad]
  rfl

/-- Settles O49: the stuffed bytes are computed, and `runAll_hdlcStuff_xfer_hdlcUnstuff` gives the rest. -/
theorem flagValuedByteTruncatesFrame : Obligations.FlagValuedByteTruncatesFrame := by
  intro s hs hpad
  have hc := Config.wf_spec hs.cfg_wf
  have hroom {n : Nat} (hn : n ≤ 8) : n ≤ s.cfg.bufsz := hn.trans hc.bufsz_ge
  have hbytes := hdlcStuff_flag_valued_byte hc.hdlcRun hpad
  have hload := runAll_inLoad (bs := [0x41, 0x7E, 0x42]) hc.bufsz_le (hroom (by decide))
  have hin : ((s.withInput [0x41, 0x7E, 0x42]).withErr eOk).input = [0x41, 0x7E, 0x42] :=
    (s.withInput_spec _ hs.ibuf_wf (by decide)).1
  obtain ⟨t, u, ht, hout, hu, hres, heof⟩ := runAll_hdlcStuff_xfer_hdlcUnstuff
    (s := (s.withInput [0x41, 0x7E, 0x42]).withErr eOk) (fc := 1) hs.cfg_wf
    (Memory.wf_writeBytes hs.ibuf_wf ..) hs.obuf_wf (by rw [hin]; exact hbytes ▸ hroom (by decide))
  rw [hin] at hout hres heof
  exact ⟨t, u, (runAll_append hload _).trans ht, hout.trans hbytes, hu, hres, heof⟩

end Sys2Proof.Machine

/-! # The SLIP unit (43_slip.md R170 to R173)

The encoder and the decoder are the loops of R171 and R172. The round trip rests on the first byte of the escaped
data not being END: the decoder skips one END only, and finds the next one behind the data. -/

namespace Sys2Proof.Machine

/-! ## The encoder's loop (R171) -/

/-- The encoder is R171's loop: each turn appends the escaped form of its byte. -/
theorem reference_slipEncode (c : Config) (data : List Byte) :
    Reference.slipEncode c data = slipEncode c data := by
  have hturn (out : List Byte) (b : Byte) :
      (if b = c.slipEnd then out ++ [c.slipEsc, c.slipEscEnd]
        else if b = c.slipEsc then out ++ [c.slipEsc, c.slipEscEsc]
        else out ++ [b]) = out ++ slipEscape c b := by
    rw [slipEscape, apply_ite (out ++ ·), apply_ite (out ++ ·)]
  simp only [Reference.slipEncode, hturn, List.foldl_append_eq_append, ← List.flatMap_def]
  rfl

theorem exec_slipEnc_of_le {s : State} (h : (slipEncode s.cfg s.input).length ≤ s.cfg.bufsz) :
    exec .slipEnc s = .next ((s.withOutput (slipEncode s.cfg s.input)).withErr eOk) :=
  ((exec_slipEnc s).resolve_left fun hovf => h.not_gt hovf.1).2

/-- Settles O50: `reference_slipEncode`, and the two ways `SLIP.ENC` can end. -/
theorem slipEncFollowsItsLoop : Obligations.SlipEncFollowsItsLoop := by
  refine ⟨decode_encode .slipEnc, fun s hs => ?_⟩
  simp only [reference_slipEncode]
  refine ⟨fun hovf => ?_, fun hfit => ?_⟩
  · exact ((exec_slipEnc s).resolve_right fun h => hovf.not_ge h.1).2
  · exact ⟨_, exec_slipEnc_of_le hfit, (s.withOutput_wrote _ hs.obuf_wf
      (hfit.trans_lt (Nat.lt_succ_of_le (Config.wf_spec hs.cfg_wf).bufsz_le))).congr rfl rfl, rfl⟩

/-! ## The decoder's loop (R172) -/

/-- How R172's loop ends when it stands at position `p` with `out` decoded, and the bytes from `p` on give the
frame scan's answer. -/
def SlipResult.endAt (p : Nat) (out : List Byte) : SlipResult → Reference.SlipEnd
  | .frame rest used => .frame (out ++ rest) (p + used)
  | .failed e => .failed e

theorem SlipResult.endAt_prepend (p : Nat) (out : List Byte) (b : Byte) (k : Nat) (r : SlipResult) :
    (r.prepend b k).endAt p out = r.endAt (p + k) (out ++ [b]) := by
  cases r with
  | failed e => rfl
  | frame rest used =>
    simp only [prepend, SlipResult.endAt, List.append_assoc, List.cons_append, List.nil_append,
      Reference.SlipEnd.frame.injEq, true_and]
    omega

/-- The loop follows `slipFrame` along the bytes from its position on. -/
theorem slipLoop_eq (c : Config) (data : List Byte) (fuel p : Nat) (out : List Byte) (hp : p ≤ data.length)
    (hfuel : data.length < p + fuel) :
    Reference.slipLoop c data fuel p out = (slipFrame c (data.drop p)).endAt p out := by
  induction fuel generalizing p out with
  | zero => omega
  | succ n ih =>
    rw [Reference.slipLoop]
    rcases hp.eq_or_lt with rfl | hlt
    · rw [if_pos rfl, List.drop_length]
      rfl
    · rw [if_neg hlt.ne, List.drop_eq_getElem_cons hlt, slipFrame_cons, List.getD_eq_getElem _ _ hlt]
      by_cases hend : data[p] = c.slipEnd
      · simp only [if_pos hend, SlipResult.endAt, List.append_nil]
      · by_cases hesc : data[p] = c.slipEsc
        · simp only [if_neg hend, if_pos hesc]
          rcases Nat.eq_or_lt_of_le hlt with hlast | hnext
          · rw [if_pos hlast, List.drop_eq_nil_of_le hlast.ge]
            rfl
          · rw [if_neg hnext.ne, List.drop_eq_getElem_cons hnext, List.getD_eq_getElem _ _ hnext]
            by_cases hescEnd : data[p + 1] = c.slipEscEnd
            · simp only [if_pos hescEnd, SlipResult.endAt_prepend]
              exact ih (p + 2) _ hnext (by omega)
            · by_cases hescEsc : data[p + 1] = c.slipEscEsc
              · simp only [if_neg hescEnd, if_pos hescEsc, SlipResult.endAt_prepend]
                exact ih (p + 2) _ hnext (by omega)
              · simp only [if_neg hescEnd, if_neg hescEsc]
                rfl
        · simp only [if_neg hend, if_neg hesc, SlipResult.endAt_prepend]
          exact ih (p + 1) _ hlt (by omega)

/-- The decoder is R172's loops. -/
theorem reference_slipDecode (c : Config) (data : List Byte) :
    Reference.slipDecode c data = (slipDecode c data).endAt 0 [] := by
  have hskip := skipLoop_eq c.slipEnd data data.length 0 (Nat.le_add_left ..)
  rw [Nat.zero_add, List.drop_zero] at hskip
  have hle : Reference.skipLoop c.slipEnd data data.length 0 ≤ data.length :=
    hskip.trans_le (List.takeWhile_sublist _).length_le
  rw [Reference.slipDecode, slipDecode, ← hskip]
  generalize Reference.skipLoop c.slipEnd data data.length 0 = p at hle
  split
  case isTrue hend =>
    rw [hend, List.drop_length]
    rfl
  case isFalse =>
    rw [slipLoop_eq c data _ p [] hle (by omega)]
    cases slipFrame c (data.drop p) with
    | failed e => rfl
    | frame rest used => simp only [SlipResult.endAt, Nat.zero_add]

theorem exec_slipDec_of_frame {s : State} {out : List Byte} {used : Nat}
    (h : slipDecode s.cfg s.input = .frame out used) : exec .slipDec s =
      .next (({ (s.withOutput out) with consumed := BitVec.ofNat 16 used } : State).withErr eOk) := by
  obtain ⟨e, hr, -⟩ | ⟨out', used', hr, hexec⟩ := exec_slipDec s
  · cases h.symm.trans hr
  · cases h.symm.trans hr
    exact hexec

theorem exec_slipDec_of_failed {s : State} {e : BitVec 8} (h : slipDecode s.cfg s.input = .failed e) :
    exec .slipDec s = .next (s.withErr e) := by
  obtain ⟨e', hr, hexec⟩ | ⟨out, used, hr, -⟩ := exec_slipDec s
  · cases h.symm.trans hr
    exact hexec
  · cases h.symm.trans hr

/-- Settles O51: `reference_slipDecode`, and by `slipDecode_okFor` the registers hold what was counted. -/
theorem slipDecFollowsItsLoop : Obligations.SlipDecFollowsItsLoop := by
  refine ⟨decode_encode .slipDec, fun s hs => ?_⟩
  have hok := slipDecode_okFor s.cfg s.input
  rw [reference_slipDecode]
  cases hr : slipDecode s.cfg s.input with
  | failed e => exact ⟨slipDecode_failed_code hr, exec_slipDec_of_failed hr⟩
  | frame out used =>
    rw [hr] at hok
    obtain ⟨hshorter, hused⟩ := hok
    have hlt : used < 65536 := hused.trans_lt s.length_input_lt
    simp only [SlipResult.endAt, List.nil_append, Nat.zero_add]
    exact ⟨_, exec_slipDec_of_frame hr,
      (s.withOutput_wrote out hs.obuf_wf (hshorter.trans hlt)).congr rfl rfl,
      (BitVec.toNat_ofNat ..).trans (Nat.mod_eq_of_lt hlt), rfl⟩

/-! ## The round trip (R173) -/

/-- Escaped data holds no END where none of the three other special bytes is one. -/
theorem slipEnd_notMem_escaped {c : Config} (hesc : c.slipEsc ≠ c.slipEnd) (hescEnd : c.slipEscEnd ≠ c.slipEnd)
    (hescEsc : c.slipEscEsc ≠ c.slipEnd) (data : List Byte) : c.slipEnd ∉ data.flatMap (slipEscape c) := by
  rw [List.mem_flatMap]
  rintro ⟨b, -, hb⟩
  rw [slipEscape] at hb
  split at hb
  case isTrue => simp [hesc.symm, hescEnd.symm] at hb
  case isFalse hne =>
    split at hb
    case isTrue => simp [hesc.symm, hescEsc.symm] at hb
    case isFalse => exact hne (List.mem_singleton.1 hb).symm

/-- A mark put at both ends of a list it is not in stands at the two ends only. -/
theorem getElem_between_marks {x : Byte} {l : List Byte} (hx : x ∉ l) (k : Nat)
    (hk : k < (x :: l ++ [x]).length) :
    (x :: l ++ [x])[k] = x ↔ k = 0 ∨ k + 1 = (x :: l ++ [x]).length := by
  have hlen : (x :: l ++ [x]).length = l.length + 2 := by simp
  cases k with
  | zero => simp
  | succ j =>
    rcases Nat.lt_or_ge j l.length with hj | hj
    · have hinner : (x :: l ++ [x])[j + 1] = l[j] := by simp [List.getElem_append_left hj]
      rw [hinner, hlen]
      exact ⟨fun h => absurd (h ▸ List.getElem_mem hj) hx, fun h => by omega⟩
    · obtain rfl : j = l.length := by omega
      simp

/-- Nothing but ENDs is `E_TRUNC`, also what the encoder makes of no data. -/
theorem slipDecode_slipEncode_nil (c : Config) : slipDecode c (slipEncode c []) = .failed eTrunc := by
  have hends : (slipEncode c []).takeWhile (· == c.slipEnd) = slipEncode c [] := by simp [slipEncode]
  rw [slipDecode, hends, List.drop_length]
  rfl

/-- Unpacking a packed non-empty input gives it back and takes all of the packed form. -/
theorem slipDecode_slipEncode {c : Config} (hc : SlipDistinct c) {data : List Byte} (hdata : data ≠ []) :
    slipDecode c (slipEncode c data) = .frame data (slipEncode c data).length := by
  have hopening : (slipEncode c data).takeWhile (· == c.slipEnd) = [c.slipEnd] := by
    obtain ⟨b, t, rfl⟩ := List.exists_cons_of_ne_nil hdata
    obtain ⟨x, xs, hx, hne⟩ := slipEscape_head c hc b
    simp [slipEncode, hx, hne]
  have hframe : slipFrame c ((slipEncode c data).drop 1) =
      .frame data ((data.flatMap (slipEscape c)).length + 1) := slipFrame_escaped c hc data []
  rw [slipDecode, hopening, List.length_singleton, hframe]
  simp only [slipEncode, List.length_append, List.length_cons, List.length_nil, SlipResult.frame.injEq, true_and]
  omega

/-- `SLIP.ENC` of input whose packed form fits, moved to the input. -/
theorem runAll_slipEnc_xfer {s : State} (hs : s.Inv) (hfit : (slipEncode s.cfg s.input).length ≤ s.cfg.bufsz) :
    ∃ t, runAll [.slipEnc, .xfer] s = some t ∧ t.input = slipEncode s.cfg s.input ∧
      t.ilen = BitVec.ofNat 16 (slipEncode s.cfg s.input).length ∧ t.cfg = s.cfg ∧ t.obuf.wf = true := by
  have hlt := hfit.trans_lt (Nat.lt_succ_of_le (Config.wf_spec hs.cfg_wf).bufsz_le)
  have hout : ((s.withOutput (slipEncode s.cfg s.input)).withErr eOk).output = slipEncode s.cfg s.input :=
    (s.withOutput_wrote _ hs.obuf_wf hlt).output_eq rfl rfl
  rw [runAll_cons (exec_slipEnc_of_le hfit), runAll_cons (exec_xfer _), hout]
  obtain ⟨hin, -, -⟩ := State.withInput_spec ((s.withOutput (slipEncode s.cfg s.input)).withErr eOk) _
    hs.ibuf_wf hlt
  exact ⟨_, rfl, hin, rfl, rfl, Memory.wf_writeBytes hs.obuf_wf ..⟩

/-- Settles O52: END stands at the two ends only by `getElem_between_marks`, and the packed form is decoded by
`slipDecode_slipEncode`. -/
theorem slipRoundTrip : Obligations.SlipRoundTrip := by
  intro s hs hend hesc hescEnd hescEsc hfit
  have hdistinct : SlipDistinct s.cfg := by
    rw [SlipDistinct, hend, hesc, hescEnd, hescEsc]
    decide
  have hnoEnd : s.cfg.slipEnd ∉ s.input.flatMap (slipEscape s.cfg) :=
    slipEnd_notMem_escaped hdistinct.1 (by rw [hend, hescEnd]; decide) (by rw [hend, hescEsc]; decide) s.input
  obtain ⟨t, ht, hin, hilen, hcfg, hobuf⟩ := runAll_slipEnc_xfer hs hfit
  have hmarks : ∀ k, (h : k < t.input.length) → (t.input[k] = 0xC0 ↔ k = 0 ∨ k + 1 = t.input.length) := by
    rw [hin, ← hend]
    exact getElem_between_marks hnoEnd
  rcases eq_or_ne s.input [] with hnil | hdata
  · have hdec : slipDecode t.cfg t.input = .failed eTrunc := by
      rw [hcfg, hin, hnil, slipDecode_slipEncode_nil]
    exact ⟨t, _, ht, exec_slipDec_of_failed hdec, hmarks, fun h => absurd hnil h, fun _ => rfl⟩
  · have hdec : slipDecode t.cfg t.input = .frame s.input (slipEncode s.cfg s.input).length := by
      rw [hcfg, hin, slipDecode_slipEncode hdistinct hdata]
    refine ⟨t, _, ht, exec_slipDec_of_frame hdec, hmarks, fun _ => ⟨?_, hilen.symm, rfl⟩,
      fun h => absurd h hdata⟩
    exact (t.withOutput_wrote s.input hobuf s.length_input_lt).output_eq rfl rfl

end Sys2Proof.Machine

/-! # The marker detector and the descrambler (44_fsm_lfsr.md R185 to R196)

What both commands put out is read byte by byte through `descramble_getElem` and `uninvert_getElem`. -/

namespace Sys2Proof.Machine

/-! ## The markers (R185) -/

/-- Complementing a marker complements every byte of it. -/
theorem asmBytes_not (v : Marker) : asmBytes (~~~ v) = (asmBytes v).map (~~~ ·) := by
  have hbyte (i : Nat) (hi : i + 8 ≤ 32) : (~~~ v).extractLsb' i 8 = ~~~ v.extractLsb' i 8 := by
    apply BitVec.eq_of_getLsbD_eq
    intro j hj
    simp [hj, show i + j < 32 by omega]
  simp only [asmBytes, List.map_cons, List.map_nil, hbyte 24 (by decide), hbyte 16 (by decide),
    hbyte 8 (by decide), hbyte 0 (by decide)]

/-- Settles O58, from `asmBytes_not` and `not_both_markers`. -/
theorem markersAreComplementary : Obligations.MarkersAreComplementary := by
  refine fun c s => ⟨fun k hk => ?_, not_both_markers s c.asmA, by decide, by decide⟩
  have hget : (asmBytes c.asmA)[k]? = some ((asmBytes c.asmA)[k]'hk) := List.getElem?_eq_getElem hk
  exact ⟨_, hget, by rw [Config.asmB, asmBytes_not, List.getElem?_map, hget]; rfl⟩

/-- The marker found is the one the input starts with: no input starts with both. -/
theorem markerOf_eq_some {s : State} (hasm : s.cfg.asmLen = 4) (hlen : 4 ≤ s.ilen.toNat) {inv : Bool}
    (hm : StartsWithMarker s (if inv then ~~~ s.cfg.asmA else s.cfg.asmA)) :
    markerOf s.cfg s.input = some inv := by
  obtain ⟨ha, hmark⟩ | ⟨hb, hmark⟩ | ⟨hna, hnb, -⟩ := markerOf_eq s hasm hlen
  · cases inv with
    | false => exact hmark
    | true => exact absurd ⟨ha, hm⟩ (not_both_markers s _)
  · cases inv with
    | false => exact absurd ⟨hm, hb⟩ (not_both_markers s _)
    | true => exact hmark
  · cases inv with
    | false => exact absurd hm hna
    | true => exact absurd hm hnb

theorem markerOf_eq_none {s : State} (hasm : s.cfg.asmLen = 4) (hlen : 4 ≤ s.ilen.toNat)
    (hna : ¬ StartsWithMarker s s.cfg.asmA) (hnb : ¬ StartsWithMarker s (~~~ s.cfg.asmA)) :
    markerOf s.cfg s.input = none :=
  (((markerOf_eq s hasm hlen).resolve_left fun h => hna h.1).resolve_left fun h => hnb h.1).2.2

/-! ## `LFSR.DESCR` (R191, R196) -/

theorem WroteOutput.read {s t : State} {out : List Byte} (h : WroteOutput s t out) {k : Nat}
    (hk : k < out.length) : t.obuf.read k = out[k] := by
  obtain ⟨-, rfl, -⟩ := h
  exact (Memory.getElem_bytes ..).symm

/-- Output as long as the input takes over the input's length register as it stands. -/
theorem withOutput_of_length_eq_ilen {s : State} {out : List Byte} (h : out.length = s.ilen.toNat) :
    s.withOutput out = { s with obuf := s.obuf.writeBytes 0 out, olen := s.ilen } := by
  rw [State.withOutput, h, BitVec.ofNat_toNat, BitVec.setWidth_eq]

/-- What `LFSR.DESCR` puts out. -/
theorem descr_wrote {s : State} (hw : s.obuf.wf = true) :
    WroteOutput s (s.withOutput (descramble s.cfg s.input)) (descramble s.cfg s.input) :=
  s.withOutput_wrote _ hw ((length_descramble ..).trans_lt s.length_input_lt)

/-- Settles O54: `descr_wrote`, the bytes by `descramble_getElem`, the register by `keyState_eq`. -/
theorem lfsrDescrXorsKeyStream : Obligations.LfsrDescrXorsKeyStream := by
  refine ⟨decode_encode .lfsrDescr, fun s hs => ?_⟩
  have hwrote := descr_wrote hs.obuf_wf
  have hlen : (descramble s.cfg s.input).length = s.ilen.toNat :=
    (length_descramble ..).trans s.length_input
  refine ⟨_, exec_lfsrDescr s, fun k hk => ?_, fun a ha => hwrote.2.2 a (hlen.trans_le ha), ?_⟩
  · have hread := hwrote.read (hlen.symm ▸ hk)
    rw [descramble_getElem] at hread
    exact hread.trans (congrArg (· ^^^ _) (Memory.getElem_bytes ..))
  · rw [withOutput_of_length_eq_ilen hlen, keyState_eq, State.length_input]
    rfl

/-- The key stream starts from the seed each time, so it cancels itself (R192, R196). -/
theorem descramble_descramble (c : Config) (data : List Byte) : descramble c (descramble c data) = data := by
  refine List.ext_getElem (by simp) fun k h1 h2 => ?_
  rw [descramble_getElem, descramble_getElem, BitVec.xor_assoc, BitVec.xor_self, BitVec.xor_zero]

/-- `LFSR.DESCR`, as far as a command after it looks at it. -/
theorem exec_lfsrDescr_output {s : State} (hw : s.obuf.wf = true) :
    ∃ t, exec .lfsrDescr s = .next t ∧ t.output = descramble s.cfg s.input ∧
      t.lfsr = keyState s.cfg s.input.length ∧ t.cfg = s.cfg ∧ t.ibuf = s.ibuf ∧ t.obuf.wf = true :=
  ⟨_, exec_lfsrDescr s, (descr_wrote hw).output_eq rfl rfl, rfl, rfl, rfl, Memory.wf_writeBytes hw ..⟩

/-- `LFSR.DESCR` of the result before it. -/
theorem runAll_xfer_lfsrDescr {s : State} (hi : s.ibuf.wf = true) (ho : s.obuf.wf = true) :
    ∃ t, runAll [.xfer, .lfsrDescr] s = some t ∧ t.output = descramble s.cfg s.output ∧
      t.lfsr = keyState s.cfg s.output.length := by
  have hlt : s.output.length < 65536 := s.length_output.trans_lt s.olen.isLt
  have hin : ((s.withInput s.output).withErr eOk).input = s.output := (s.withInput_spec s.output hi hlt).1
  obtain ⟨t, ht, hout, hlfsr, -⟩ := exec_lfsrDescr_output (s := (s.withInput s.output).withErr eOk) ho
  rw [hin] at hout hlfsr
  exact ⟨t, (runAll_cons (exec_xfer s) _).trans (runAll_cons ht []), hout, hlfsr⟩

/-- Settles O56: `runAll_xfer_lfsrDescr` after the first descrambling, and `descramble_descramble`. -/
theorem descramblingTwiceIsIdentity : Obligations.DescramblingTwiceIsIdentity := by
  intro s hs
  obtain ⟨t, ht, hout, -, hcfg, hibuf, hobuf⟩ := exec_lfsrDescr_output hs.obuf_wf
  obtain ⟨u, hu, hres, -⟩ := runAll_xfer_lfsrDescr (hibuf ▸ hs.ibuf_wf) hobuf
  rw [hout, hcfg, descramble_descramble] at hres
  exact ⟨u, (runAll_cons ht _).trans hu, hres⟩

/-! ## `FSM.UNPACK` (R190, R193) -/

/-- What `FSM.UNPACK d` puts out once the marker is found (R189). -/
def State.unpacked (s : State) (d : Byte) (inv : Bool) : List Byte :=
  if d = 1 then descramble s.cfg (uninvert inv (s.input.drop 4)) else uninvert inv (s.input.drop 4)

theorem length_unpacked (s : State) (d : Byte) (inv : Bool) :
    (s.unpacked d inv).length = s.ilen.toNat - 4 := by
  rw [State.unpacked]
  split
  all_goals simp

theorem getElem_unpacked (s : State) (d : Byte) (inv : Bool) {k : Nat} (hk : k < (s.unpacked d inv).length) :
    (s.unpacked d inv)[k] = s.ibuf.read (4 + k) ^^^ (if inv then 0xFF else 0x00) ^^^
      (if d = 1 then Reference.keyByte s.cfg k else 0x00) := by
  have hpayload (h : k < (uninvert inv (s.input.drop 4)).length) :
      (uninvert inv (s.input.drop 4))[k] = s.ibuf.read (4 + k) ^^^ (if inv then 0xFF else 0x00) := by
    rw [uninvert_getElem, List.getElem_drop]
    exact congrArg (· ^^^ _) (Memory.getElem_bytes ..)
  by_cases hd : d = 1
  · simp only [State.unpacked, if_pos hd, descramble_getElem, hpayload]
  · simp only [State.unpacked, if_neg hd, hpayload]
    exact (BitVec.xor_zero ..).symm

/-- `FSM.UNPACK` of input that starts with a marker. -/
theorem exec_fsmUnpack_of_marker {s : State} {d : Byte} {inv : Bool} (hasm : s.cfg.asmLen = 4)
    (hd : d.toNat < 2) (hlen : 4 ≤ s.ilen.toNat)
    (hm : StartsWithMarker s (if inv then ~~~ s.cfg.asmA else s.cfg.asmA)) :
    exec (.fsmUnpack d) s = .next ((({ s.withOutput (s.unpacked d inv) with
      lfsr := if d = 1 then keyState s.cfg (s.unpacked d inv).length else s.lfsr
      consumed := s.ilen } : State).withInv inv).withErr eOk) := by
  have hmark := markerOf_eq_some hasm hlen hm
  obtain ⟨h, -⟩ | ⟨-, h, -⟩ | ⟨-, -, h, -⟩ | ⟨-, -, inv', h, he⟩ := exec_fsmUnpack d s
  · omega
  · omega
  · cases hmark.symm.trans h
  · cases hmark.symm.trans h
    rw [he]
    simp only [State.unpacked, switchBit_eq_beq_one hd, beq_iff_eq, hasm]
    by_cases hd1 : d = 1
    · simp only [if_pos hd1, length_descramble]
    · simp only [if_neg hd1]

theorem unpacked_wrote {s : State} (hw : s.obuf.wf = true) (d : Byte) (inv : Bool) :
    WroteOutput s (s.withOutput (s.unpacked d inv)) (s.unpacked d inv) :=
  s.withOutput_wrote _ hw (by rw [length_unpacked]; exact (Nat.sub_le ..).trans_lt s.ilen.isLt)

/-- `FSM.UNPACK` of input that starts with a marker, as far as a command after it looks at it. -/
theorem exec_fsmUnpack_output {s : State} (hs : s.Inv) {d : Byte} {inv : Bool} (hd : d.toNat < 2)
    (hlen : 4 ≤ s.ilen.toNat) (hm : StartsWithMarker s (if inv then ~~~ s.cfg.asmA else s.cfg.asmA)) :
    ∃ t, exec (.fsmUnpack d) s = .next t ∧ t.output = s.unpacked d inv ∧
      t.lfsr = (if d = 1 then keyState s.cfg (s.unpacked d inv).length else s.lfsr) ∧
      t.cfg = s.cfg ∧ t.ibuf = s.ibuf ∧ t.obuf.wf = true :=
  ⟨_, exec_fsmUnpack_of_marker (Config.wf_spec hs.cfg_wf).asmLen hd hlen hm,
    (unpacked_wrote hs.obuf_wf d inv).output_eq rfl rfl, rfl, rfl, rfl, Memory.wf_writeBytes hs.obuf_wf ..⟩

/-- Settles O53: the ways `FSM.UNPACK` can end, and `getElem_unpacked` for the bytes of the good one. -/
theorem fsmUnpackDetectsAndRecovers : Obligations.FsmUnpackDetectsAndRecovers := by
  intro s d hs
  have hasm := (Config.wf_spec hs.cfg_wf).asmLen
  refine ⟨decode_encode (.fsmUnpack d), fun hd => ?_, fun hd hshort => ?_, fun hd hlen hna hnb => ?_,
    fun inv hd hlen hm => ?_⟩
  · exact (exec_fsmUnpack d s).resolve_right (by omega) |>.2
  · obtain ⟨h, -⟩ | ⟨-, -, he⟩ | ⟨-, h, -⟩ | ⟨-, h, -⟩ := exec_fsmUnpack d s
    · omega
    · exact he
    · omega
    · omega
  · have hmark := markerOf_eq_none hasm hlen hna hnb
    obtain ⟨h, -⟩ | ⟨-, h, -⟩ | ⟨-, -, -, he⟩ | ⟨-, -, inv, h, -⟩ := exec_fsmUnpack d s
    · omega
    · omega
    · exact he
    · cases hmark.symm.trans h
  · have hwrote := unpacked_wrote hs.obuf_wf d inv
    have hout := length_unpacked s d inv
    refine ⟨_, exec_fsmUnpack_of_marker hasm hd hlen hm, hwrote.1.trans hout, fun k hk => ?_,
      fun a ha => hwrote.2.2 a (hout.trans_le ha), ?_⟩
    · exact (hwrote.read (hout.symm ▸ hk)).trans (getElem_unpacked ..)
    · rw [keyState_eq, hout]
      rfl

/-- Settles O55: `FSM.UNPACK 0` puts out the un-inverted payload, and `runAll_xfer_lfsrDescr` descrambles it. -/
theorem fsmDescrambleIsUnpackThenDescramble : Obligations.FsmDescrambleIsUnpackThenDescramble := by
  intro s hs hlen hm
  obtain ⟨inv, hinv⟩ : ∃ inv : Bool, StartsWithMarker s (if inv then ~~~ s.cfg.asmA else s.cfg.asmA) :=
    hm.elim (fun h => ⟨false, h⟩) (fun h => ⟨true, h⟩)
  obtain ⟨t, ht, hout, hlfsr, -⟩ := exec_fsmUnpack_output hs (d := 1) (by decide) hlen hinv
  obtain ⟨p, hp, hplain, -, hcfg, hibuf, hobuf⟩ := exec_fsmUnpack_output hs (d := 0) (by decide) hlen hinv
  obtain ⟨u, hu, hres, hlfsr'⟩ := runAll_xfer_lfsrDescr (hibuf ▸ hs.ibuf_wf) hobuf
  rw [hplain, hcfg] at hres hlfsr'
  have hsame : (s.unpacked 1 inv).length = (s.unpacked 0 inv).length :=
    (length_unpacked s 1 inv).trans (length_unpacked s 0 inv).symm
  exact ⟨t, u, ht, (runAll_cons hp _).trans hu, hout.trans hres.symm,
    hlfsr.trans ((congrArg (keyState s.cfg) hsame).trans hlfsr'.symm)⟩

end Sys2Proof.Machine

/-! # The period of the descrambler's register (44_fsm_lfsr.md R187)

A step is linear over XOR, so that many steps at once are a table of sixteen rows, and doing a table twice doubles
its steps. Such jumps show that the state 1 comes back after 65535 steps and not after 65535 / q for a prime q: its
orbit has 65535 states, and there are no more than these that are not zero. -/

namespace Sys2Proof.Machine

open Reference (lfsrNext)
open Function (minimalPeriod IsPeriodicPt Semiconj₂)

/-! ## Linear maps on words as sixteen rows -/

/-- The XOR of the rows that the bits of `v` choose, bit 0 the first row. -/
def xorWhere : List Word → Word → Word
  | [], _ => 0
  | r :: rs, v => (if v.getLsbD 0 then r else 0) ^^^ xorWhere rs (v >>> 1)

/-- The sixteen words with one bit set. -/
def bitBasis : List Word := (List.range' 0 16).map (BitVec.twoPow 16)

/-- The rows that set the bits `i .. i + n` copy those bits, and no other. -/
theorem getLsbD_xorWhere_twoPow (n i : Nat) (v : Word) (j : Nat) :
    (xorWhere ((List.range' i n).map (BitVec.twoPow 16)) (v >>> i)).getLsbD j =
      (v.getLsbD j && decide (i ≤ j ∧ j < i + n)) := by
  induction n generalizing i with
  | zero =>
    have hno : ¬ (i ≤ j ∧ j < i + 0) := by omega
    rw [decide_eq_false hno, Bool.and_false]
    exact BitVec.getLsbD_zero
  | succ n ih =>
    have hbit : (if (v >>> i).getLsbD 0 then BitVec.twoPow 16 i else 0).getLsbD j =
        (v.getLsbD j && decide (i = j)) := by
      rw [BitVec.getLsbD_ushiftRight, apply_ite (BitVec.getLsbD · j), BitVec.getLsbD_twoPow]
      by_cases hij : i = j
      · subst hij
        cases h : v.getLsbD i with
        | false => simp
        | true => simp [BitVec.lt_of_getLsbD h]
      · simp [hij]
    rw [List.range'_succ, List.map_cons, xorWhere, ← BitVec.shiftRight_add, BitVec.getLsbD_xor, hbit, ih,
      ← Bool.and_xor_distrib_left]
    congr 1
    by_cases hij : i = j
    · simp [hij]
    · have hrange : (i + 1 ≤ j ∧ j < i + 1 + n) ↔ (i ≤ j ∧ j < i + (n + 1)) := by omega
      rw [decide_eq_false hij, Bool.false_xor, decide_eq_decide.2 hrange]

theorem xorWhere_bitBasis (v : Word) : xorWhere bitBasis v = v := by
  apply BitVec.eq_of_getLsbD_eq
  intro j hj
  have h := getLsbD_xorWhere_twoPow 16 0 v j
  rwa [decide_eq_true (by omega), Bool.and_true] at h

theorem xorWhere_map {f : Word → Word} (hf : Semiconj₂ f (· ^^^ ·) (· ^^^ ·)) (rows : List Word) (v : Word) :
    xorWhere (rows.map f) v = f (xorWhere rows v) := by
  have h0 : f 0 = 0 := by simpa using hf.eq 0 0
  induction rows generalizing v with
  | nil => exact h0.symm
  | cons r rows ih => rw [List.map_cons, xorWhere, ih, xorWhere, hf.eq, apply_ite f, h0]

/-- A linear map is told by what it does to the single bits. -/
theorem xorWhere_map_bitBasis {f : Word → Word} (hf : Semiconj₂ f (· ^^^ ·) (· ^^^ ·)) :
    xorWhere (bitBasis.map f) = f :=
  funext fun v => (xorWhere_map hf bitBasis v).trans (congrArg f (xorWhere_bitBasis v))

/-! ## Many steps at once -/

/-- The register's step is linear: of two masks added, both cancel. -/
theorem lfsrNext_xor (p : Word) : Semiconj₂ (lfsrNext p) (· ^^^ ·) (· ^^^ ·) := by
  intro a b
  simp only [lfsrNext, BitVec.getLsbD_xor, BitVec.ushiftRight_xor_distrib]
  cases a.getLsbD 0 with
  | false =>
    cases b.getLsbD 0 with
    | false => rfl
    | true => exact BitVec.xor_assoc ..
  | true =>
    cases b.getLsbD 0 with
    | false =>
      show a >>> 1 ^^^ b >>> 1 ^^^ p = a >>> 1 ^^^ p ^^^ b >>> 1
      ac_rfl
    | true =>
      calc a >>> 1 ^^^ b >>> 1 = a >>> 1 ^^^ b >>> 1 ^^^ (p ^^^ p) := by rw [BitVec.xor_self, BitVec.xor_zero]
        _ = a >>> 1 ^^^ p ^^^ (b >>> 1 ^^^ p) := by ac_rfl

/-- The rows of `2 ^ k` steps: each table is the one before it, done twice. -/
def jumpRows (p : Word) : Nat → List Word
  | 0 => bitBasis.map (lfsrNext p)
  | k + 1 => (jumpRows p k).map (xorWhere (jumpRows p k))

/-- The register `2 ^ k` steps after `v`. -/
def jump (p v : Word) (k : Nat) : Word := xorWhere (jumpRows p k) v

theorem jumpRows_eq (p : Word) (k : Nat) : jumpRows p k = bitBasis.map (lfsrNext p)^[2 ^ k] := by
  induction k with
  | zero => rfl
  | succ k ih =>
    rw [jumpRows, ih, xorWhere_map_bitBasis ((lfsrNext_xor p).iterate _), List.map_map, ← Function.iterate_add,
      ← Nat.two_mul, ← Nat.pow_succ']

theorem jump_eq (p v : Word) (k : Nat) : jump p v k = (lfsrNext p)^[2 ^ k] v := by
  rw [jump, jumpRows_eq, xorWhere_map_bitBasis ((lfsrNext_xor p).iterate _)]

theorem foldl_jump (p : Word) (ks : List Nat) (v : Word) :
    ks.foldl (jump p) v = (lfsrNext p)^[(ks.map (2 ^ ·)).sum] v := by
  induction ks generalizing v with
  | nil => rfl
  | cons k ks ih =>
    rw [List.foldl_cons, ih, jump_eq, List.map_cons, List.sum_cons, Nat.add_comm, Function.iterate_add_apply]

/-- Any number of steps is one jump for each 1 of its binary form. -/
theorem lfsrNext_iterate (p v : Word) (n : Nat) : (lfsrNext p)^[n] v = n.bitIndices.foldl (jump p) v := by
  rw [foldl_jump, Nat.sum_map_two_pow_bitIndices]

/-! ## The period of one state -/

/-- A period is minimal when it cannot be divided by a prime. -/
theorem minimalPeriod_eq_of_prime_quotients {α : Type} {f : α → α} {x : α} {n : Nat} (hx : IsPeriodicPt f n x)
    (hq : ∀ q, q.Prime → q ∣ n → ¬ IsPeriodicPt f (n / q) x) : minimalPeriod f x = n := by
  obtain ⟨a, ha⟩ := hx.minimalPeriod_dvd
  by_contra hne
  have ha1 : a ≠ 1 := fun h => hne (by rw [ha, h, Nat.mul_one])
  obtain ⟨q, hprime, b, hb⟩ := Nat.exists_prime_and_dvd ha1
  have hn : n = minimalPeriod f x * b * q := by rw [Nat.mul_assoc, Nat.mul_comm b, ← hb, ← ha]
  refine hq q hprime ⟨_, hn.trans (Nat.mul_comm ..)⟩ (Function.isPeriodicPt_iff_minimalPeriod_dvd.2 ⟨b, ?_⟩)
  exact Nat.div_eq_of_eq_mul_left hprime.pos hn

theorem mem_of_prime_dvd_65535 {q : Nat} (hq : q.Prime) (h : q ∣ 65535) : q ∈ [3, 5, 17, 257] := by
  have hfactor {r : Nat} (hr : r.Prime) : q ∣ r ↔ q = r := Nat.prime_dvd_prime_iff_eq hq hr
  rw [show 65535 = 3 * 5 * 17 * 257 from rfl, hq.dvd_mul, hq.dvd_mul, hq.dvd_mul, hfactor (by norm_num),
    hfactor (by norm_num), hfactor (by norm_num), hfactor (by norm_num)] at h
  simpa [or_assoc] using h

/-- From the state 1, the states after 65535 steps and after each of the four prime quotients. -/
theorem foldl_jump_one : (Nat.bitIndices 65535).foldl (jump 0x8016) 1 = 1 ∧
    ∀ q ∈ [3, 5, 17, 257], (Nat.bitIndices (65535 / q)).foldl (jump 0x8016) 1 ≠ 1 := by decide +kernel

theorem minimalPeriod_lfsrNext_one : minimalPeriod (lfsrNext 0x8016) 1 = 65535 := by
  obtain ⟨hfull, hpart⟩ := foldl_jump_one
  refine minimalPeriod_eq_of_prime_quotients ((lfsrNext_iterate ..).trans hfull) fun q hq hdvd h => ?_
  exact hpart q (mem_of_prime_dvd_65535 hq hdvd) ((lfsrNext_iterate ..).symm.trans h)

/-! ## Every non-zero state -/

/-- An orbit of 65535 states that does not run into zero holds every other word, by counting. -/
theorem exists_iterate_eq_of_minimalPeriod {f : Word → Word} (h0 : f 0 = 0) {v w : Word} (hv : v ≠ 0)
    (hw : w ≠ 0) (hper : minimalPeriod f v = 65535) : ∃ k < 65535, f^[k] v = w := by
  have hmem {x : Word} (hx : x ≠ 0) : x.toNat ∈ Finset.Ioo 0 65536 :=
    Finset.mem_Ioo.2 ⟨Nat.pos_of_ne_zero fun h => hx (BitVec.eq_of_toNat_eq h), x.isLt⟩
  have hnonzero (k : Nat) (hk : k < 65535) : f^[k] v ≠ 0 := fun h => hv <|
    calc v = f^[65535 - k + k] v := by
          rw [Nat.sub_add_cancel hk.le, ← hper, Function.iterate_minimalPeriod]
      _ = 0 := by rw [Function.iterate_add_apply, h, Function.iterate_fixed h0]
  have hinj : Set.InjOn (fun k => (f^[k] v).toNat) (Finset.range 65535) := fun j hj k hk he =>
    (Function.iterate_eq_iterate_iff_of_lt_minimalPeriod (hper ▸ Finset.mem_range.1 hj)
      (hper ▸ Finset.mem_range.1 hk)).1 (BitVec.eq_of_toNat_eq he)
  obtain ⟨k, hk, he⟩ := Finset.surjOn_of_injOn_of_card_le (t := Finset.Ioo 0 65536) _
    (fun k hk => hmem (hnonzero k (Finset.mem_range.1 hk))) hinj (by simp) (hmem hw)
  exact ⟨k, Finset.mem_range.1 hk, BitVec.eq_of_toNat_eq he⟩

theorem minimalPeriod_lfsrNext {v : Word} (hv : v ≠ 0) : minimalPeriod (lfsrNext 0x8016) v = 65535 := by
  have hone := minimalPeriod_lfsrNext_one
  have hperiodic : (1 : Word) ∈ Function.periodicPts (lfsrNext 0x8016) :=
    Function.minimalPeriod_pos_iff_mem_periodicPts.1 (by omega)
  obtain ⟨k, -, rfl⟩ := exists_iterate_eq_of_minimalPeriod rfl (by decide : (1 : Word) ≠ 0) hv hone
  rw [Function.minimalPeriod_apply_iterate hperiodic, hone]

/-- Settles O57: `minimalPeriod_lfsrNext`, since `lfsrStep_eq` makes the step's next state `lfsrNext`. -/
theorem lfsrPeriodIsMaximal : Obligations.LfsrPeriodIsMaximal := by
  simp only [Obligations.LfsrPeriodIsMaximal, lfsrStep_eq]
  refine ⟨rfl, fun v hv => ?_⟩
  have hper : minimalPeriod (lfsrNext Config.default.lfsrPoly) v = 65535 := minimalPeriod_lfsrNext hv
  refine ⟨?_, fun k hpos hlt => ?_, fun w hw => exists_iterate_eq_of_minimalPeriod rfl hv hw hper⟩
  · exact hper ▸ Function.iterate_minimalPeriod
  · exact Function.not_isPeriodicPt_of_pos_of_lt_minimalPeriod hpos.ne' (hlt.trans_eq hper.symm)

end Sys2Proof.Machine

/-! # How a command ends (60_exceptions.md R210 to R213)

Each of the ways in `Did` is sorted once by what it does to `STATUS.ERR`. -/

namespace Sys2Proof.Machine

/-- R210 for the command `i` from `s` to `t`, the commands that end well without `ok()` apart. -/
inductive Ended (s : State) : Instr → State → Prop where
  /-- `NOP` writes nothing (R31, R101). -/
  | nop : Ended s .nop s
  /-- A successful `GET` writes no result code (R31, R103). -/
  | got (r : Byte) (w : Word) (h : s.register r = some w) : Ended s (.get r) (s.emit w)
  /-- The command ended with `ok()` or, for `SRESET`, cleared `STATUS` (R102). -/
  | succeeded {i : Instr} {t : State} (listed : eOk ∈ reportable i) (h : t.status.err = eOk) : Ended s i t
  /-- The command ended with `fail(e)` (R212). -/
  | failed {i : Instr} (e : BitVec 8) (listed : e ∈ reportable i) : Ended s i (s.withErr e)

/-- Every way a command can end is one of R210, with a code that R211's table lists for it. -/
theorem Did.ended {s t : State} {i : Instr} (d : Did s i t) : Ended s i t := by
  cases d with
  | nop => exact .nop
  | get r w h => exact .got r w h
  | slipDecFailed e h => rcases slipDecode_failed_code h with rfl | rfl <;> exact .failed _ (by decide)
  | getRange | inPushFull | outRdRange | crcCfgRange | crcPresetRange | crcStartNocfg | crcUpdateNocfg
  | crcUpdateNostart | crcFinalNocfg | crcFinalNostart | crcCalcNocfg | crcLutrdNocfg | hdlcStuffOvf
  | slipEncOvf | fsmUnpackRange | fsmUnpackTrunc | fsmUnpackMarker =>
    exact .failed _ (by simp [reportable, eTrunc, eMarker, eOvf, eNocfg, eNostart, eRange])
  | sreset | inClr | inPush | outRd | xfer | crcCfg | crcPreset | crcStart | crcUpdate | crcFinal | crcCalc
  | crcLutrd | hdlcStuff | hdlcUnstuff | slipEnc | slipDec | fsmUnpack | lfsrDescr =>
    exact .succeeded List.mem_cons_self rfl

/-- Settles O17: of the four ways in `Ended` only `succeeded` writes more than `STATUS.ERR` and `RSP`, and it
leaves `E_OK`. -/
theorem failureChangesOnlyErr : Obligations.FailureChangesOnlyErr := by
  intro i s t h herr
  cases (did_of_exec h).ended with
  | nop => exact .inl rfl
  | got r w hw => exact .inr ⟨r, w, rfl, hw, rfl⟩
  | succeeded _ hok => exact absurd hok herr
  | failed e => exact .inl rfl

/-- Settles O18: only a number below 11 names a register, so that `Ended.got` falls under the second clause. -/
theorem errCodesEachCommandCanReport : Obligations.ErrCodesEachCommandCanReport := by
  intro i s t h
  have d := did_of_exec h
  refine ⟨?_, ?_, fun hnop hget => ?_⟩
  · rintro rfl
    cases d
    rfl
  · rintro r rfl hlt
    cases d with
    | get => rfl
    | getRange _ hnone => exact absurd ((s.register_eq_none r).1 hnone) hlt.not_ge
  · cases d.ended with
    | nop => exact absurd rfl hnop
    | got r w hw => cases ((s.register_eq_none r).2 (hget r rfl)).symm.trans hw
    | succeeded listed hok => exact hok ▸ listed
    | failed e listed => exact listed

/-- Settles O19: the equations of the six commands, none of which has a second way to end. -/
theorem commandsThatCannotFail : Obligations.CommandsThatCannotFail := fun s =>
  ⟨⟨_, exec_nop s, rfl⟩, ⟨_, exec_sreset s, rfl⟩, ⟨_, exec_inClr s, rfl⟩, ⟨_, exec_xfer s, rfl⟩,
    fun fb => ⟨_, exec_hdlcUnstuff fb s, rfl⟩, ⟨_, exec_lfsrDescr s, rfl⟩⟩

end Sys2Proof.Machine

/-! # Reset and liveness (70_reset_and_hazards.md R240, R255) -/

namespace Sys2Proof.Machine

/-- Settles O11: the step is `State.hardReset`, every field of which but the memories has a fixed value. -/
theorem hardwareResetRestoresRegisters : Obligations.HardwareResetRestoresRegisters := fun s hr =>
  ⟨s.hardReset.ibuf, s.hardReset.obuf, s.hardReset.lut, step_reset hr⟩

/-- Settles O16: every command does one of the things in `Did`, each of which ends in a next state. -/
theorem everyCommandHasANextState : Obligations.EveryCommandHasANextState := fun i s =>
  let ⟨t, ht, _⟩ := exec_spec i s
  ⟨t, ht⟩

end Sys2Proof.Machine
